-- ==== Sys2Proof/Word.lean ====
section
/-! DEFINITION. The Word (10_state.md R20), the 6-bit code and the 8-bit character (00_scope.md R11),
and the two register widths PAGE_W and TIME_W (R11). -/

namespace Sys2Proof

/-- The sign attribute of a Word (R20): `POS` or `NEG`. It takes part in no arithmetic (R111). -/
inductive Sign where
  | pos
  | neg
deriving DecidableEq, Repr, Inhabited

/-- A Word (R20): a sign and a 30-bit magnitude. `(NEG, 0)` and `(POS, 0)` are distinct values. -/
structure Word where
  sign : Sign
  data : BitVec 30
deriving DecidableEq, Repr, Inhabited

/-- `ZERO`, the Word's default value (R20): sign `POS`, data 0. -/
def Word.zero : Word := { sign := .pos, data := 0 }

/-- A 6-bit internal character code (R11). -/
abbrev Code6 := BitVec 6

/-- An 8-bit external character (R11). -/
abbrev Char8 := BitVec 8

/-- A page number: the `CURPAGE` register and the `PAGE` port, `PAGE_W` = 32 bits (R11, R23, R84). -/
abbrev PageNo := BitVec 32

/-- A time in milliseconds: `BUSYUNTIL` and the `NOW` port, `TIME_W` = 64 bits (R11, R24, R29). -/
abbrev Time := BitVec 64

end Sys2Proof
end

