-- ==== Sys2Proof/Syntax.lean ====
section
/-! DEFINITION. The command set (30_encoding.md R80 to R83, R86): seven variants, four operations, two
register accesses; `Instr` has one constructor per row of the opcode table. `CmdFields` is the command
word cut into its three fields, before it is known to be a command. -/

namespace Sys2Proof

/-- The closed set of variants (R2, R80), in the order of `DEV` (R82). -/
inductive Device where
  | tape
  | disk
  | cardReader
  | cardWriter
  | linePrinter
  | typeWriter
  | paperTape
deriving DecidableEq, Repr, Inhabited

/-- The four operations (R80), in the order of `OP` (R83). -/
inductive Op where
  | in_
  | out
  | ioc
  | busy
deriving DecidableEq, Repr, Inhabited

/-- One constructor per row of spec/opcode_table.json (R86). No operand is assembled from bits of
`CMD` (R84): all operands but `DEV` of the register accesses are ports. -/
inductive Instr where
  | tapeIn | tapeOut | tapeIoc | tapeBusy
  | diskIn | diskOut | diskIoc | diskBusy
  | crIn | crOut | crIoc | crBusy
  | cwIn | cwOut | cwIoc | cwBusy
  | lpIn | lpOut | lpIoc | lpBusy
  | twIn | twOut | twIoc | twBusy
  | ptIn | ptOut | ptIoc | ptBusy
  | getPage (dev : Device)
  | setPage (dev : Device)
deriving DecidableEq, Repr, Inhabited

/-- The three fields of the command word (R81): `fmt` = `CMD[7:5]`, `dev` = `CMD[4:2]`,
`op` = `CMD[1:0]` (`OP` or `POP`). -/
structure CmdFields where
  fmt : BitVec 3
  dev : BitVec 3
  op  : BitVec 2
deriving DecidableEq, Repr, Inhabited

/-- Why a command word is reserved (R87), one name for each group of R87's list. -/
inductive Reserved where
  /-- `CMD[7:5] >= 2`: `0x40` to `0xFF`. -/
  | format
  /-- Format C or P with `DEV` = 7: `0x1C` to `0x1F`, `0x3C` to `0x3F`. -/
  | device
  /-- Format P with `POP` = 2 or 3 and `DEV` at most 6. -/
  | regOp
deriving DecidableEq, Repr, Inhabited

end Sys2Proof
end

