-- ==== Sys2Proof/Config.lean ====
section
/-! DEFINITION. What is fixed for one machine: the per-variant parameters as named configuration fields with
the source's values as their defaults (00_scope.md R8, 93_implementation_defined.md U11), the codec parameter
`CODEC` (R9) as plain data, and `LAT_TW`'s suggested default (R10). The machine's own values are fields of
its state (`State.params`, `State.codec`, `State.latTw`). The codec of the reset state is a constant with no
body: the spec gives no table. -/

namespace Sys2Proof

/-- The two per-variant size parameters of R8: `blockSize` (R25) and `numBlocks` (R26). -/
structure Sizes where
  blockSize : Nat
  numBlocks : Nat
deriving DecidableEq, Repr, Inhabited

/-- The latency constants of R8's two columns and of 41_device_base.md R122, in milliseconds per Word, one
for each supported `in` and `out`. The TypeWriter's is the open parameter `LAT_TW` (R10), `State.latTw`. -/
structure Latencies where
  tapeIn    : Nat
  tapeOut   : Nat
  diskIn    : Nat
  diskOut   : Nat
  cardIn    : Nat
  cardOut   : Nat
  print     : Nat
  paperTape : Nat
deriving DecidableEq, Repr, Inhabited

/-- The configuration fields of R8 and 93_implementation_defined.md U11: the sizes of the seven variants and
the latency constants. -/
structure Params where
  tape        : Sizes
  disk        : Sizes
  cardReader  : Sizes
  cardWriter  : Sizes
  linePrinter : Sizes
  typeWriter  : Sizes
  paperTape   : Sizes
  lat         : Latencies
deriving DecidableEq, Repr, Inhabited

/-- The row of R8's table for a variant. -/
def Params.sizes (p : Params) : Device → Sizes
  | .tape        => p.tape
  | .disk        => p.disk
  | .cardReader  => p.cardReader
  | .cardWriter  => p.cardWriter
  | .linePrinter => p.linePrinter
  | .typeWriter  => p.typeWriter
  | .paperTape   => p.paperTape

/-- `BLOCKSIZE` of a variant (R25). -/
def Params.blockSize (p : Params) (d : Device) : Nat := (p.sizes d).blockSize

/-- `NUMBLOCKS` of a variant (R26). -/
def Params.numBlocks (p : Params) (d : Device) : Nat := (p.sizes d).numBlocks

/-- The default of every configuration field: R8's table, "100 for tape/disk read, 150 for tape/disk write
and card read, 250 for card write, 100 for print, 200 for paper tape". -/
def Config.params : Params :=
  { tape        := { blockSize := 100, numBlocks := 2000 }
    disk        := { blockSize := 100, numBlocks := 4000 }
    cardReader  := { blockSize := 16, numBlocks := 1 }
    cardWriter  := { blockSize := 16, numBlocks := 1 }
    linePrinter := { blockSize := 24, numBlocks := 1 }
    typeWriter  := { blockSize := 14, numBlocks := 1 }
    paperTape   := { blockSize := 14, numBlocks := 1000 }
    lat         :=
      { tapeIn := 100, tapeOut := 150, diskIn := 100, diskOut := 150, cardIn := 150, cardOut := 250, print := 100
        paperTape := 200 } }

/-- `LAT_TW`'s suggested default (R10, D8). The machine's own `LAT_TW` is `State.latTw`
(DESIGN CHOICE, unsafe, log 2). -/
def Config.latTwDefault : Nat := 100

/-- The characters one Word makes: five 6-bit fields (R20, R101). -/
def Config.fieldsPerWord : Nat := 5

/-- The codec parameter `CODEC` (R9) as plain data. `chars` lists the codes that have a character,
`unassigned` is the byte `toChar` returns for every other code (R108), `codes` lists the bytes that
have a code; every other byte is the sentinel `NONE`. The two tables are independent: R100 assumes
neither that they are inverse to each other nor that either is injective. -/
structure Codec where
  chars      : List (Code6 × Char8)
  unassigned : Char8
  codes      : List (Char8 × Code6)
  space      : Code6
  nl         : Char8
deriving DecidableEq, Repr, Inhabited

/-- The external codec's tables: R9 and N1 give no code point, so this constant has no body and
nothing can be proved of its value. -/
opaque Config.externalCodec : Codec

/-- `NL`'s default, `0x0A` (R9, G1: from general knowledge, a default that may be changed freely;
DESIGN CHOICE, unsafe, log 2). -/
def Config.nlDefault : Char8 := 0x0A

/-- The codec a reset machine holds: the external tables, with `NL` at its default. -/
def Config.codec : Codec := { Config.externalCodec with nl := Config.nlDefault }

end Sys2Proof
end

