-- ==== Sys2Proof/WellFormed.lean ====
section
/-! DEFINITION. Which command words are commands (30_encoding.md R81 to R83, R87), and which values of the
configuration fields make a machine (00_scope.md R8). An `Instr` is
well-formed by its type: a reserved `DEV` is no `Device`. What can be ill-formed is the word cut into
fields, so the checks are on `CmdFields`. -/

namespace Sys2Proof

/-- The format is C (`000`) or P (`001`) (R81). -/
def CmdFields.fmtOk (f : CmdFields) : Bool := decide (f.fmt.toNat ≤ 1)

/-- `DEV` is one of 0 to 6 (R82). -/
def CmdFields.devOk (f : CmdFields) : Bool := decide (f.dev.toNat ≤ 6)

/-- In format P, `POP` is 0 or 1; in format C every `OP` is an operation (R83). -/
def CmdFields.opOk (f : CmdFields) : Bool := f.fmt == 0#3 || decide (f.op.toNat ≤ 1)

/-- The word is a command: none of R87's reserved values. -/
def CmdFields.wellFormed (f : CmdFields) : Bool := f.fmtOk && f.devOk && f.opOk

/-- The sizes of a variant are positive. -/
def Sizes.positive (z : Sizes) : Bool := decide (0 < z.blockSize ∧ 0 < z.numBlocks)

/-- Every latency constant is positive, as `LAT_TW` is (R10) and as 41_device_base.md R124 says of every
product of R122. -/
def Latencies.positive (l : Latencies) : Bool :=
  decide (0 < l.tapeIn ∧ 0 < l.tapeOut ∧ 0 < l.diskIn ∧ 0 < l.diskOut ∧ 0 < l.cardIn ∧ 0 < l.cardOut ∧ 0 < l.print ∧
    0 < l.paperTape)

/-- The values the configuration fields may take (DESIGN CHOICE, safe, log 3): all positive; the pages of Tape
and Disk counted by a `PAGE_W`-bit cursor (D2: "32 bits hold every `numBlocks`"); the CardWriter's `numBlocks`
1 (43_card.md R169, U9). -/
def Params.wellFormed (p : Params) : Bool :=
  p.tape.positive && p.disk.positive && p.cardReader.positive && p.cardWriter.positive && p.linePrinter.positive &&
    p.typeWriter.positive && p.paperTape.positive && p.lat.positive &&
    decide (p.tape.numBlocks < 2 ^ 32 ∧ p.disk.numBlocks < 2 ^ 32 ∧ p.cardWriter.numBlocks = 1)

end Sys2Proof
end

