-- ==== Sys2Proof/Decode.lean ====
section
/-! DEFINITION. The decoder of 30_encoding.md R86, total on every 8-bit command word and refusing the
reserved values of R87 by name, and the encoder written from the same tables (R81 to R83, R86). There
is one length, 8 bits (R89). -/

namespace Sys2Proof

/-- The `DEV` number of a variant (R82). -/
def Device.code : Device → BitVec 3
  | .tape        => 0
  | .disk        => 1
  | .cardReader  => 2
  | .cardWriter  => 3
  | .linePrinter => 4
  | .typeWriter  => 5
  | .paperTape   => 6

/-- The variant a `DEV` field selects (R82); 7 is reserved. -/
def deviceOfCode (c : BitVec 3) : Option Device :=
  match c.toNat with
  | 0 => some .tape
  | 1 => some .disk
  | 2 => some .cardReader
  | 3 => some .cardWriter
  | 4 => some .linePrinter
  | 5 => some .typeWriter
  | 6 => some .paperTape
  | _ => none

/-- The operation an `OP` field selects (R83). -/
def opOfCode (c : BitVec 2) : Op :=
  match c.toNat with
  | 0 => .in_
  | 1 => .out
  | 2 => .ioc
  | _ => .busy

/-- The format C command of a variant and an operation: the two left columns of R86's map. -/
def deviceCommand : Device → Op → Instr
  | .tape,        .in_  => .tapeIn
  | .tape,        .out  => .tapeOut
  | .tape,        .ioc  => .tapeIoc
  | .tape,        .busy => .tapeBusy
  | .disk,        .in_  => .diskIn
  | .disk,        .out  => .diskOut
  | .disk,        .ioc  => .diskIoc
  | .disk,        .busy => .diskBusy
  | .cardReader,  .in_  => .crIn
  | .cardReader,  .out  => .crOut
  | .cardReader,  .ioc  => .crIoc
  | .cardReader,  .busy => .crBusy
  | .cardWriter,  .in_  => .cwIn
  | .cardWriter,  .out  => .cwOut
  | .cardWriter,  .ioc  => .cwIoc
  | .cardWriter,  .busy => .cwBusy
  | .linePrinter, .in_  => .lpIn
  | .linePrinter, .out  => .lpOut
  | .linePrinter, .ioc  => .lpIoc
  | .linePrinter, .busy => .lpBusy
  | .typeWriter,  .in_  => .twIn
  | .typeWriter,  .out  => .twOut
  | .typeWriter,  .ioc  => .twIoc
  | .typeWriter,  .busy => .twBusy
  | .paperTape,   .in_  => .ptIn
  | .paperTape,   .out  => .ptOut
  | .paperTape,   .ioc  => .ptIoc
  | .paperTape,   .busy => .ptBusy

/-- Cuts a command word into `CMD[7:5]`, `CMD[4:2]`, `CMD[1:0]` (R81). -/
def cmdFields (cmd : BitVec 8) : CmdFields :=
  { fmt := cmd.extractLsb' 5 3, dev := cmd.extractLsb' 2 3, op := cmd.extractLsb' 0 2 }

/-- The command the three fields stand for, or the reason they are reserved (R86's decoder, R87). -/
def decodeFields (f : CmdFields) : Except Reserved Instr :=
  match f.fmt.toNat with
  | 0 =>
    match deviceOfCode f.dev with
    | some d => .ok (deviceCommand d (opOfCode f.op))
    | none => .error .device
  | 1 =>
    match deviceOfCode f.dev with
    | some d =>
      match f.op.toNat with
      | 0 => .ok (.getPage d)
      | 1 => .ok (.setPage d)
      | _ => .error .regOp
    | none => .error .device
  | _ => .error .format

/-- The decoder: total on all 256 command words (R86, R87). -/
def decode (cmd : BitVec 8) : Except Reserved Instr := decodeFields (cmdFields cmd)

/-- The fields of a format C command (R81: `CMD[7:5]` = 000). -/
def formatC (d : Device) (op : BitVec 2) : CmdFields := { fmt := 0, dev := d.code, op := op }

/-- The fields of a format P command (R81: `CMD[7:5]` = 001). -/
def formatP (d : Device) (pop : BitVec 2) : CmdFields := { fmt := 1, dev := d.code, op := pop }

/-- The three fields of each command (R81 to R83, R86). -/
def Instr.fields : Instr → CmdFields
  | .tapeIn    => formatC .tape 0
  | .tapeOut   => formatC .tape 1
  | .tapeIoc   => formatC .tape 2
  | .tapeBusy  => formatC .tape 3
  | .diskIn    => formatC .disk 0
  | .diskOut   => formatC .disk 1
  | .diskIoc   => formatC .disk 2
  | .diskBusy  => formatC .disk 3
  | .crIn      => formatC .cardReader 0
  | .crOut     => formatC .cardReader 1
  | .crIoc     => formatC .cardReader 2
  | .crBusy    => formatC .cardReader 3
  | .cwIn      => formatC .cardWriter 0
  | .cwOut     => formatC .cardWriter 1
  | .cwIoc     => formatC .cardWriter 2
  | .cwBusy    => formatC .cardWriter 3
  | .lpIn      => formatC .linePrinter 0
  | .lpOut     => formatC .linePrinter 1
  | .lpIoc     => formatC .linePrinter 2
  | .lpBusy    => formatC .linePrinter 3
  | .twIn      => formatC .typeWriter 0
  | .twOut     => formatC .typeWriter 1
  | .twIoc     => formatC .typeWriter 2
  | .twBusy    => formatC .typeWriter 3
  | .ptIn      => formatC .paperTape 0
  | .ptOut     => formatC .paperTape 1
  | .ptIoc     => formatC .paperTape 2
  | .ptBusy    => formatC .paperTape 3
  | .getPage d => formatP d 0
  | .setPage d => formatP d 1

/-- Puts three fields together as a command word, `fmt` the most significant (R81). -/
def packFields (f : CmdFields) : BitVec 8 := f.fmt ++ f.dev ++ f.op

/-- The command word of a command (R86). -/
def encode (i : Instr) : BitVec 8 := packFields i.fields

/-- The instruction the decoder reads from a table word of `nbits` bits. A command is one 8-bit word,
so only bits 7:0 of the `nbits` given are read; the bits above `nbits` are 0. -/
def decodeTableWord (nbits w : Nat) : Option Instr :=
  match decode (BitVec.ofNat 8 (w % 2 ^ nbits)) with
  | .ok i => some i
  | .error _ => none

end Sys2Proof
end

