-- ==== Sys2Proof/Machine/Codec.lean ====
section
/-! DEFINITION. The codec as the block sees it and the word transcoding primitives (40_codec.md), with
the bus packing of a Word (10_state.md R21). -/

namespace Sys2Proof.Machine

/-- A Word on a bus (R21): bit 30 the sign, bits 29:0 `data`. -/
def wordToBus (w : Word) : BitVec 31 :=
  (match w.sign with | .pos => 0#1 | .neg => 1#1) ++ w.data

/-- The Word a 31-bit bus value stands for (R21). -/
def wordOfBus (b : BitVec 31) : Word :=
  { sign := if b.extractLsb' 30 1 = 0#1 then .pos else .neg, data := b.extractLsb' 0 30 }

/-- `toChar` (R9, R100): total on all 64 codes; an unassigned code gives the table's own byte (R108). -/
def toChar (c : Codec) (v : Code6) : Char8 := (c.chars.lookup v).getD c.unassigned

/-- `toVal` (R9, R100): a code, or `none` for the sentinel `NONE` (D9). -/
def toVal (c : Codec) (b : Char8) : Option Code6 := c.codes.lookup b

/-- `field(w, k)` (R101): bits `29 - 6k` to `24 - 6k` of `data`, field 0 the most significant. -/
def field (w : Word) (k : Fin 5) : Code6 := w.data.extractLsb' (24 - 6 * k.val) 6

/-- `pack(f0, f1, f2, f3, f4)` (R102): `f0` the most significant field, sign `POS` (R107, D11; log 11). -/
def pack (f0 f1 f2 f3 f4 : Code6) : Word :=
  { sign := .pos, data := f0 ++ f1 ++ f2 ++ f3 ++ f4 }

/-- `EncodeMS(w)` (R103): the five characters, field 0 first. The sign is not looked at (R105). -/
def encodeMS (c : Codec) (w : Word) : List Char8 :=
  [toChar c (field w 0), toChar c (field w 1), toChar c (field w 2), toChar c (field w 3), toChar c (field w 4)]

/-- `EncodeLS(w)` (R104): the five characters, field 4 first. The sign is not looked at (R105). -/
def encodeLS (c : Codec) (w : Word) : List Char8 :=
  [toChar c (field w 4), toChar c (field w 3), toChar c (field w 2), toChar c (field w 1), toChar c (field w 0)]

/-- `DecodeBlank(c)` (R106): the sentinel becomes `SPACE`. -/
def decodeBlank (c : Codec) (b : Char8) : Code6 := (toVal c b).getD c.space

end Sys2Proof.Machine
end

