-- ==== Sys2Proof/Machine/State.lean ====
section
/-! DEFINITION. The state of the machine as plain data: the block's registers and mirrors (10_state.md
R22 to R28), the environment state it acts on (R38), the caller buffer (20_memory.md R52), the ports and
the response (30_encoding.md R84, R85), a `TW.IN` held on an empty source (R59), and the list of what the
channel and the host do next (41_device_base.md R120, 70_reset_and_hazards.md R279). -/

namespace Sys2Proof.Machine

/-- The mutable registers of one device (R22): `CURPAGE` (R23) and `BUSYUNTIL` (R24). `BLOCKSIZE` and
`NUMBLOCKS` are constants of the variant (`State.params`, R25, R26). -/
structure DevRegs where
  curPage   : PageNo
  busyUntil : Time
deriving DecidableEq, Repr, Inhabited

/-- The registers of the seven instances, one of each variant (R12). -/
structure RegFile where
  tape        : DevRegs
  disk        : DevRegs
  cardReader  : DevRegs
  cardWriter  : DevRegs
  linePrinter : DevRegs
  typeWriter  : DevRegs
  paperTape   : DevRegs
deriving DecidableEq, Repr, Inhabited

/-- A memory of Words: (index, Word) pairs, indices strictly rising, no entry equal to `ZERO`, which is
what an unlisted index holds. Mirrors, backing stores and the caller buffer are of this kind (R50; DESIGN
CHOICE, safe, log 9). -/
abbrev Memory := List (Nat × Word)

/-- A record store: the partial map from page number to byte list of R56, page numbers strictly rising. -/
abbrev RecMap := List (Nat × List Char8)

/-- The record stores of the two card devices (R56): each its own map, or one map when the host has put
both on the same directory. -/
inductive CardStores where
  | separate (reader writer : RecMap)
  | shared (recs : RecMap)
deriving DecidableEq, Repr, Inhabited

/-- The causes of R224's table. -/
inductive FaultCause where
  | illegalCommand
  | pageRange
  | cursorOverflow
  | timeOverflow
deriving DecidableEq, Repr, Inhabited

/-- The response of a command (R85): `DONE` with a flag and, for `GETPAGE` only, a value; or `FAULT`
with its cause. -/
inductive Response where
  | done (flag : Bool) (value : Option PageNo)
  | fault (cause : FaultCause)
deriving DecidableEq, Repr, Inhabited

/-- A command as the channel presents it: the command word and the operand ports, sampled once (R81,
R84). The port `BUF` is `State.buf`. -/
structure Command where
  cmd      : BitVec 8
  mode     : BitVec 32
  page     : PageNo
  now      : Time
  readable : Bool
  writable : Bool
deriving DecidableEq, Repr, Inhabited

/-- The directory a card device is constructed on alone (R262, R56): one the other card device is not on, with
the records it holds, or the other card device's. -/
inductive CardDirectory where
  | own (cards : RecMap)
  | others
deriving DecidableEq, Repr, Inhabited

/-- What the host environment can do (R279's table) and the resets (R260 to R265). -/
inductive HostAction where
  /-- Append bytes at the end of the TypeWriter source. -/
  | appendSource (bytes : List Char8)
  /-- Change or delete the Tape's backing store; `none` is `ABSENT`. -/
  | setTapeStore (cells : Option Memory)
  /-- Change or delete the Disk's backing store; `none` is `ABSENT`. -/
  | setDiskStore (cells : Option Memory)
  /-- Any change to the records the CardReader's directory holds. -/
  | setReaderCards (cards : RecMap)
  /-- Any change to the records the CardWriter's directory holds. -/
  | setWriterCards (cards : RecMap)
  /-- Change or delete the paper-tape file; `none` is `ABSENT`. -/
  | setPaperFile (file : Option (List Char8))
  /-- Construct both card devices anew on the given directories (R262, R267 (2)). -/
  | attachCards (stores : CardStores)
  /-- Construct the CardReader alone on a directory (R260: each instance is reset independently; R262). -/
  | constructReader (dir : CardDirectory)
  /-- Construct the CardWriter alone on a directory (R260, R262). -/
  | constructWriter (dir : CardDirectory)
  /-- Reset one device instance (R260 to R264); `readable` is the environment's answer at that moment. -/
  | resetDevice (dev : Device) (readable : Bool)
  /-- Reset the block: every device and the `FAULT` latch (R260, R265). -/
  | resetBlock (tapeReadable diskReadable : Bool)
deriving DecidableEq, Repr, Inhabited

/-- One thing the outside does: the channel presents a command or puts Words in its caller buffer
(R52: "whatever the channel put there"), or the host acts. -/
inductive Input where
  | command (c : Command)
  | supplyBuffer (cells : Memory)
  | host (a : HostAction)
deriving DecidableEq, Repr, Inhabited

/-- The state. -/
structure State where
  /-- The codec parameter (R9); nothing changes it. -/
  codec     : Codec
  /-- `BLOCKSIZE` and `NUMBLOCKS` of the seven devices (R25, R26) and the latency constants, the configuration
  fields of R8; nothing changes them. -/
  params    : Params
  /-- The parameter `LAT_TW` (R10), a positive integer; nothing changes it. -/
  latTw     : Nat
  /-- `CURPAGE` and `BUSYUNTIL` of the seven devices (R23, R24). -/
  regs      : RegFile
  /-- The `FAULT` latch (R28). -/
  fault     : BitVec 8
  /-- The Tape's mirror `data`, 200000 Words (R27, R51). -/
  tapeData  : Memory
  /-- The Disk's mirror `data`, 400000 Words (R27, R51). -/
  diskData  : Memory
  /-- The Tape's backing store, or `ABSENT` (R55). -/
  tapeStore : Option Memory
  /-- The Disk's backing store, or `ABSENT` (R55). -/
  diskStore : Option Memory
  /-- The card record stores (R56). -/
  cards     : CardStores
  /-- The paper-tape file, or `ABSENT` (R57). -/
  paperFile : Option (List Char8)
  /-- The LinePrinter's sink, first byte first (R58). -/
  sink      : List Char8
  /-- What the TypeWriter's source still holds, next byte first (R59, R35). -/
  source    : List Char8
  /-- The caller buffer, the port `BUF` (R52, R84), as long as the longest one. -/
  buf       : Memory
  /-- The command last presented and its operand ports (R84). -/
  port      : Command
  /-- The response of the command last presented; `none` before the first and while it is held (R85). -/
  response  : Option Response
  /-- A `TW.IN` held on an empty source (R59): the codes it has read so far (DEDUCED, unsafe, log 7). -/
  held      : Option (List Code6)
  /-- What the channel and the host do next, in order (R120, R279; DESIGN CHOICE, safe, log 8). -/
  inputs    : List Input
deriving DecidableEq, Repr, Inhabited

/-- Why a run stops with a fault: never. The spec's own faults (R224) are outcomes of a command after
which the block goes on (R228), so they are next states (DEDUCED, safe, log 1), and there is no other fault
in it. -/
inductive Fault where
deriving DecidableEq, Repr

/-- Why a step is refused. -/
inductive Refusal where
  /-- Raised by an arm of `exec` whose instruction has no meaning yet; safe. No arm is left so. -/
  | notModelled (mnemonic : String)
  /-- Raised by `hostAct`, by no instruction: the host presents a backing store with a Word beyond
  `blockSize * numBlocks`; R55, D21 and U12 put it outside the model. Safe. -/
  | storeLength
  /-- Raised by `fetch`, by no instruction: the channel supplies a Word beyond the longest caller
  buffer; R52 and U6 put it outside the contract. Safe. -/
  | bufferLength
deriving DecidableEq, Repr

/-- What one step has to do: run a decoded command on the state in which it was presented, or answer
an outcome that no decoded command has part in. -/
inductive Fetched where
  | run (i : Instr) (s : State)
  | other (o : Host.Outcome State Fault Refusal)

/-- Both registers of a device after reset (R40, R261 to R264). -/
def DevRegs.reset : DevRegs := { curPage := 0, busyUntil := 0 }

/-- The registers of all seven devices after reset. -/
def RegFile.reset : RegFile :=
  { tape := DevRegs.reset, disk := DevRegs.reset, cardReader := DevRegs.reset, cardWriter := DevRegs.reset,
    linePrinter := DevRegs.reset, typeWriter := DevRegs.reset, paperTape := DevRegs.reset }

/-- The operand ports before any command has been presented: no rule gives a value
(DESIGN CHOICE, unsafe, log 6). -/
def Command.idle : Command :=
  { cmd := 0, mode := 0, page := 0, now := 0, readable := true, writable := true }

/-- The machine right after reset (R40, R260 to R265) in an environment whose stores and file are
`ABSENT`, whose record stores, sink and source are empty (DESIGN CHOICE, unsafe, logs 4, 5), and in which
nothing is presented yet (logs 6, 8). -/
def State.reset : State :=
  { codec := Config.codec
    params := Config.params
    latTw := Config.latTwDefault
    regs := RegFile.reset
    fault := 0
    tapeData := []
    diskData := []
    tapeStore := none
    diskStore := none
    cards := .separate [] []
    paperFile := none
    sink := []
    source := []
    buf := []
    port := Command.idle
    response := none
    held := none
    inputs := [] }

end Sys2Proof.Machine
end

