-- ==== Sys2Proof/Machine/Flags.lean ====
section
/-! DEFINITION. The three flags (10_state.md R33), the `FAULT` latch's fields (R28, 60_exceptions.md
R224) and the response on the wire (30_encoding.md R85). None of the flags is stored. -/

namespace Sys2Proof.Machine

/-- The busy flag (R33 (2), R124): strict unsigned `now < busyUntil`. -/
def busyFlag (now busyUntil : Time) : Bool := decide (now.toNat < busyUntil.toNat)

/-- The fault flag (R33 (3)): `FAULT != 0`. -/
def faultFlag (fault : BitVec 8) : Bool := fault != 0#8

/-- The cause codes of R224's table; 0 is none and 5 to 7 are not used. -/
def causeCode : FaultCause → BitVec 3
  | .illegalCommand => 1
  | .pageRange      => 2
  | .cursorOverflow => 3
  | .timeOverflow   => 4

/-- A `FAULT` value (R28): cause in bits 2:0, `DEV` in bits 5:3, bits 7:6 zero. -/
def faultValue (dev : BitVec 3) (cause : FaultCause) : BitVec 8 := 0#2 ++ dev ++ causeCode cause

/-- The latch (R28, R224): set by the first fault, never overwritten. -/
def latchFault (fault : BitVec 8) (dev : BitVec 3) (cause : FaultCause) : BitVec 8 :=
  if fault = 0#8 then faultValue dev cause else fault

/-- `FAULT[2:0]` (R28). -/
def faultCauseField (fault : BitVec 8) : BitVec 3 := fault.extractLsb' 0 3

/-- `FAULT[5:3]` (R28). -/
def faultDevField (fault : BitVec 8) : BitVec 3 := fault.extractLsb' 3 3

/-- `FAULT[7:6]`, which read 0 (R28). -/
def faultTopBits (fault : BitVec 8) : BitVec 2 := fault.extractLsb' 6 2

/-- The result flag of a response (R33 (1)); a fault has none. -/
def resultFlag : Response → Option Bool
  | .done flag _ => some flag
  | .fault _     => none

/-- The two wires `kind,flag` (R85): 00 done/false, 01 done/true, 10 fault, 11 never produced. -/
def responseWire : Response → BitVec 2
  | .done false _ => 0b00
  | .done true _  => 0b01
  | .fault _      => 0b10

end Sys2Proof.Machine
end

