-- ==== Sys2Proof/Machine/Ops.lean ====
section
/-! DEFINITION. The named operations over registers, memories and backing resources (the primitives of
00_scope.md R14), taking a fault as one shared operation (60_exceptions.md R224), and the shared course
of a transfer (41_device_base.md R128). -/

namespace Sys2Proof.Machine

/-! ### Registers -/

/-- The registers of a device: the read half of `x[r]` (R14). -/
def RegFile.get (r : RegFile) : Device → DevRegs
  | .tape        => r.tape
  | .disk        => r.disk
  | .cardReader  => r.cardReader
  | .cardWriter  => r.cardWriter
  | .linePrinter => r.linePrinter
  | .typeWriter  => r.typeWriter
  | .paperTape   => r.paperTape

/-- Replaces the registers of a device: the write half of `x[r]` (R14). -/
def RegFile.set (r : RegFile) (d : Device) (v : DevRegs) : RegFile :=
  match d with
  | .tape        => { r with tape := v }
  | .disk        => { r with disk := v }
  | .cardReader  => { r with cardReader := v }
  | .cardWriter  => { r with cardWriter := v }
  | .linePrinter => { r with linePrinter := v }
  | .typeWriter  => { r with typeWriter := v }
  | .paperTape   => { r with paperTape := v }

/-- `CURPAGE` of a device (R23). -/
def State.curPage (s : State) (d : Device) : PageNo := (s.regs.get d).curPage

/-- `BUSYUNTIL` of a device (R24). -/
def State.busyUntil (s : State) (d : Device) : Time := (s.regs.get d).busyUntil

/-- `CURPAGE <- p` (R23). -/
def State.setCurPage (s : State) (d : Device) (p : PageNo) : State :=
  { s with regs := s.regs.set d { s.regs.get d with curPage := p } }

/-- `BUSYUNTIL <- t`, a plain assignment (R24, R123). -/
def State.setBusyUntil (s : State) (d : Device) (t : Time) : State :=
  { s with regs := s.regs.set d { s.regs.get d with busyUntil := t } }

/-- The value of the register numbered `r` of device `d` (R14, R34): 0 `CURPAGE`, 1 `BUSYUNTIL`,
2 `BLOCKSIZE`, 3 `NUMBLOCKS`, 4 the block's `FAULT`. No command but `GETPAGE` reads one (R34). -/
def State.readReg (s : State) (d : Device) (r : Fin 5) : Nat :=
  match r.val with
  | 0 => (s.curPage d).toNat
  | 1 => (s.busyUntil d).toNat
  | 2 => s.params.blockSize d
  | 3 => s.params.numBlocks d
  | _ => s.fault.toNat

/-! ### Memories of Words -/

/-- The canonical form of a memory of `size` Words: indices strictly rising and below `size`, no
entry `ZERO`. -/
abbrev Memory.wf (size : Nat) (m : Memory) : Prop :=
  m.Pairwise (fun x y => x.1 < y.1) ∧ ∀ c ∈ m, c.1 < size ∧ c.2 ≠ Word.zero

/-- The Word at index `a`; an unlisted index holds `ZERO` (R40, R261). -/
def Memory.read (m : Memory) (a : Nat) : Word :=
  match m with
  | [] => Word.zero
  | (b, w) :: rest => if a = b then w else Memory.read rest a

/-- Stores one Word, keeping the canonical form: storing `ZERO` removes the entry. -/
def Memory.write (m : Memory) (a : Nat) (w : Word) : Memory :=
  match m with
  | [] => if w = Word.zero then [] else [(a, w)]
  | (b, x) :: rest =>
    if a < b then (if w = Word.zero then (b, x) :: rest else (a, w) :: (b, x) :: rest)
    else if a = b then (if w = Word.zero then rest else (a, w) :: rest)
    else (b, x) :: Memory.write rest a w

/-- `MemRead(a, n)` (R14): the `n` Words from index `a`. -/
def memRead (m : Memory) (a n : Nat) : List Word := (List.range n).map fun i => m.read (a + i)

/-- `MemWrite(a, n, v)` (R14): stores the list `v` from index `a` on. -/
def memWrite (m : Memory) (a : Nat) (v : List Word) : Memory :=
  match v with
  | [] => m
  | w :: rest => memWrite (m.write a w) (a + 1) rest

/-- The canonical memory that holds the listed cells, the first of two for one index counting. -/
def memOfCells (cells : Memory) : Memory := cells.foldr (fun c m => m.write c.1 c.2) []

/-! ### Tape and Disk -/

/-- The two paged media (42_tape_disk.md). -/
inductive Medium where
  | tape
  | disk
deriving DecidableEq, Repr, Inhabited

/-- The variant a medium is. -/
def Medium.device : Medium → Device
  | .tape => .tape
  | .disk => .disk

/-- The number of Words of a mirror and of a backing store: `blockSize * numBlocks` (R27, R55). -/
def mirrorWords (p : Params) (m : Medium) : Nat := p.blockSize m.device * p.numBlocks m.device

/-- The mirror `data` of a medium (R27). -/
def State.mirror (s : State) : Medium → Memory
  | .tape => s.tapeData
  | .disk => s.diskData

/-- Replaces the mirror of a medium. -/
def State.setMirror (s : State) (m : Medium) (data : Memory) : State :=
  match m with
  | .tape => { s with tapeData := data }
  | .disk => { s with diskData := data }

/-- The backing store of a medium (R55). -/
def State.store (s : State) : Medium → Option Memory
  | .tape => s.tapeStore
  | .disk => s.diskStore

/-- Replaces the backing store of a medium. -/
def State.setStore (s : State) (m : Medium) (st : Option Memory) : State :=
  match m with
  | .tape => { s with tapeStore := st }
  | .disk => { s with diskStore := st }

/-- `StoreLoad()` under the environment input `readable` (R14, R37, R222): `none` is `ABSENT`. -/
def State.storeLoad (s : State) (m : Medium) (readable : Bool) : Option Memory :=
  if readable then s.store m else none

/-- `StoreSave(data)`: the whole store becomes the whole mirror (R55), or nothing happens when the
store is not writable (R222). -/
def State.storeSave (s : State) (m : Medium) (writable : Bool) : State :=
  if writable then s.setStore m (some (s.mirror m)) else s

/-- The mirror index of the block at `curPage` (R51). -/
def State.pageBase (s : State) (m : Medium) : Nat :=
  (s.curPage m.device).toNat * s.params.blockSize m.device

/-! ### Card records, paper-tape file, sink -/

/-- The record numbered `p`, or `none` for `ABSENT`. -/
def RecMap.find (m : RecMap) (p : Nat) : Option (List Char8) :=
  match m with
  | [] => none
  | (q, bs) :: rest => if p = q then some bs else RecMap.find rest p

/-- Sets the record numbered `p`, keeping the page numbers strictly rising. -/
def RecMap.put (m : RecMap) (p : Nat) (bs : List Char8) : RecMap :=
  match m with
  | [] => [(p, bs)]
  | (q, x) :: rest =>
    if p < q then (p, bs) :: (q, x) :: rest
    else if p = q then (p, bs) :: rest
    else (q, x) :: RecMap.put rest p bs

/-- The canonical form of a record store: page numbers strictly rising. -/
abbrev RecMap.wf (m : RecMap) : Prop := m.Pairwise fun x y => x.1 < y.1

/-- The canonical record store that holds the listed records, the first of two for one page counting. -/
def recMapOfList (cards : RecMap) : RecMap := cards.foldr (fun c m => m.put c.1 c.2) []

/-- The CardReader's record store (R56). -/
def CardStores.reader : CardStores → RecMap
  | .separate r _ => r
  | .shared m     => m

/-- The CardWriter's record store (R56). -/
def CardStores.writer : CardStores → RecMap
  | .separate _ w => w
  | .shared m     => m

/-- Replaces the CardReader's record store; it is the one map when both share a directory. -/
def CardStores.setReader (c : CardStores) (m : RecMap) : CardStores :=
  match c with
  | .separate _ w => .separate m w
  | .shared _     => .shared m

/-- Replaces the CardWriter's record store; it is the one map when both share a directory. -/
def CardStores.setWriter (c : CardStores) (m : RecMap) : CardStores :=
  match c with
  | .separate r _ => .separate r m
  | .shared _     => .shared m

/-- `RecRead(p)` of the CardReader under `readable` (R14, R37, R222). -/
def State.recRead (s : State) (p : PageNo) (readable : Bool) : Option (List Char8) :=
  if readable then s.cards.reader.find p.toNat else none

/-- `RecWrite(p, bs)` of the CardWriter, skipped silently when not `writable` (R14, R37, R222). -/
def State.recWrite (s : State) (p : PageNo) (bs : List Char8) (writable : Bool) : State :=
  if writable then { s with cards := s.cards.setWriter (s.cards.writer.put p.toNat bs) } else s

/-- `FileWrite(bs)`: replaces the paper-tape file (R57), skipped silently when not `writable` (R222). -/
def State.fileWrite (s : State) (bs : List Char8) (writable : Bool) : State :=
  if writable then { s with paperFile := some bs } else s

/-- `SinkPut` of each byte in order (R58). -/
def State.sinkPut (s : State) (bs : List Char8) : State := { s with sink := s.sink ++ bs }

/-! ### Responses and faults -/

/-- Gives the command's response (R85). -/
def State.respond (s : State) (r : Response) : State := { s with response := some r }

/-- Taking a fault (R224): the response is the cause, the first fault is latched with `CMD[4:2]`, and
nothing else changes. The block goes on with the next command (R228); there is no handler, nothing is
saved and there is no return from a fault (R231, R232), so no operation of that kind stands here. -/
def raiseFault (dev : BitVec 3) (cause : FaultCause) (s : State) : Host.Outcome State Fault Refusal :=
  .next { s with fault := latchFault s.fault dev cause, response := some (.fault cause) }

/-- The base behaviour of `in`, `out` and `ioc` (R121, R125): `return false` and nothing else. -/
def unsupported (s : State) : Host.Outcome State Fault Refusal := .next (s.respond (.done false none))

/-- The base `busy` (R124): `return (now < busyUntil)` and nothing else. -/
def busyTest (d : Device) (s : State) : Host.Outcome State Fault Refusal :=
  .next (s.respond (.done (busyFlag s.port.now (s.busyUntil d)) none))

/-! ### The course of a transfer -/

/-- What R128 needs to know of a supported `in` or `out`: the device, whether its cursor is checked
against `numBlocks` (R147), whether it advances its cursor, and `blockSize * constant` (R122). -/
structure Transfer where
  dev       : Device
  pageCheck : Bool
  advances  : Bool
  product   : Nat
deriving DecidableEq, Repr, Inhabited

/-- The preconditions that fault, in the order of R128 (3) and R229: `PageRange` (R147),
`CursorOverflow` (R226), `TimeOverflow` (R227). -/
def Transfer.fault (t : Transfer) (s : State) : Option FaultCause :=
  if t.pageCheck = true ∧ s.params.numBlocks t.dev ≤ (s.curPage t.dev).toNat then some .pageRange
  else if t.advances = true ∧ 2 ^ 32 ≤ (s.curPage t.dev).toNat + 1 then some .cursorOverflow
  else if 2 ^ 64 ≤ s.port.now.toNat + t.product then some .timeOverflow
  else none

/-- `curPage <- curPage + 1` for a command that advances its cursor (R128 (6)). -/
def Transfer.advance (t : Transfer) (s : State) : State :=
  if t.advances then s.setCurPage t.dev (BitVec.ofNat 32 ((s.curPage t.dev).toNat + 1)) else s

/-- `busyUntil <- now + blockSize * constant` (R122, R128 (7)). -/
def Transfer.timing (t : Transfer) (s : State) : State :=
  s.setBusyUntil t.dev (BitVec.ofNat 64 (s.port.now.toNat + t.product))

/-- Steps (6) to (8) of R128. -/
def Transfer.complete (t : Transfer) (s : State) : State :=
  (t.timing (t.advance s)).respond (.done true none)

/-- A supported transfer (R128): a precondition that fails is the fault; otherwise `body` moves the
data and writes back, and the command completes. -/
def Transfer.run (t : Transfer) (body : State → State) (s : State) : Host.Outcome State Fault Refusal :=
  match t.fault s with
  | some cause => raiseFault t.dev.code cause s
  | none => .next (t.complete (body s))

end Sys2Proof.Machine
end

