-- ==== Sys2Proof/Machine/Operands.lean ====
section
/-! DEFINITION. The operand ports (30_encoding.md R84). No operand is assembled from bits of `CMD`; the
ports are those of the command last presented, `State.port`, and the caller buffer, `State.buf`. -/

namespace Sys2Proof.Machine

/-- The length of the caller buffer of a device (R52): `blockSize` Words, for the PaperTape
`numBlocks * blockSize`. -/
def bufLen (p : Params) : Device → Nat
  | .paperTape => p.paperTape.numBlocks * p.paperTape.blockSize
  | d          => p.blockSize d

/-- The length of the longest caller buffer: the Words the port `BUF` holds. -/
def bufWords (p : Params) : Nat :=
  [Device.tape, .disk, .cardReader, .cardWriter, .linePrinter, .typeWriter, .paperTape].foldr
    (fun d n => max (bufLen p d) n) 0

/-- `buf[i]` (R14). -/
def State.bufWord (s : State) (i : Nat) : Word := s.buf.read i

/-- The first `n` Words of the port `BUF`, as a list. -/
def State.bufRead (s : State) (n : Nat) : List Word := memRead s.buf 0 n

/-- `buf[0] <- v[0], buf[1] <- v[1], ...`; the Words beyond the list keep what the channel left (R52). -/
def State.bufWrite (s : State) (v : List Word) : State := { s with buf := memWrite s.buf 0 v }

/-- The port `NOW`: the one clock value sampled for the command (R29). -/
def State.now (s : State) : Time := s.port.now

/-- The port `PAGE` of `SETPAGE`. -/
def State.pagePort (s : State) : PageNo := s.port.page

/-- The port `MODE` of `ioc`; no rule reads it (R84, R125). -/
def State.modePort (s : State) : BitVec 32 := s.port.mode

/-- The environment input `readable` (R37). -/
def State.readable (s : State) : Bool := s.port.readable

/-- The environment input `writable` (R37). -/
def State.writable (s : State) : Bool := s.port.writable

end Sys2Proof.Machine
end

