-- ==== Sys2Proof/Machine/Console.lean ====
section
/-! DEFINITION. LinePrinter and TypeWriter (44_console.md): the print line of R184, the typewriter's
scan with its escape (R186) and its wait on an empty source (20_memory.md R59), and the eight commands. -/

namespace Sys2Proof.Machine

/-- The 121 bytes one `LP.OUT` appends (R184): five characters a Word, then one line terminator. -/
def printLine (p : Params) (c : Codec) (buf : Memory) : List Char8 :=
  ((List.range p.linePrinter.blockSize).flatMap fun j => encodeMS c (buf.read j)) ++ [c.nl]

/-- The data movement of `LP.OUT` (R181). -/
def printBuf (s : State) : State := s.sinkPut (printLine s.params s.codec s.buf)

/-- The rule of `LP.OUT`: `24 * 100` (R122). -/
def printRule (p : Params) : Transfer :=
  { dev := .linePrinter, pageCheck := false, advances := false, product := p.linePrinter.blockSize * p.lat.print }

/-- `LP.IN buf` (R180): unsupported. -/
def execLpIn (s : State) : Host.Outcome State Fault Refusal := unsupported s

/-- `LP.OUT buf` (R181): the line to the sink; the cursor is neither read nor moved. -/
def execLpOut (s : State) : Host.Outcome State Fault Refusal :=
  (printRule s.params).run printBuf s

/-- `LP.IOC mode` (R182): unsupported. -/
def execLpIoc (s : State) : Host.Outcome State Fault Refusal := unsupported s

/-- `LP.BUSY` (R183). -/
def execLpBusy (s : State) : Host.Outcome State Fault Refusal := busyTest .linePrinter s

/-- How R186's loop ends: all 70 codes read, an escape after some, or an empty source after some; with
what the source still holds. -/
inductive TwScan where
  | full (codes : List Code6) (rest : List Char8)
  | escape (codes : List Code6) (rest : List Char8)
  | wait (codes : List Code6)
deriving DecidableEq, Repr

/-- The characters of a full transfer: 14 Words of 5 (R185). -/
def twChars (p : Params) : Nat := p.typeWriter.blockSize * Config.fieldsPerWord

/-- R186's loop from the codes read so far: one byte at a time, until `n` = 70 codes are read or `toVal` gives
`NONE`; an empty source makes it wait (R59). -/
def twScan (n : Nat) (c : Codec) (codes : List Code6) (src : List Char8) : TwScan :=
  match src with
  | [] => if n ≤ codes.length then .full codes [] else .wait codes
  | b :: rest =>
    if n ≤ codes.length then .full codes (b :: rest)
    else
      match toVal c b with
      | none   => .escape codes rest
      | some v => twScan n c (codes ++ [v]) rest

/-- Word `j` assembled from `ZERO` (R107, R186): field `k` is code `5j + k`, 0 where none was placed. -/
def twWord (codes : List Code6) (j : Nat) : Word :=
  pack (codes.getD (5 * j) 0) (codes.getD (5 * j + 1) 0) (codes.getD (5 * j + 2) 0) (codes.getD (5 * j + 3) 0)
    (codes.getD (5 * j + 4) 0)

/-- The first `n` Words made of the codes. -/
def twWords (codes : List Code6) (n : Nat) : List Word := (List.range n).map (twWord codes)

/-- The rule of `TW.IN`: `14 * LAT_TW` (R122, R10). -/
def typeRule (p : Params) (latTw : Nat) : Transfer :=
  { dev := .typeWriter, pageCheck := false, advances := false, product := p.typeWriter.blockSize * latTw }

/-- `TW.IN` on both exits of R186: the 14 Words are written, the source keeps the rest, the command
completes. -/
def twFinish (codes : List Code6) (rest : List Char8) (s : State) : State :=
  (typeRule s.params s.latTw).complete
    (({ s with source := rest, held := none }).bufWrite (twWords codes s.params.typeWriter.blockSize))

/-- `TW.IN` at an empty source (R59): the bytes read are consumed, the Words completed are written, the
command is held and has no response yet (DEDUCED, unsafe, log 7). -/
def twHold (codes : List Code6) (s : State) : State :=
  ({ s with source := [], held := some codes, response := none }).bufWrite
    (twWords codes (codes.length / Config.fieldsPerWord))

/-- R186's loop from the codes read so far to its end or to its wait. On an escape the current field is
`SPACE` and all after it is 0 (R186, D12). -/
def twAdvance (codes : List Code6) (s : State) : State :=
  match twScan (twChars s.params) s.codec codes s.source with
  | .full cs rest   => twFinish cs rest s
  | .escape cs rest => twFinish (cs ++ [s.codec.space]) rest s
  | .wait cs        => twHold cs s

/-- `TW.IN buf` (R186): `TimeOverflow` before any byte is consumed, then the loop from its start. -/
def execTwIn (s : State) : Host.Outcome State Fault Refusal :=
  match (typeRule s.params s.latTw).fault s with
  | some cause => raiseFault Device.typeWriter.code cause s
  | none => .next (twAdvance [] s)

/-- `TW.OUT buf` (R187): unsupported. -/
def execTwOut (s : State) : Host.Outcome State Fault Refusal := unsupported s

/-- `TW.IOC mode` (R188): unsupported. -/
def execTwIoc (s : State) : Host.Outcome State Fault Refusal := unsupported s

/-- `TW.BUSY` (R189). -/
def execTwBusy (s : State) : Host.Outcome State Fault Refusal := busyTest .typeWriter s

end Sys2Proof.Machine
end

