-- ==== Sys2Proof/Machine/Environment.lean ====
section
/-! DEFINITION. What the host environment does to the block between commands (70_reset_and_hazards.md
R279) and the resets (R260 to R265). -/

namespace Sys2Proof.Machine

/-- Reset of one device instance (R260 to R264): both registers 0; for Tape and Disk the mirror is
loaded from the store, all `ZERO` when the store is absent or unreadable (R261). The old mirror is
discarded without a write-back (R266); no store, record, file, sink or source changes (R40), and the
block's `FAULT` stays (DEDUCED, safe, log 13). A LinePrinter or TypeWriter constructed anew is bound to the sink
or source it had (R263, R267 (2); DESIGN CHOICE, unsafe where the host binds it to another, log 19). -/
def resetDevice (d : Device) (readable : Bool) (s : State) : State :=
  let r : State := { s with regs := s.regs.set d DevRegs.reset }
  match d with
  | .tape => { r with tapeData := (r.storeLoad .tape readable).getD [] }
  | .disk => { r with diskData := (r.storeLoad .disk readable).getD [] }
  | _     => r

/-- Reset of the block (R260, R265): every device, and `FAULT <- 0`. -/
def resetBlock (tapeReadable diskReadable : Bool) (s : State) : State :=
  { s with
    regs := RegFile.reset
    tapeData := (s.storeLoad .tape tapeReadable).getD []
    diskData := (s.storeLoad .disk diskReadable).getD []
    fault := 0 }

/-- The cells are a store of at most `size` Words (R55, D21): no index is beyond its end. -/
def cellsFit (size : Nat) (cells : Memory) : Bool := cells.all fun c => decide (c.1 < size)

/-- The host puts a store in place of a medium's store (R279); a Word beyond its end is refused (U12;
DESIGN CHOICE, safe, log 12). -/
def changeStore (m : Medium) (cells : Option Memory) (s : State) : Host.Outcome State Fault Refusal :=
  match cells with
  | none    => .next (s.setStore m none)
  | some cs =>
    if cellsFit (mirrorWords s.params m) cs then .next (s.setStore m (some (memOfCells cs)))
    else .refused .storeLength

/-- The canonical form of the record stores the host presents. -/
def cardStoresOf : CardStores → CardStores
  | .separate r w => .separate (recMapOfList r) (recMapOfList w)
  | .shared m     => .shared (recMapOfList m)

/-- The record stores once the CardReader stands on a directory and the CardWriter where it was (R56). -/
def CardStores.readerOn (c : CardStores) : CardDirectory → CardStores
  | .own cards => .separate (recMapOfList cards) c.writer
  | .others    => .shared c.writer

/-- The record stores once the CardWriter stands on a directory and the CardReader where it was (R56). -/
def CardStores.writerOn (c : CardStores) : CardDirectory → CardStores
  | .own cards => .separate c.reader (recMapOfList cards)
  | .others    => .shared c.reader

/-- The CardReader constructed alone on a directory (R260, R262): its two registers 0, no record of either
directory read, written or created, the CardWriter and its directory as they were (log 18). -/
def constructReader (dir : CardDirectory) (s : State) : State :=
  { resetDevice .cardReader true s with cards := s.cards.readerOn dir }

/-- The CardWriter constructed alone on a directory (R260, R262), likewise (log 18). -/
def constructWriter (dir : CardDirectory) (s : State) : State :=
  { resetDevice .cardWriter true s with cards := s.cards.writerOn dir }

/-- One action of the host (R279). -/
def hostAct (a : HostAction) (s : State) : Host.Outcome State Fault Refusal :=
  match a with
  | .appendSource bytes   => .next { s with source := s.source ++ bytes }
  | .setTapeStore cells   => changeStore .tape cells s
  | .setDiskStore cells   => changeStore .disk cells s
  | .setReaderCards cards => .next { s with cards := s.cards.setReader (recMapOfList cards) }
  | .setWriterCards cards => .next { s with cards := s.cards.setWriter (recMapOfList cards) }
  | .setPaperFile file    => .next { s with paperFile := file }
  | .attachCards stores   =>
    .next { resetDevice .cardWriter true (resetDevice .cardReader true s) with cards := cardStoresOf stores }
  | .constructReader dir  => .next (constructReader dir s)
  | .constructWriter dir  => .next (constructWriter dir s)
  | .resetDevice d r      => .next (resetDevice d r s)
  | .resetBlock rt rd     => .next (resetBlock rt rd s)

end Sys2Proof.Machine
end

