-- ==== Sys2Proof/Machine/Channel.lean ====
section
/-! DEFINITION. The channel's side of a step (41_device_base.md R120, 30_encoding.md R81, R84): what is
presented next, the reserved command words (R87), and a `TW.IN` held on an empty source (20_memory.md
R59). -/

namespace Sys2Proof.Machine

/-- The command is presented: its word and operand ports are sampled (R84) and there is no response
to it yet. -/
def State.present (s : State) (c : Command) (rest : List Input) : State :=
  { s with port := c, response := none, inputs := rest }

/-- `CMD[4:2]`, the field the `FAULT` latch records (R224). -/
def cmdDevField (cmd : BitVec 8) : BitVec 3 := (cmdFields cmd).dev

/-- A command presented to an idle block: decoded, or `IllegalCommand` (R87, R225, R229 (1)). -/
def fetchCommand (c : Command) (rest : List Input) (s : State) : Fetched :=
  match decode c.cmd with
  | .ok i    => .run i (s.present c rest)
  | .error _ => .other (raiseFault (cmdDevField c.cmd) .illegalCommand (s.present c rest))

/-- The channel puts Words in its caller buffer (R52); a Word beyond the longest buffer is refused (U6; log 12).
A buffer given this way is new as a whole. -/
def supply (cells : Memory) (s : State) : Host.Outcome State Fault Refusal :=
  if cellsFit (bufWords s.params) cells then .next { s with buf := memOfCells cells } else .refused .bufferLength

/-- A held `TW.IN` (R59, R279): only bytes the host appends to the source lift it; until they come the
state stays as it is (DEDUCED, unsafe, log 7). -/
def fetchHeld (codes : List Code6) (s : State) : Host.Outcome State Fault Refusal :=
  match s.inputs with
  | .host (.appendSource bytes) :: rest =>
    .next (twAdvance codes { s with source := s.source ++ bytes, inputs := rest })
  | _ => .next s

/-- What the next step has to do: wait while a command is held or nothing is presented, take what the
channel or the host does next otherwise. -/
def fetch (s : State) : Fetched :=
  match s.held with
  | some codes => .other (fetchHeld codes s)
  | none =>
    match s.inputs with
    | [] => .other (.next s)
    | .command c :: rest          => fetchCommand c rest s
    | .supplyBuffer cells :: rest => .other (supply cells { s with inputs := rest })
    | .host a :: rest             => .other (hostAct a { s with inputs := rest })

/-- The command word of a table word of `nbits` bits: a command is one 8-bit word. -/
def tableCmd (nbits w : Nat) : BitVec 8 := BitVec.ofNat 8 (w % 2 ^ nbits)

/-- Puts a command at the front of what the channel does next, on the operand ports as they stand, and
no command held, so that the very next step runs it. -/
def putCommand (s : State) (cmd : BitVec 8) : State :=
  { s with held := none, inputs := .command { s.port with cmd := cmd } :: s.inputs }

end Sys2Proof.Machine
end

