-- ==== Sys2Proof/Machine/Base.lean ====
section
/-! DEFINITION. The cursor access commands `GETPAGE` and `SETPAGE` (41_device_base.md R126, R127). -/

namespace Sys2Proof.Machine

/-- `GETPAGE dev` (R126): the response carries `CURPAGE`; nothing is written. -/
def execGetPage (d : Device) (s : State) : Host.Outcome State Fault Refusal :=
  .next (s.respond (.done true (some (s.curPage d))))

/-- `SETPAGE dev, page` (R127): `CURPAGE <- PAGE`, unchecked, on every variant, busy or not. -/
def execSetPage (d : Device) (s : State) : Host.Outcome State Fault Refusal :=
  .next ((s.setCurPage d s.pagePort).respond (.done true none))

end Sys2Proof.Machine
end

