-- ==== Sys2Proof/Machine/Card.lean ====
section
/-! DEFINITION. CardReader and CardWriter (43_card.md): the record format of R168, read and written, and
the eight commands. -/

namespace Sys2Proof.Machine

/-- The newline trigger on the Word index (R111 (6), R168): `j mod 4 = 0 and j != 0`. -/
def groupBreak (j : Nat) : Bool := j % 4 == 0 && j != 0

/-- The code at byte position `p` of a record (R160): a missing position decodes as `SPACE`. -/
def cardCode (c : Codec) (rec : List Char8) (p : Nat) : Code6 :=
  match rec[p]? with
  | some b => decodeBlank c b
  | none   => c.space

/-- The Word whose five characters begin at byte position `p` (R160, R107). -/
def cardWord (c : Codec) (rec : List Char8) (p : Nat) : Word :=
  pack (cardCode c rec p) (cardCode c rec (p + 1)) (cardCode c rec (p + 2)) (cardCode c rec (p + 3)) (cardCode c rec (p + 4))

/-- R160's loop from Word `j` at byte position `p`, `n` Words: one byte is skipped, whatever it is,
before Words 4, 8 and 12. -/
def cardWords (c : Codec) (rec : List Char8) (j p n : Nat) : List Word :=
  match n with
  | 0 => []
  | n + 1 =>
    if groupBreak j then cardWord c rec (p + 1) :: cardWords c rec (j + 1) (p + 6) n
    else cardWord c rec p :: cardWords c rec (j + 1) (p + 5) n

/-- The `blockSize` = 16 Words of a record (R160). -/
def decodeCard (p : Params) (c : Codec) (rec : List Char8) : List Word := cardWords c rec 0 0 p.cardReader.blockSize

/-- The bytes of Word `j` in a record (R165): the newline before it where the trigger holds. -/
def cardGroup (c : Codec) (buf : Memory) (j : Nat) : List Char8 :=
  (if groupBreak j then [c.nl] else []) ++ encodeMS c (buf.read j)

/-- One pass of R165's inner loop over the first `n` Words. -/
def cardImage (c : Codec) (buf : Memory) (n : Nat) : List Char8 := (List.range n).flatMap fun j => cardGroup c buf j

/-- The record `CW.OUT` writes (R165, R168): `numBlocks` = 1 pass over the 16 Words. -/
def cardRecord (p : Params) (c : Codec) (buf : Memory) : List Char8 :=
  (List.range p.cardWriter.numBlocks).flatMap fun _ => cardImage c buf p.cardWriter.blockSize

/-- The data movement of `CR.IN` (R160): nothing when the record is absent or unreadable (R222). -/
def readCard (s : State) : State :=
  match s.recRead (s.curPage .cardReader) s.readable with
  | some rec => s.bufWrite (decodeCard s.params s.codec rec)
  | none     => s

/-- The data movement of `CW.OUT` (R165): record `curPage`, skipped when not writable (R222). -/
def punchCard (s : State) : State :=
  s.recWrite (s.curPage .cardWriter) (cardRecord s.params s.codec s.buf) s.writable

/-- The rule of `CR.IN`: no page check, advancing, `16 * 150` (R122). -/
def cardInRule (p : Params) : Transfer :=
  { dev := .cardReader, pageCheck := false, advances := true, product := p.cardReader.blockSize * p.lat.cardIn }

/-- The rule of `CW.OUT`: no page check, not advancing, `16 * 250` (R122). -/
def cardOutRule (p : Params) : Transfer :=
  { dev := .cardWriter, pageCheck := false, advances := false, product := p.cardWriter.blockSize * p.lat.cardOut }

/-- `CR.IN buf` (R160): record `curPage` to the buffer, then `curPage + 1`; no page check. -/
def execCrIn (s : State) : Host.Outcome State Fault Refusal :=
  (cardInRule s.params).run readCard s

/-- `CR.OUT buf` (R161): unsupported. -/
def execCrOut (s : State) : Host.Outcome State Fault Refusal := unsupported s

/-- `CR.IOC mode` (R162): unsupported. -/
def execCrIoc (s : State) : Host.Outcome State Fault Refusal := unsupported s

/-- `CR.BUSY` (R163). -/
def execCrBusy (s : State) : Host.Outcome State Fault Refusal := busyTest .cardReader s

/-- `CW.IN buf` (R164): unsupported. -/
def execCwIn (s : State) : Host.Outcome State Fault Refusal := unsupported s

/-- `CW.OUT buf` (R165): the buffer to record `curPage`; the cursor does not move (R169). -/
def execCwOut (s : State) : Host.Outcome State Fault Refusal :=
  (cardOutRule s.params).run punchCard s

/-- `CW.IOC mode` (R166): unsupported. -/
def execCwIoc (s : State) : Host.Outcome State Fault Refusal := unsupported s

/-- `CW.BUSY` (R167). -/
def execCwBusy (s : State) : Host.Outcome State Fault Refusal := busyTest .cardWriter s

end Sys2Proof.Machine
end

