-- ==== Sys2Proof/Machine/Paged.lean ====
section
/-! DEFINITION. Tape and Disk (42_tape_disk.md): the page copies of 41_device_base.md R129 and the eight
commands. -/

namespace Sys2Proof.Machine

/-- `PageToBuf` (R129): the block at `curPage` goes to the caller buffer, Word for Word. -/
def pageToBuf (m : Medium) (s : State) : State :=
  s.bufWrite (memRead (s.mirror m) (s.pageBase m) (s.params.blockSize m.device))

/-- `BufToPage` (R129): the caller buffer goes to the block at `curPage`, Word for Word. -/
def bufToPage (m : Medium) (s : State) : State :=
  s.setMirror m (memWrite (s.mirror m) (s.pageBase m) (s.bufRead (s.params.blockSize m.device)))

/-- The data movement of a paged `out`: the block, then the whole store (R141, R145). -/
def pageOut (m : Medium) (s : State) : State := (bufToPage m s).storeSave m s.writable

/-- The rule of `TAPE.IN`: checked against `numBlocks`, advancing, `blockSize * constant` = `100 * 100` (R122). -/
def tapeInRule (p : Params) : Transfer :=
  { dev := .tape, pageCheck := true, advances := true, product := p.tape.blockSize * p.lat.tapeIn }

/-- The rule of `TAPE.OUT`: `100 * 150` (R122). -/
def tapeOutRule (p : Params) : Transfer :=
  { dev := .tape, pageCheck := true, advances := true, product := p.tape.blockSize * p.lat.tapeOut }

/-- The rule of `DISK.IN`: not advancing, `100 * 100` (R122). -/
def diskInRule (p : Params) : Transfer :=
  { dev := .disk, pageCheck := true, advances := false, product := p.disk.blockSize * p.lat.diskIn }

/-- The rule of `DISK.OUT`: not advancing, `100 * 150` (R122). -/
def diskOutRule (p : Params) : Transfer :=
  { dev := .disk, pageCheck := true, advances := false, product := p.disk.blockSize * p.lat.diskOut }

/-- `TAPE.IN buf` (R140): the page to the buffer, then `curPage + 1`. -/
def execTapeIn (s : State) : Host.Outcome State Fault Refusal :=
  (tapeInRule s.params).run (pageToBuf .tape) s

/-- `TAPE.OUT buf` (R141): the buffer to the page, the whole mirror to the store, then `curPage + 1`. -/
def execTapeOut (s : State) : Host.Outcome State Fault Refusal :=
  (tapeOutRule s.params).run (pageOut .tape) s

/-- `TAPE.IOC mode` (R142): unsupported; no rewind. -/
def execTapeIoc (s : State) : Host.Outcome State Fault Refusal := unsupported s

/-- `TAPE.BUSY` (R143). -/
def execTapeBusy (s : State) : Host.Outcome State Fault Refusal := busyTest .tape s

/-- `DISK.IN buf` (R144): the page to the buffer; the cursor stays. -/
def execDiskIn (s : State) : Host.Outcome State Fault Refusal :=
  (diskInRule s.params).run (pageToBuf .disk) s

/-- `DISK.OUT buf` (R145): the buffer to the page, the whole mirror to the store; the cursor stays. -/
def execDiskOut (s : State) : Host.Outcome State Fault Refusal :=
  (diskOutRule s.params).run (pageOut .disk) s

/-- `DISK.IOC mode` (R146): unsupported; it does not seek. -/
def execDiskIoc (s : State) : Host.Outcome State Fault Refusal := unsupported s

/-- `DISK.BUSY` (R148). -/
def execDiskBusy (s : State) : Host.Outcome State Fault Refusal := busyTest .disk s

end Sys2Proof.Machine
end

