-- ==== Sys2Proof/Machine/PaperTape.lean ====
section
/-! DEFINITION. PaperTape (45_papertape.md): the file format of R204 and the four commands. -/

namespace Sys2Proof.Machine

/-- The file one `PT.OUT` writes (R204): every block, every Word of it, field 4 first; no separator. -/
def punchTape (p : Params) (c : Codec) (buf : Memory) : List Char8 :=
  (List.range p.paperTape.numBlocks).flatMap fun i =>
    (List.range p.paperTape.blockSize).flatMap fun j => encodeLS c (buf.read (i * p.paperTape.blockSize + j))

/-- The data movement of `PT.OUT` (R201): the file is replaced, skipped when not writable (R222). -/
def punchBuf (s : State) : State := s.fileWrite (punchTape s.params s.codec s.buf) s.writable

/-- The rule of `PT.OUT`: `14 * 200`, not the 14000 Words it transfers (R122). -/
def paperTapeRule (p : Params) : Transfer :=
  { dev := .paperTape, pageCheck := false, advances := false, product := p.paperTape.blockSize * p.lat.paperTape }

/-- `PT.IN buf` (R200): unsupported. -/
def execPtIn (s : State) : Host.Outcome State Fault Refusal := unsupported s

/-- `PT.OUT buf` (R201): the whole buffer to the file; the cursor is neither read nor moved. -/
def execPtOut (s : State) : Host.Outcome State Fault Refusal :=
  (paperTapeRule s.params).run punchBuf s

/-- `PT.IOC mode` (R202): unsupported. -/
def execPtIoc (s : State) : Host.Outcome State Fault Refusal := unsupported s

/-- `PT.BUSY` (R203). -/
def execPtBusy (s : State) : Host.Outcome State Fault Refusal := busyTest .paperTape s

end Sys2Proof.Machine
end

