-- ==== Sys2Proof/Machine/Dispatch.lean ====
section
/-! DEFINITION. One arm per command of the opcode table (30_encoding.md R86). -/

namespace Sys2Proof.Machine

/-- The effect of a decoded command on the state in which it was presented. -/
def exec (i : Instr) (s : State) : Host.Outcome State Fault Refusal :=
  match i with
  | .tapeIn => Sys2Proof.Machine.execTapeIn s
  | .tapeOut => Sys2Proof.Machine.execTapeOut s
  | .tapeIoc => Sys2Proof.Machine.execTapeIoc s
  | .tapeBusy => Sys2Proof.Machine.execTapeBusy s
  | .diskIn => Sys2Proof.Machine.execDiskIn s
  | .diskOut => Sys2Proof.Machine.execDiskOut s
  | .diskIoc => Sys2Proof.Machine.execDiskIoc s
  | .diskBusy => Sys2Proof.Machine.execDiskBusy s
  | .crIn => Sys2Proof.Machine.execCrIn s
  | .crOut => Sys2Proof.Machine.execCrOut s
  | .crIoc => Sys2Proof.Machine.execCrIoc s
  | .crBusy => Sys2Proof.Machine.execCrBusy s
  | .cwIn => Sys2Proof.Machine.execCwIn s
  | .cwOut => Sys2Proof.Machine.execCwOut s
  | .cwIoc => Sys2Proof.Machine.execCwIoc s
  | .cwBusy => Sys2Proof.Machine.execCwBusy s
  | .lpIn => Sys2Proof.Machine.execLpIn s
  | .lpOut => Sys2Proof.Machine.execLpOut s
  | .lpIoc => Sys2Proof.Machine.execLpIoc s
  | .lpBusy => Sys2Proof.Machine.execLpBusy s
  | .twIn => Sys2Proof.Machine.execTwIn s
  | .twOut => Sys2Proof.Machine.execTwOut s
  | .twIoc => Sys2Proof.Machine.execTwIoc s
  | .twBusy => Sys2Proof.Machine.execTwBusy s
  | .ptIn => Sys2Proof.Machine.execPtIn s
  | .ptOut => Sys2Proof.Machine.execPtOut s
  | .ptIoc => Sys2Proof.Machine.execPtIoc s
  | .ptBusy => Sys2Proof.Machine.execPtBusy s
  | .getPage d => Sys2Proof.Machine.execGetPage d s
  | .setPage d => Sys2Proof.Machine.execSetPage d s

end Sys2Proof.Machine
end

