-- ==== Sys2Proof/Machine/Step.lean ====
section
/-! DEFINITION. One step of the machine: each command is one indivisible step (20_memory.md R64), and
what the host or the channel does between commands is a step of its own. -/

namespace Sys2Proof.Machine

/-- One step: run the command just presented, or what `fetch` answers in its place. -/
def step (s : State) : Host.Outcome State Fault Refusal :=
  match fetch s with
  | .run i t => exec i t
  | .other o => o

/-- The state in which the very next step runs the command whose table word is `w`: the block fetches
nothing (R3, R31), so the channel presents it next, on the operand ports as they stand. -/
def State.withFetchWord (s : State) (nbits w : Nat) : State := putCommand s (tableCmd nbits w)

end Sys2Proof.Machine
end

