-- ==== Sys2Proof/Safety.lean ====
section
/-! DEFINITION. What counts as a safe run, the invariant of the machine, and the channel's duty to poll,
in the terms claims use. -/

namespace Sys2Proof.Machine

/-- No fault has been raised since reset: the premise 60_exceptions.md R224 asks of a claim. -/
def State.Safe (s : State) : Prop := s.fault = 0#8

/-- The channel's duty of 70_reset_and_hazards.md R270, which the block does not enforce: when a command
is presented to a device, the device is not busy at that moment. -/
def State.Polled (s : State) (d : Device) : Prop := busyFlag s.port.now (s.busyUntil d) = false

/-- A `FAULT` value the machine can hold (10_state.md R28): 0, or a cause of R224's table with bits 7:6
zero. -/
def faultLegal (f : BitVec 8) : Prop := f = 0#8 ∨ ∃ dev cause, f = faultValue dev cause

/-- The record stores are in canonical form. -/
def CardStores.wf (c : CardStores) : Prop := RecMap.wf c.reader ∧ RecMap.wf c.writer

/-- The invariant of the machine: the sizes and latency constants make a machine (00_scope.md R8, log 3), the mirrors,
the stores and the caller buffer are canonical memories of their sizes (R27, R39 (3), R55, R52), the record stores
are canonical, `FAULT` holds a legal value (R28), `LAT_TW` is positive (R10), and a command is held only as R59
says: fewer codes read than a full transfer has (70 by default), the source empty, no response yet. -/
structure State.Inv (s : State) : Prop where
  params    : s.params.wellFormed = true
  tapeData  : Memory.wf (mirrorWords s.params .tape) s.tapeData
  diskData  : Memory.wf (mirrorWords s.params .disk) s.diskData
  tapeStore : ∀ m, s.tapeStore = some m → Memory.wf (mirrorWords s.params .tape) m
  diskStore : ∀ m, s.diskStore = some m → Memory.wf (mirrorWords s.params .disk) m
  buf       : Memory.wf (bufWords s.params) s.buf
  cards     : s.cards.wf
  fault     : faultLegal s.fault
  latTw     : 0 < s.latTw
  held      : ∀ codes, s.held = some codes → codes.length < twChars s.params ∧ s.source = [] ∧ s.response = none

end Sys2Proof.Machine
end

