-- ==== Sys2Proof/Certificates/Slice0/Obligations.lean ====
section
/-! DEFINITION. The statements for the provers, in the order of the spec's files, and the few tables and
abbreviations they are written with. `exec i s` is the command decoded as `i`, presented in the state `s`
whose `port` holds its operand ports. -/

namespace Sys2Proof.Claims

open Sys2Proof.Machine

/-- What a fault leaves (60_exceptions.md R224): the response, and the latch if it was 0. -/
def faulted (s : State) (value : BitVec 8) (cause : FaultCause) : State :=
  { s with fault := if s.fault = 0#8 then value else s.fault, response := some (.fault cause) }

/-- The register file `r` differs from `q` at device `d` alone. -/
def OnlyDevice (d : Device) (q r : RegFile) : Prop := ∀ e, e ≠ d → r.get e = q.get e

/-- The first `n` Words of `b` are `w 0, w 1, …` and the Words from `n` on are those of `old`. -/
def BlockWritten (b old : Memory) (n : Nat) (w : Nat → Word) : Prop :=
  ∀ a, Memory.read b a = if a < n then w a else Memory.read old a

/-- Word `j` of `b` is made of the codes 5j to 5j + 4 of a list, 0 where the list has ended, sign `POS`. -/
def PackedWord (b : Memory) (codes : List Code6) (j : Nat) : Prop :=
  (Memory.read b j).sign = .pos ∧ ∀ k : Fin 5, field (Memory.read b j) k = codes.getD (5 * j + k.val) 0

/-- 30_encoding.md R86's map, row by row. -/
def opcodeMap : List (BitVec 8 × Instr) :=
  [(0x00, .tapeIn), (0x01, .tapeOut), (0x02, .tapeIoc), (0x03, .tapeBusy), (0x04, .diskIn), (0x05, .diskOut),
   (0x06, .diskIoc), (0x07, .diskBusy), (0x08, .crIn), (0x09, .crOut), (0x0A, .crIoc), (0x0B, .crBusy),
   (0x0C, .cwIn), (0x0D, .cwOut), (0x0E, .cwIoc), (0x0F, .cwBusy)] ++
  [(0x10, .lpIn), (0x11, .lpOut), (0x12, .lpIoc), (0x13, .lpBusy), (0x14, .twIn), (0x15, .twOut), (0x16, .twIoc),
   (0x17, .twBusy), (0x18, .ptIn), (0x19, .ptOut), (0x1A, .ptIoc), (0x1B, .ptBusy)] ++
  [(0x20, .getPage .tape), (0x24, .getPage .disk), (0x28, .getPage .cardReader), (0x2C, .getPage .cardWriter),
   (0x30, .getPage .linePrinter), (0x34, .getPage .typeWriter), (0x38, .getPage .paperTape)] ++
  [(0x21, .setPage .tape), (0x25, .setPage .disk), (0x29, .setPage .cardReader), (0x2D, .setPage .cardWriter),
   (0x31, .setPage .linePrinter), (0x35, .setPage .typeWriter), (0x39, .setPage .paperTape)]

/-- 30_encoding.md R87's list of reserved values, with `CMD[4:2]` read off the value as R224 records it. -/
def reservedWord (cmd : BitVec 8) : Prop :=
  (0x1C ≤ cmd.toNat ∧ cmd.toNat ≤ 0x1F) ∨
  cmd.toNat ∈ [0x22, 0x23, 0x26, 0x27, 0x2A, 0x2B, 0x2E, 0x2F, 0x32, 0x33, 0x36, 0x37, 0x3A, 0x3B] ∨
  (0x3C ≤ cmd.toNat ∧ cmd.toNat ≤ 0x3F) ∨ 0x40 ≤ cmd.toNat

/-- The twelve unsupported commands of 30_encoding.md R88. -/
def unsupportedCommands : List Instr :=
  [.tapeIoc, .diskIoc, .crOut, .crIoc, .cwIn, .cwIoc, .lpIn, .lpIoc, .twOut, .twIoc, .ptIn, .ptIoc]

/-- The seven `BUSY` commands and their devices. -/
def busyCommands : List (Instr × Device) :=
  [(.tapeBusy, .tape), (.diskBusy, .disk), (.crBusy, .cardReader), (.cwBusy, .cardWriter), (.lpBusy, .linePrinter),
   (.twBusy, .typeWriter), (.ptBusy, .paperTape)]

/-- The nine supported transfers with their device and `blockSize * constant` (41_device_base.md R122; the
PaperTape's product is R122's own derivation, the TypeWriter's constant the open parameter `LAT_TW`, decision
D8). -/
def transferTable (p : Params) (latTw : Nat) : List (Instr × Device × Nat) :=
  [(.tapeIn, .tape, p.tape.blockSize * p.lat.tapeIn), (.tapeOut, .tape, p.tape.blockSize * p.lat.tapeOut),
   (.diskIn, .disk, p.disk.blockSize * p.lat.diskIn), (.diskOut, .disk, p.disk.blockSize * p.lat.diskOut),
   (.crIn, .cardReader, p.cardReader.blockSize * p.lat.cardIn),
   (.cwOut, .cardWriter, p.cardWriter.blockSize * p.lat.cardOut),
   (.lpOut, .linePrinter, p.linePrinter.blockSize * p.lat.print), (.twIn, .typeWriter, p.typeWriter.blockSize * latTw),
   (.ptOut, .paperTape, p.paperTape.blockSize * p.lat.paperTape)]

/-- The same with R8's default sizes and constants. -/
def defaultTable (latTw : Nat) : List (Instr × Device × Nat) :=
  [(.tapeIn, .tape, 10000), (.tapeOut, .tape, 15000), (.diskIn, .disk, 10000), (.diskOut, .disk, 15000),
   (.crIn, .cardReader, 2400), (.cwOut, .cardWriter, 4000), (.lpOut, .linePrinter, 2400),
   (.twIn, .typeWriter, 14 * latTw), (.ptOut, .paperTape, 2800)]

/-- The device a command is for (30_encoding.md R82). -/
def deviceOf : Instr → Device
  | .tapeIn | .tapeOut | .tapeIoc | .tapeBusy => .tape
  | .diskIn | .diskOut | .diskIoc | .diskBusy => .disk
  | .crIn | .crOut | .crIoc | .crBusy => .cardReader
  | .cwIn | .cwOut | .cwIoc | .cwBusy => .cardWriter
  | .lpIn | .lpOut | .lpIoc | .lpBusy => .linePrinter
  | .twIn | .twOut | .twIoc | .twBusy => .typeWriter
  | .ptIn | .ptOut | .ptIoc | .ptBusy => .paperTape
  | .getPage d => d
  | .setPage d => d

/-- The `out` of a medium. -/
def mediumOut : Medium → Instr
  | .tape => .tapeOut
  | .disk => .diskOut

/-! ### What each supported transfer does, for given sizes and a given busy time -/

/-- `TAPE.IN` with `n` Words a page, `pages` pages and `ms` milliseconds: the two faults, the page copied to the
buffer, the cursor one further, the timing; everything else (mirror and store among it) unchanged. -/
def TapeIn (s : State) (n pages ms : Nat) : Prop :=
  (pages ≤ (s.regs.get .tape).curPage.toNat → exec .tapeIn s = .next (faulted s 0x02#8 .pageRange)) ∧
  ((s.regs.get .tape).curPage.toNat < pages → 2 ^ 64 ≤ s.port.now.toNat + ms →
    exec .tapeIn s = .next (faulted s 0x04#8 .timeOverflow)) ∧
  ((s.regs.get .tape).curPage.toNat < pages → s.port.now.toNat + ms < 2 ^ 64 →
    ∃ b r, exec .tapeIn s = .next { s with buf := b, regs := r, response := some (.done true none) } ∧
      BlockWritten b s.buf n (fun a => Memory.read s.tapeData ((s.regs.get .tape).curPage.toNat * n + a)) ∧
      (r.get .tape).curPage.toNat = (s.regs.get .tape).curPage.toNat + 1 ∧
      (r.get .tape).busyUntil.toNat = s.port.now.toNat + ms ∧
      busyFlag s.port.now (r.get .tape).busyUntil = true ∧ OnlyDevice .tape s.regs r)

/-- `TAPE.OUT`: the two faults, the buffer copied to the page, the whole store replaced by the mirror when writable
and untouched otherwise, the cursor, the timing. -/
def TapeOut (s : State) (n pages ms : Nat) : Prop :=
  (pages ≤ (s.regs.get .tape).curPage.toNat → exec .tapeOut s = .next (faulted s 0x02#8 .pageRange)) ∧
  ((s.regs.get .tape).curPage.toNat < pages → 2 ^ 64 ≤ s.port.now.toNat + ms →
    exec .tapeOut s = .next (faulted s 0x04#8 .timeOverflow)) ∧
  ((s.regs.get .tape).curPage.toNat < pages → s.port.now.toNat + ms < 2 ^ 64 →
    ∃ m r, exec .tapeOut s = .next { s with tapeData := m, tapeStore := if s.port.writable then some m else s.tapeStore, regs := r, response := some (.done true none) } ∧
      (∀ a, Memory.read m a =
        if (s.regs.get .tape).curPage.toNat * n ≤ a ∧ a < (s.regs.get .tape).curPage.toNat * n + n then
          Memory.read s.buf (a - (s.regs.get .tape).curPage.toNat * n)
        else Memory.read s.tapeData a) ∧
      (r.get .tape).curPage.toNat = (s.regs.get .tape).curPage.toNat + 1 ∧
      (r.get .tape).busyUntil.toNat = s.port.now.toNat + ms ∧
      busyFlag s.port.now (r.get .tape).busyUntil = true ∧ OnlyDevice .tape s.regs r)

/-- `DISK.IN`: as the Tape's, and the cursor unchanged. -/
def DiskIn (s : State) (n pages ms : Nat) : Prop :=
  (pages ≤ (s.regs.get .disk).curPage.toNat → exec .diskIn s = .next (faulted s 0x0A#8 .pageRange)) ∧
  ((s.regs.get .disk).curPage.toNat < pages → 2 ^ 64 ≤ s.port.now.toNat + ms →
    exec .diskIn s = .next (faulted s 0x0C#8 .timeOverflow)) ∧
  ((s.regs.get .disk).curPage.toNat < pages → s.port.now.toNat + ms < 2 ^ 64 →
    ∃ b r, exec .diskIn s = .next { s with buf := b, regs := r, response := some (.done true none) } ∧
      BlockWritten b s.buf n (fun a => Memory.read s.diskData ((s.regs.get .disk).curPage.toNat * n + a)) ∧
      (r.get .disk).curPage = (s.regs.get .disk).curPage ∧
      (r.get .disk).busyUntil.toNat = s.port.now.toNat + ms ∧
      busyFlag s.port.now (r.get .disk).busyUntil = true ∧ OnlyDevice .disk s.regs r)

/-- `DISK.OUT`: as the Tape's, and the cursor unchanged. -/
def DiskOut (s : State) (n pages ms : Nat) : Prop :=
  (pages ≤ (s.regs.get .disk).curPage.toNat → exec .diskOut s = .next (faulted s 0x0A#8 .pageRange)) ∧
  ((s.regs.get .disk).curPage.toNat < pages → 2 ^ 64 ≤ s.port.now.toNat + ms →
    exec .diskOut s = .next (faulted s 0x0C#8 .timeOverflow)) ∧
  ((s.regs.get .disk).curPage.toNat < pages → s.port.now.toNat + ms < 2 ^ 64 →
    ∃ m r, exec .diskOut s = .next { s with diskData := m, diskStore := if s.port.writable then some m else s.diskStore, regs := r, response := some (.done true none) } ∧
      (∀ a, Memory.read m a =
        if (s.regs.get .disk).curPage.toNat * n ≤ a ∧ a < (s.regs.get .disk).curPage.toNat * n + n then
          Memory.read s.buf (a - (s.regs.get .disk).curPage.toNat * n)
        else Memory.read s.diskData a) ∧
      (r.get .disk).curPage = (s.regs.get .disk).curPage ∧
      (r.get .disk).busyUntil.toNat = s.port.now.toNat + ms ∧
      busyFlag s.port.now (r.get .disk).busyUntil = true ∧ OnlyDevice .disk s.regs r)

/-- `CR.IN` of an `n`-Word card: the two faults, no page check, the buffer left alone when the record is absent or
unreadable, otherwise each field decoded from its byte position (a byte before every fourth Word skipped by
position, a missing one as `SPACE`), sign `POS`; the cursor one further and the timing in every case. -/
def CardIn (s : State) (n ms : Nat) : Prop :=
  ((s.regs.get .cardReader).curPage.toNat = 2 ^ 32 - 1 → exec .crIn s = .next (faulted s 0x13#8 .cursorOverflow)) ∧
  ((s.regs.get .cardReader).curPage.toNat < 2 ^ 32 - 1 → 2 ^ 64 ≤ s.port.now.toNat + ms →
    exec .crIn s = .next (faulted s 0x14#8 .timeOverflow)) ∧
  ((s.regs.get .cardReader).curPage.toNat < 2 ^ 32 - 1 → s.port.now.toNat + ms < 2 ^ 64 →
    ∃ b r, exec .crIn s = .next { s with buf := b, regs := r, response := some (.done true none) } ∧
      ((s.port.readable = false ∨ RecMap.find s.cards.reader (s.regs.get .cardReader).curPage.toNat = none) →
        b = s.buf) ∧
      (∀ rec, s.port.readable = true →
        RecMap.find s.cards.reader (s.regs.get .cardReader).curPage.toNat = some rec →
        (∀ j, j < n → (Memory.read b j).sign = .pos ∧ ∀ k : Fin 5, field (Memory.read b j) k =
          (match rec[5 * j + j / 4 + k.val]? with
            | some c => (toVal s.codec c).getD s.codec.space
            | none => s.codec.space)) ∧
        ∀ a, n ≤ a → Memory.read b a = Memory.read s.buf a) ∧
      (r.get .cardReader).curPage.toNat = (s.regs.get .cardReader).curPage.toNat + 1 ∧
      (r.get .cardReader).busyUntil.toNat = s.port.now.toNat + ms ∧
      busyFlag s.port.now (r.get .cardReader).busyUntil = true ∧ OnlyDevice .cardReader s.regs r)

/-- `CW.OUT` of an `n`-Word card of `bytes` bytes: the one fault, record `curPage` of the writer's map replaced by
the bytes of R168 (a newline before Word `j` for each `j` divisible by 4 but 0) when writable, no record touched
otherwise, the reader's own map never touched, the cursor unchanged. -/
def CardOut (s : State) (n bytes ms : Nat) : Prop :=
  (2 ^ 64 ≤ s.port.now.toNat + ms → exec .cwOut s = .next (faulted s 0x1C#8 .timeOverflow)) ∧
  (s.port.now.toNat + ms < 2 ^ 64 →
    ∃ c r bs, exec .cwOut s = .next { s with cards := c, regs := r, response := some (.done true none) } ∧
      bs.length = bytes ∧ (∀ j, 0 < j → j < n → j % 4 = 0 → bs[5 * j + j / 4 - 1]? = some s.codec.nl) ∧
      (∀ j, j < n → ∀ k : Fin 5, bs[5 * j + j / 4 + k.val]? = some (toChar s.codec (field (Memory.read s.buf j) k))) ∧
      (s.port.writable = false → c = s.cards) ∧
      (s.port.writable = true → ∀ p, RecMap.find c.writer p =
        if p = (s.regs.get .cardWriter).curPage.toNat then some bs else RecMap.find s.cards.writer p) ∧
      (∀ x y, s.cards = .separate x y → c = .separate x c.writer) ∧
      (∀ x, s.cards = .shared x → c = .shared c.writer) ∧
      (r.get .cardWriter).curPage = (s.regs.get .cardWriter).curPage ∧
      (r.get .cardWriter).busyUntil.toNat = s.port.now.toNat + ms ∧
      busyFlag s.port.now (r.get .cardWriter).busyUntil = true ∧ OnlyDevice .cardWriter s.regs r)

/-- `LP.OUT` of `n` Words, `chars` characters: the one fault, and the characters and one `NL` appended to the sink;
the cursor unchanged. -/
def Print (s : State) (n chars ms : Nat) : Prop :=
  (2 ^ 64 ≤ s.port.now.toNat + ms → exec .lpOut s = .next (faulted s 0x24#8 .timeOverflow)) ∧
  (s.port.now.toNat + ms < 2 ^ 64 →
    ∃ out r, exec .lpOut s = .next { s with sink := s.sink ++ out, regs := r, response := some (.done true none) } ∧
      out.length = chars + 1 ∧ out[chars]? = some s.codec.nl ∧
      (∀ j, j < n → ∀ k : Fin 5, out[5 * j + k.val]? = some (toChar s.codec (field (Memory.read s.buf j) k))) ∧
      (r.get .linePrinter).curPage = (s.regs.get .linePrinter).curPage ∧
      (r.get .linePrinter).busyUntil.toNat = s.port.now.toNat + ms ∧
      busyFlag s.port.now (r.get .linePrinter).busyUntil = true ∧ OnlyDevice .linePrinter s.regs r)

/-- `TW.IN` of `n` Words, `chars` characters, both exits and the fault: with `chars` characters that have codes the
`n` Words are those codes; with an escape before that, the field of the escape is `SPACE` and all after it is 0.
The source keeps exactly what follows, every Word has sign `POS`, the cursor is unchanged and the timing is the
same on both exits. -/
def TypeIn (s : State) (n chars ms : Nat) : Prop :=
  (2 ^ 64 ≤ s.port.now.toNat + ms → exec .twIn s = .next (faulted s 0x2C#8 .timeOverflow)) ∧
  (s.port.now.toNat + ms < 2 ^ 64 →
    ∀ (pre post : List Char8) (vals codes : List Code6), pre.map (toVal s.codec) = vals.map some →
      ((pre.length = chars ∧ s.source = pre ++ post ∧ codes = vals) ∨
        (pre.length < chars ∧ ∃ esc, toVal s.codec esc = none ∧ s.source = pre ++ esc :: post ∧
          codes = vals ++ [s.codec.space])) →
      ∃ b r, exec .twIn s = .next { s with source := post, held := none, buf := b, regs := r, response := some (.done true none) } ∧
        (∀ j, j < n → PackedWord b codes j) ∧ (∀ a, n ≤ a → Memory.read b a = Memory.read s.buf a) ∧
        (r.get .typeWriter).curPage = (s.regs.get .typeWriter).curPage ∧
        (r.get .typeWriter).busyUntil.toNat = s.port.now.toNat + ms ∧
        busyFlag s.port.now (r.get .typeWriter).busyUntil = true ∧ OnlyDevice .typeWriter s.regs r)

/-- `PT.OUT` of `blocks` blocks of `n` Words, `bytes` bytes: the one fault, the file replaced by the bytes, field 4
first, when writable and left alone otherwise; the cursor unchanged. -/
def Punch (s : State) (n blocks bytes ms : Nat) : Prop :=
  (2 ^ 64 ≤ s.port.now.toNat + ms → exec .ptOut s = .next (faulted s 0x34#8 .timeOverflow)) ∧
  (s.port.now.toNat + ms < 2 ^ 64 →
    ∃ file r, exec .ptOut s = .next { s with paperFile := if s.port.writable then some file else s.paperFile, regs := r, response := some (.done true none) } ∧
      file.length = bytes ∧
      (∀ i, i < blocks → ∀ j, j < n → ∀ k : Fin 5, file[(n * i + j) * 5 + k.val]? =
        some (toChar s.codec (field (Memory.read s.buf (n * i + j)) k.rev))) ∧
      (r.get .paperTape).curPage = (s.regs.get .paperTape).curPage ∧
      (r.get .paperTape).busyUntil.toNat = s.port.now.toNat + ms ∧
      busyFlag s.port.now (r.get .paperTape).busyUntil = true ∧ OnlyDevice .paperTape s.regs r)

end Sys2Proof.Claims

open Sys2Proof Sys2Proof.Machine Sys2Proof.Claims

/-! ### 10_state.md -/

/-- 10_state.md R21: the bus packing of a Word has bit 30 for the sign and bits 29:0 for `data`, and loses nothing. -/
def Obligations.WordBusPackingIsLossless : Prop :=
  (∀ w : Word, (wordToBus w).extractLsb' 0 30 = w.data ∧
    (wordToBus w).extractLsb' 30 1 = (match w.sign with | .pos => 0#1 | .neg => 1#1)) ∧
  (∀ w : Word, wordOfBus (wordToBus w) = w) ∧ ∀ b : BitVec 31, wordToBus (wordOfBus b) = b

/-- 10_state.md R25, R26, 00_scope.md R8: `BLOCKSIZE` and `NUMBLOCKS` are the constants of the variant; with R8's
defaults, which the reset state has, they are the source's numbers, the mirrors hold 200000 and 400000 Words and
the longest caller buffer 14000. -/
def Obligations.SizeRegistersAreConstants : Prop :=
  (∀ (s : State) (d : Device), s.readReg d 2 = s.params.blockSize d ∧ s.readReg d 3 = s.params.numBlocks d) ∧
  (∀ s : State, s.params = Config.params →
    [Device.tape, .disk, .cardReader, .cardWriter, .linePrinter, .typeWriter, .paperTape].map (fun d => s.readReg d 2)
      = [100, 100, 16, 16, 24, 14, 14] ∧
    [Device.tape, .disk, .cardReader, .cardWriter, .linePrinter, .typeWriter, .paperTape].map (fun d => s.readReg d 3)
      = [2000, 4000, 1, 1, 1, 1, 1000] ∧
    mirrorWords s.params .tape = 200000 ∧ mirrorWords s.params .disk = 400000 ∧ bufWords s.params = 14000) ∧
  State.reset.params = Config.params

/-- 10_state.md R23, the rule for all commands: a command that changes some `CURPAGE` is `TAPE.IN`, `TAPE.OUT` or
`CR.IN` and adds 1 to its own device's, or is `SETPAGE` on that device. -/
def Obligations.OnlyFourCommandsMoveACursor : Prop :=
  ∀ (i : Instr) (s t : State) (d : Device), exec i s = .next t → (t.regs.get d).curPage ≠ (s.regs.get d).curPage →
    ((i = .tapeIn ∧ d = .tape ∨ i = .tapeOut ∧ d = .tape ∨ i = .crIn ∧ d = .cardReader) ∧
        (t.regs.get d).curPage.toNat = (s.regs.get d).curPage.toNat + 1 ∧ t.response = some (.done true none)) ∨
      (i = .setPage d ∧ (t.regs.get d).curPage = s.port.page)

/-- 10_state.md R24, the rule for all commands: a command that changes some `BUSYUNTIL` is a successful one of the
nine supported transfers, and changes its own device's. -/
def Obligations.OnlySuccessfulTransfersChangeBusyUntil : Prop :=
  ∀ (i : Instr) (s t : State) (d : Device), exec i s = .next t → (t.regs.get d).busyUntil ≠ (s.regs.get d).busyUntil →
    (∃ p, (i, d, p) ∈ transferTable s.params s.latTw) ∧ t.response = some (.done true none)

/-- 10_state.md R28: the fields of `FAULT`, bits 7:6 reading 0. -/
def Obligations.FaultValueHasItsFields : Prop :=
  ∀ (dev : BitVec 3) (c : FaultCause),
    faultCauseField (faultValue dev c) = causeCode c ∧ faultDevField (faultValue dev c) = dev ∧
    faultTopBits (faultValue dev c) = 0#2 ∧ faultFlag (faultValue dev c) = true

/-- 10_state.md R28: once set, `FAULT` is changed by no step but a reset of the block, which clears it. -/
def Obligations.OnlyBlockResetChangesASetFaultLatch : Prop :=
  ∀ s t : State, s.fault ≠ 0#8 → step s = .next t → t.fault ≠ s.fault →
    t.fault = 0#8 ∧ s.held = none ∧ ∃ rt rd rest, s.inputs = .host (.resetBlock rt rd) :: rest

/-- 10_state.md R36: a change the host makes to a store is not seen by the mirror; the change is the whole effect of
the step. Stated for both media and for a deletion of the store. -/
def Obligations.StoreChangeLeavesTheMirror : Prop :=
  ∀ (s : State) (rest : List Input) (cells : Option Memory), s.held = none →
    (s.inputs = .host (.setTapeStore cells) :: rest → (∀ m, cells = some m → ∀ c ∈ m, c.1 < mirrorWords s.params .tape) →
      ∃ st, step s = .next { s with inputs := rest, tapeStore := st } ∧ (cells = none → st = none) ∧
        ∀ m, cells = some m → ∃ n, st = some n ∧ Memory.wf (mirrorWords s.params .tape) n ∧ ∀ a, Memory.read n a = Memory.read m a) ∧
    (s.inputs = .host (.setDiskStore cells) :: rest → (∀ m, cells = some m → ∀ c ∈ m, c.1 < mirrorWords s.params .disk) →
      ∃ st, step s = .next { s with inputs := rest, diskStore := st } ∧ (cells = none → st = none) ∧
        ∀ m, cells = some m → ∃ n, st = some n ∧ Memory.wf (mirrorWords s.params .disk) n ∧ ∀ a, Memory.read n a = Memory.read m a)

/-! ### 30_encoding.md -/

/-- A sanity check of a few words written out from 30_encoding.md R81 to R83: format, `DEV`, `OP`. -/
def Obligations.SampleWordsDecode : Prop :=
  decode 0b00000001#8 = .ok .tapeOut ∧ decode 0b00000100#8 = .ok .diskIn ∧ decode 0b00001000#8 = .ok .crIn ∧
  decode 0b00001101#8 = .ok .cwOut ∧ decode 0b00010010#8 = .ok .lpIoc ∧ decode 0b00010100#8 = .ok .twIn ∧
  decode 0b00011011#8 = .ok .ptBusy ∧ decode 0b00101000#8 = .ok (.getPage .cardReader) ∧
  decode 0b00111001#8 = .ok (.setPage .paperTape) ∧ decode 0b00111100#8 = .error .device

/-- 30_encoding.md R86: the complete map, and every value not listed is reserved. -/
def Obligations.OpcodeMapIsComplete : Prop :=
  (∀ row ∈ opcodeMap, decode row.1 = .ok row.2) ∧
  ∀ cmd : BitVec 8, cmd ∉ opcodeMap.map Prod.fst → ∃ e, decode cmd = .error e

/-- 30_encoding.md R86, R89: decoding the command word of any command gives it back, a word that decodes is the
command word of what it decodes to, and the words no command has are exactly R87's. -/
def Obligations.DecodeInvertsEncode : Prop :=
  (∀ i : Instr, decode (encode i) = .ok i) ∧ (∀ (cmd : BitVec 8) (i : Instr), decode cmd = .ok i → encode i = cmd) ∧
  ∀ cmd : BitVec 8, (∀ i : Instr, encode i ≠ cmd) ↔ reservedWord cmd

/-- 30_encoding.md R87 with 60_exceptions.md R225: a reserved value of `CMD` raises `IllegalCommand`, records
`CMD[4:2]`, and changes nothing else. -/
def Obligations.ReservedWordRaisesIllegalCommand : Prop :=
  ∀ (s : State) (c : Command) (rest : List Input), s.held = none → s.inputs = .command c :: rest →
    reservedWord c.cmd →
    step s = .next (faulted { s with port := c, inputs := rest }
      (BitVec.ofNat 8 (c.cmd.toNat / 4 % 8 * 8 + 1)) .illegalCommand)

/-- A step runs the decoded command (41_device_base.md R120, R128 (1); 30_encoding.md R84): when nothing is held and
the channel presents a word that decodes to `i`, the step is `exec i` on the state in which the word and its
ports have been sampled and no response is given yet. -/
def Obligations.StepRunsTheDecodedCommand : Prop :=
  ∀ (s : State) (c : Command) (rest : List Input) (i : Instr), s.held = none → s.inputs = .command c :: rest →
    decode c.cmd = .ok i → step s = exec i { s with port := c, response := none, inputs := rest }

/-- 30_encoding.md R88: each of the twelve unsupported commands decodes, executes and returns `false` with no other
effect, in every state. -/
def Obligations.UnsupportedCommandsOnlyReturnFalse : Prop :=
  unsupportedCommands.length = 12 ∧ unsupportedCommands.Nodup ∧
  ∀ i ∈ unsupportedCommands, decode (encode i) = .ok i ∧
    ∀ s : State, exec i s = .next { s with response := some (.done false none) }

/-- 30_encoding.md R84, 41_device_base.md R125: no rule reads the port `MODE`: with another `MODE` every command has
the same effect. -/
def Obligations.ModePortIsNeverRead : Prop :=
  ∀ (i : Instr) (s t : State) (m : BitVec 32), exec i s = .next t →
    exec i { s with port := { s.port with mode := m } } = .next { t with port := { t.port with mode := m } }

/-! ### 40_codec.md -/

/-- 40_codec.md R102 with R101: `pack` and `field` are inverse on magnitudes, and `field` is the stated base-64
digit. That the sign of a packed Word is `POS` is the spec's own choice, R107's decision D11 (log 11). -/
def Obligations.PackAndFieldAreInverse : Prop :=
  (∀ f0 f1 f2 f3 f4 : Code6,
    [field (pack f0 f1 f2 f3 f4) 0, field (pack f0 f1 f2 f3 f4) 1, field (pack f0 f1 f2 f3 f4) 2,
      field (pack f0 f1 f2 f3 f4) 3, field (pack f0 f1 f2 f3 f4) 4] = [f0, f1, f2, f3, f4] ∧
    (pack f0 f1 f2 f3 f4).sign = .pos ∧
    (pack f0 f1 f2 f3 f4).data.toNat =
      f0.toNat * 2 ^ 24 + f1.toNat * 2 ^ 18 + f2.toNat * 2 ^ 12 + f3.toNat * 2 ^ 6 + f4.toNat) ∧
  (∀ w : Word, (pack (field w 0) (field w 1) (field w 2) (field w 3) (field w 4)).data = w.data) ∧
  ∀ (w : Word) (k : Fin 5), (field w k).toNat = w.data.toNat / 64 ^ (4 - k.val) % 64

/-- 40_codec.md R104, R105: `EncodeLS` is `EncodeMS` reversed, each gives five bytes, and neither looks at the sign. -/
def Obligations.EncodersAreReversedAndSignBlind : Prop :=
  ∀ (c : Codec) (w : Word) (x : Sign), encodeLS c w = (encodeMS c w).reverse ∧ (encodeMS c w).length = 5 ∧
    encodeMS c { w with sign := x } = encodeMS c w ∧ encodeLS c { w with sign := x } = encodeLS c w

/-! ### 41_device_base.md -/

/-- 41_device_base.md R122: every successful `in`/`out` sets its device's `busyUntil` to `now` plus `blockSize`
times its constant, and the products under R8's defaults. The PaperTape's product (one block, not the Words
moved) is R122's own derivation, `LAT_TW` decision D8, and that the assignment is plain, not a maximum, decision
D18 (log 17). -/
def Obligations.SuccessfulTransferSetsBusyUntil : Prop :=
  (∀ (i : Instr) (d : Device) (p : Nat) (s t : State), (i, d, p) ∈ transferTable s.params s.latTw → exec i s = .next t →
    t.response = some (.done true none) → (t.regs.get d).busyUntil.toNat = s.port.now.toNat + p) ∧
  ∀ latTw, transferTable Config.params latTw = defaultTable latTw

/-- 41_device_base.md R122, R124 (the source's busy property): after a successful transfer at `now` the device's
`BUSY` is `true` from that moment until the product has passed and `false` from then on. -/
def Obligations.BusyLastsExactlyTheProduct : Prop :=
  ∀ (i j : Instr) (d : Device) (p : Nat) (s t : State) (n : Time), s.params.wellFormed = true → 0 < s.latTw →
    (i, d, p) ∈ transferTable s.params s.latTw →
    (j, d) ∈ busyCommands → exec i s = .next t → t.response = some (.done true none) → s.port.now.toNat ≤ n.toNat →
    0 < p ∧ exec j { t with port := { t.port with now := n } } =
      .next { t with port := { t.port with now := n }
                     response := some (.done (decide (n.toNat < s.port.now.toNat + p)) none) }

/-- 41_device_base.md R123: a command other than `BUSY` does the same whatever the `BUSYUNTIL` registers hold: same
outcome, same data, same cursors, and a successful transfer leaves the same new `busyUntil`. -/
def Obligations.CommandsIgnoreTheBusyFlag : Prop :=
  ∀ (i : Instr) (s t : State) (r : RegFile), i ∉ busyCommands.map Prod.fst →
    (∀ d, (r.get d).curPage = (s.regs.get d).curPage) → exec i s = .next t →
    ∃ q, exec i { s with regs := r } = .next { t with regs := q } ∧ (∀ d, (q.get d).curPage = (t.regs.get d).curPage) ∧
      ∀ d p, (i, d, p) ∈ transferTable s.params s.latTw → t.response = some (.done true none) → q.get d = t.regs.get d

/-- 42_tape_disk.md R143, R148, 43_card.md R163, R167, 44_console.md R183, R189, 45_papertape.md R203: `BUSY` of a
device has `OP` = 3 in its command word, answers `now < busyUntil` of its own device and writes nothing. -/
def Obligations.BusyComparesNowWithBusyUntil : Prop :=
  ∀ j ∈ busyCommands, decode (BitVec.ofNat 8 (4 * j.2.code.toNat + 3)) = .ok j.1 ∧ ∀ s : State,
    exec j.1 s =
      .next { s with response := some (.done (decide (s.port.now.toNat < (s.regs.get j.2).busyUntil.toNat)) none) }

/-- 41_device_base.md R126: `GETPAGE` answers `true` and the cursor of its device, and writes nothing. -/
def Obligations.GetPageAnswersTheCursor : Prop :=
  ∀ (d : Device) (s : State),
    exec (.getPage d) s = .next { s with response := some (.done true (some (s.regs.get d).curPage)) }

/-- 41_device_base.md R127: `SETPAGE` puts the port `PAGE` into the cursor of its device, unchecked, and changes
nothing else. -/
def Obligations.SetPageWritesTheCursorAlone : Prop :=
  ∀ (d : Device) (s : State),
    ∃ r, exec (.setPage d) s = .next { s with regs := r, response := some (.done true none) } ∧
      (r.get d).curPage = s.port.page ∧ (r.get d).busyUntil = (s.regs.get d).busyUntil ∧ OnlyDevice d s.regs r

/-! ### 42_tape_disk.md -/

/-- 42_tape_disk.md R140: `TAPE.IN`, all of it, with the machine's sizes and constants and with R8's defaults. -/
def Obligations.TapeInCopiesThePageAndAdvances : Prop :=
  ∀ s : State, s.Inv →
    TapeIn s s.params.tape.blockSize s.params.tape.numBlocks (s.params.tape.blockSize * s.params.lat.tapeIn) ∧
      (s.params = Config.params → TapeIn s 100 2000 10000)

/-- 42_tape_disk.md R141: `TAPE.OUT`, all of it, with the machine's sizes and constants and with R8's defaults. -/
def Obligations.TapeOutWritesPageAndStoreAndAdvances : Prop :=
  ∀ s : State, s.Inv →
    TapeOut s s.params.tape.blockSize s.params.tape.numBlocks (s.params.tape.blockSize * s.params.lat.tapeOut) ∧
      (s.params = Config.params → TapeOut s 100 2000 15000)

/-- 42_tape_disk.md R144: `DISK.IN`, all of it, with the machine's sizes and constants and with R8's defaults. -/
def Obligations.DiskInCopiesThePageAndStays : Prop :=
  ∀ s : State, s.Inv →
    DiskIn s s.params.disk.blockSize s.params.disk.numBlocks (s.params.disk.blockSize * s.params.lat.diskIn) ∧
      (s.params = Config.params → DiskIn s 100 4000 10000)

/-- 42_tape_disk.md R145: `DISK.OUT`, all of it, with the machine's sizes and constants and with R8's defaults. -/
def Obligations.DiskOutWritesPageAndStoreAndStays : Prop :=
  ∀ s : State, s.Inv →
    DiskOut s s.params.disk.blockSize s.params.disk.numBlocks (s.params.disk.blockSize * s.params.lat.diskOut) ∧
      (s.params = Config.params → DiskOut s 100 4000 15000)

/-- 42_tape_disk.md R151: a fresh Tape or Disk on the store the last `OUT` wrote has the old mirror, Word for Word,
and starts at page 0, not busy. -/
def Obligations.FreshInstanceHasTheOldMirror : Prop :=
  ∀ (m : Medium) (s t : State) (rest : List Input), exec (mediumOut m) s = .next t →
    t.response = some (.done true none) → s.port.writable = true → t.held = none →
    t.inputs = .host (.resetDevice m.device true) :: rest →
    ∃ u, step t = .next u ∧ u.mirror m = t.mirror m ∧ u.store m = t.store m ∧
      u.regs.get m.device = { curPage := 0, busyUntil := 0 }

/-- 42_tape_disk.md R151, the source's scenario as a run of the machine: `TAPE.OUT` at page 0, a fresh Tape on the
same store, another buffer, `TAPE.IN`: the buffer holds the original Words of the page (100 by default), and the
cursor is at page 1. -/
def Obligations.TapeScenarioReturnsTheOriginalWords : Prop :=
  ∀ (s : State) (c c' : Command) (cells : Memory) (rest : List Input), s.Inv → s.held = none →
    s.inputs = .command c :: .host (.resetDevice .tape true) :: .supplyBuffer cells :: .command c' :: rest →
    c.cmd = 0x01#8 → c'.cmd = 0x00#8 → c.writable = true → (s.regs.get .tape).curPage = 0#32 →
    c.now.toNat + s.params.tape.blockSize * s.params.lat.tapeOut < 2 ^ 64 →
    c'.now.toNat + s.params.tape.blockSize * s.params.lat.tapeIn < 2 ^ 64 → (∀ x ∈ cells, x.1 < bufWords s.params) →
    ∃ t, Host.Core.run Sys2Proof.core 4 s = .next t ∧
      (∀ a, a < s.params.tape.blockSize → Memory.read t.buf a = Memory.read s.buf a) ∧
      (t.regs.get .tape).curPage = 1#32 ∧ t.response = some (.done true none) ∧ t.inputs = rest

/-! ### 43_card.md -/

/-- 43_card.md R160: `CR.IN`, all of it, with the machine's sizes and constants and with R8's defaults. -/
def Obligations.CardReaderDecodesTheRecord : Prop :=
  ∀ s : State, s.Inv →
    CardIn s s.params.cardReader.blockSize (s.params.cardReader.blockSize * s.params.lat.cardIn) ∧
      (s.params = Config.params → CardIn s 16 2400)

/-- 43_card.md R165 with R168: `CW.OUT`, all of it, with the machine's sizes and constants and with R8's defaults,
under which a record has 83 bytes and its newlines are bytes 20, 41 and 62. That the cursor does not move is
R165's own decision D23 (log 17). -/
def Obligations.CardWriterPunchesTheRecord : Prop :=
  ∀ s : State, s.params.wellFormed = true →
    CardOut s s.params.cardWriter.blockSize
      (5 * s.params.cardWriter.blockSize + (s.params.cardWriter.blockSize - 1) / 4)
      (s.params.cardWriter.blockSize * s.params.lat.cardOut) ∧
      (s.params = Config.params → CardOut s 16 83 4000)

/-- 43_card.md R170, 40_codec.md R110: with reader and writer on one record map and both cursors at one page,
`CW.OUT` then `CR.IN` into any buffer gives every field back through the codec and the blank fill, with sign
`POS`; so a `POS` Word comes back itself when the table is its own inverse. Under R8's defaults both cards have
16 Words. -/
def Obligations.CardRoundTrip : Prop :=
  ∀ (s : State) (recs : RecMap), s.params.wellFormed = true → s.cards = .shared recs →
    (s.regs.get .cardReader).curPage = (s.regs.get .cardWriter).curPage →
    (s.regs.get .cardWriter).curPage.toNat < 2 ^ 32 - 1 → s.port.writable = true →
    s.port.now.toNat + s.params.cardWriter.blockSize * s.params.lat.cardOut < 2 ^ 64 →
    ∃ t, exec .cwOut s = .next t ∧
      ∀ (b : Memory) (c : Command), Memory.wf (bufWords s.params) b → c.readable = true →
        c.now.toNat + s.params.cardReader.blockSize * s.params.lat.cardIn < 2 ^ 64 →
        ∃ u, exec .crIn { t with buf := b, port := c } = .next u ∧ u.response = some (.done true none) ∧
          ∀ j, j < s.params.cardReader.blockSize → j < s.params.cardWriter.blockSize → (Memory.read u.buf j).sign = .pos ∧
            (∀ k : Fin 5, field (Memory.read u.buf j) k =
              (toVal s.codec (toChar s.codec (field (Memory.read s.buf j) k))).getD s.codec.space) ∧
            ((∀ v : Code6, toVal s.codec (toChar s.codec v) = some v) → (Memory.read s.buf j).sign = .pos →
              Memory.read u.buf j = Memory.read s.buf j)

/-! ### 44_console.md -/

/-- 44_console.md R181, R184: `LP.OUT`, all of it, with the machine's sizes and constants and with R8's defaults,
under which a line has 121 bytes. That the line terminator is the byte `NL` is R184's own decision D22. -/
def Obligations.LinePrinterAppendsOneLine : Prop :=
  ∀ s : State, s.params.wellFormed = true →
    Print s s.params.linePrinter.blockSize (5 * s.params.linePrinter.blockSize)
      (s.params.linePrinter.blockSize * s.params.lat.print) ∧
      (s.params = Config.params → Print s 24 120 2400)

/-- 44_console.md R186: `TW.IN` on a source that holds enough, with the machine's sizes and `LAT_TW` and with R8's
defaults. What an escape leaves in the current Word is decision D12 (log 11). -/
def Obligations.TypewriterReadsABlock : Prop :=
  ∀ s : State, s.Inv →
    TypeIn s s.params.typeWriter.blockSize (5 * s.params.typeWriter.blockSize)
      (s.params.typeWriter.blockSize * s.latTw) ∧
      (s.params = Config.params → TypeIn s 14 70 (14 * s.latTw))

/-- 44_console.md R190 under R186: after an escape in Word `j`, field `k`, the Words after `j` are exactly `ZERO`,
field `k` of Word `j` is `SPACE` and every later field of it is 0. What an escape leaves in Word `j` itself is
R186's own decision D12 (log 11). -/
def Obligations.TypewriterEscapeZeroFills : Prop :=
  ∀ (s : State) (pre post : List Char8) (vals : List Code6) (esc : Char8) (j : Nat) (k : Fin 5), s.Inv →
    s.port.now.toNat + s.params.typeWriter.blockSize * s.latTw < 2 ^ 64 → pre.map (toVal s.codec) = vals.map some → toVal s.codec esc = none →
    s.source = pre ++ esc :: post → pre.length = 5 * j + k.val → j < s.params.typeWriter.blockSize →
    ∃ t, exec .twIn s = .next t ∧ t.response = some (.done true none) ∧
      field (Memory.read t.buf j) k = s.codec.space ∧
      (∀ l : Fin 5, k < l → field (Memory.read t.buf j) l = 0#6) ∧
      ∀ jj, j < jj → jj < s.params.typeWriter.blockSize → Memory.read t.buf jj = Word.zero

/-- 20_memory.md R59 with 44_console.md R186: when the source runs out before all codes (70 by default) and without
an escape, `TW.IN` is held: no response, the bytes consumed, the registers unchanged, only Words already
complete written. That the bytes read so far are already consumed while it waits is the model's reading (log 7). -/
def Obligations.TypewriterIsHeldOnAnEmptySource : Prop :=
  ∀ (s : State) (vals : List Code6), s.Inv → s.port.now.toNat + s.params.typeWriter.blockSize * s.latTw < 2 ^ 64 →
    s.source.map (toVal s.codec) = vals.map some → vals.length < 5 * s.params.typeWriter.blockSize →
    ∃ b, exec .twIn s = .next { s with source := [], held := some vals, response := none, buf := b } ∧
      (∀ j, 5 * (j + 1) ≤ vals.length → PackedWord b vals j) ∧
      ∀ a, vals.length < 5 * (a + 1) → Memory.read b a = Memory.read s.buf a

/-- 20_memory.md R59: while a command is held, only bytes appended to the source change anything: with anything else
next, or nothing, the step leaves the state as it is. -/
def Obligations.AHeldCommandWaitsForTheSource : Prop :=
  ∀ (s : State) (codes : List Code6), s.held = some codes →
    (∀ bytes rest, s.inputs ≠ .host (.appendSource bytes) :: rest) → step s = .next s

/-- 20_memory.md R59, R64: the wait cannot be told from the result: a `TW.IN` that was held and then got the bytes
leaves exactly the state it leaves when the source held them from the start, held again or complete. What a held
command has done so far is the model's reading (log 7). -/
def Obligations.HoldingDoesNotChangeTheResult : Prop :=
  ∀ (s t : State) (codes : List Code6) (bytes : List Char8) (rest : List Input), s.Inv → exec .twIn s = .next t →
    t.held = some codes → t.response = none →
    step { t with inputs := .host (.appendSource bytes) :: rest } =
      exec .twIn { s with source := s.source ++ bytes, inputs := rest }

/-! ### 45_papertape.md -/

/-- 45_papertape.md R201, R204: `PT.OUT`, all of it, with the machine's sizes and constants and with R8's defaults,
under which the file has 70000 bytes. That no separator stands in it is R204's own derivation, that one `PT.OUT`
replaces the file as a whole decision D24. -/
def Obligations.PaperTapePunchesTheWholeBuffer : Prop :=
  ∀ s : State, s.params.wellFormed = true →
    Punch s s.params.paperTape.blockSize s.params.paperTape.numBlocks
      (s.params.paperTape.numBlocks * (s.params.paperTape.blockSize * 5))
      (s.params.paperTape.blockSize * s.params.lat.paperTape) ∧
      (s.params = Config.params → Punch s 14 1000 70000 2800)

/-! ### 60_exceptions.md and 20_memory.md, the whole machine -/

/-- 60_exceptions.md R224, for all commands: a command that answers a fault changes nothing but the response and the
latch, which takes the cause and the command's device if it was 0. -/
def Obligations.AFaultChangesOnlyTheLatch : Prop :=
  ∀ (i : Instr) (s t : State) (c : FaultCause), exec i s = .next t → t.response = some (.fault c) →
    t = faulted s (BitVec.ofNat 8 ((deviceOf i).code.toNat * 8 + (causeCode c).toNat)) c

/-- 60_exceptions.md R228: the latch holds nothing back: with another value in it every command has the same effect
on everything else. -/
def Obligations.TheLatchHoldsNothingBack : Prop :=
  ∀ (i : Instr) (s t : State) (f : BitVec 8), exec i s = .next t →
    ∃ g, exec i { s with fault := f } = .next { t with fault := g }

/-- 60_exceptions.md R229: the order in which outcomes are found, for every supported transfer under parameters that
make a machine (log 3): a paged one out of range is `PageRange` whatever else holds; then `CursorOverflow`; then
`TimeOverflow`; otherwise no fault. An unsupported command, `BUSY`, `GETPAGE` and `SETPAGE` never fault. -/
def Obligations.OutcomesHaveAnOrder : Prop :=
  ∀ (i : Instr) (s t : State), s.params.wellFormed = true → exec i s = .next t →
    (∀ d p, (i, d, p) ∈ transferTable s.params s.latTw →
      (t.response = some (.fault .pageRange) ↔
        ((d = .tape ∨ d = .disk) ∧ s.params.numBlocks d ≤ (s.regs.get d).curPage.toNat)) ∧
      (t.response = some (.fault .cursorOverflow) ↔ (i = .crIn ∧ (s.regs.get d).curPage.toNat = 2 ^ 32 - 1)) ∧
      (t.response = some (.fault .timeOverflow) ↔
        (2 ^ 64 ≤ s.port.now.toNat + p ∧ t.response ≠ some (.fault .pageRange) ∧
          t.response ≠ some (.fault .cursorOverflow)))) ∧
    ((∀ d p, (i, d, p) ∉ transferTable s.params s.latTw) → ∀ c, t.response ≠ some (.fault c))

/-- 20_memory.md R64, 41_device_base.md R130: every command answers a next state, in every state; and it has given
its response, unless it is a `TW.IN` now held (20_memory.md R59, decision D13), which has not completed. That a
fault is a next state is log 1, that a held `TW.IN` is one log 7. -/
def Obligations.EveryCommandAnswersANextState : Prop :=
  ∀ (i : Instr) (s : State), ∃ t, exec i s = .next t ∧ (t.response = none → i = .twIn ∧ t.held.isSome = true)

/-- 20_memory.md R63: devices share no state: a command on one device leaves every other device's registers, mirror,
store, records, file, sink and source, and no command changes the codec, the sizes and constants, `LAT_TW`, the
ports or what comes next. -/
def Obligations.CommandsTouchOnlyTheirDevice : Prop :=
  ∀ (i : Instr) (s t : State), exec i s = .next t →
    OnlyDevice (deviceOf i) s.regs t.regs ∧
    (deviceOf i ≠ .tape → t.tapeData = s.tapeData ∧ t.tapeStore = s.tapeStore) ∧
    (deviceOf i ≠ .disk → t.diskData = s.diskData ∧ t.diskStore = s.diskStore) ∧
    (deviceOf i ≠ .cardWriter → t.cards = s.cards) ∧ (deviceOf i ≠ .linePrinter → t.sink = s.sink) ∧
    (deviceOf i ≠ .typeWriter → t.source = s.source ∧ t.held = s.held) ∧
    (deviceOf i ≠ .paperTape → t.paperFile = s.paperFile) ∧
    t.codec = s.codec ∧ t.params = s.params ∧ t.latTw = s.latTw ∧ t.port = s.port ∧ t.inputs = s.inputs

/-! ### 70_reset_and_hazards.md -/

/-- 70_reset_and_hazards.md R261: reset of Tape or Disk: the mirror is the store when it is present and readable and
all `ZERO` otherwise, both registers are 0, and nothing else changes (the store among it). That the reset of one
device leaves `FAULT` is log 13. -/
def Obligations.MediumResetLoadsTheMirror : Prop :=
  ∀ (s : State) (r : Bool) (rest : List Input), s.held = none →
    (s.inputs = .host (.resetDevice .tape r) :: rest →
      ∃ q x, step s = .next { s with inputs := rest, regs := q, tapeData := x } ∧
        q.get .tape = { curPage := 0, busyUntil := 0 } ∧ OnlyDevice .tape s.regs q ∧
        (∀ m, s.tapeStore = some m → r = true → x = m) ∧
        (s.tapeStore = none ∨ r = false → ∀ a, Memory.read x a = Word.zero)) ∧
    (s.inputs = .host (.resetDevice .disk r) :: rest →
      ∃ q x, step s = .next { s with inputs := rest, regs := q, diskData := x } ∧
        q.get .disk = { curPage := 0, busyUntil := 0 } ∧ OnlyDevice .disk s.regs q ∧
        (∀ m, s.diskStore = some m → r = true → x = m) ∧
        (s.diskStore = none ∨ r = false → ∀ a, Memory.read x a = Word.zero))

/-- 70_reset_and_hazards.md R262, R263, R264: reset of any other device sets its two registers to 0 and changes
nothing else: no record, file, sink or source. That it leaves `FAULT` is log 13, that a console device keeps
the sink or source it had log 19. -/
def Obligations.OtherDeviceResetOnlyClearsRegisters : Prop :=
  ∀ (s : State) (d : Device) (r : Bool) (rest : List Input), s.held = none → d ≠ .tape → d ≠ .disk →
    s.inputs = .host (.resetDevice d r) :: rest →
    ∃ q, step s = .next { s with inputs := rest, regs := q } ∧ q.get d = { curPage := 0, busyUntil := 0 } ∧
      OnlyDevice d s.regs q

/-- 70_reset_and_hazards.md R265 with 10_state.md R40: reset of the block clears `FAULT` and resets every device;
stores, records, file, sink and source are the host's and stay (that the console devices keep the sink and the
source they had is log 19). -/
def Obligations.BlockResetClearsFaultAndDevices : Prop :=
  ∀ (s : State) (rt rd : Bool) (rest : List Input), s.held = none →
    s.inputs = .host (.resetBlock rt rd) :: rest →
    ∃ q x y, step s = .next { s with inputs := rest, regs := q, tapeData := x, diskData := y, fault := 0#8 } ∧
      (∀ d, q.get d = { curPage := 0, busyUntil := 0 }) ∧
      (∀ m, s.tapeStore = some m → rt = true → x = m) ∧
      (s.tapeStore = none ∨ rt = false → ∀ a, Memory.read x a = Word.zero) ∧
      (∀ m, s.diskStore = some m → rd = true → y = m) ∧
      (s.diskStore = none ∨ rd = false → ∀ a, Memory.read y a = Word.zero)

/-- 10_state.md R40: the reset state: cursors and `busyUntil` 0 on all variants, `FAULT` 0, both mirrors all `ZERO`
(the stores of the reset environment are absent, log 4), so no device is busy at any time. -/
def Obligations.ResetStateHasTheResetValues : Prop :=
  (∀ d, State.reset.regs.get d = { curPage := 0, busyUntil := 0 }) ∧ State.reset.fault = 0#8 ∧
  (∀ a, Memory.read State.reset.tapeData a = Word.zero ∧ Memory.read State.reset.diskData a = Word.zero) ∧
  ∀ (j : Instr × Device) (n : Time), j ∈ busyCommands →
    exec j.1 { State.reset with port := { State.reset.port with now := n } } =
      .next { State.reset with port := { State.reset.port with now := n }, response := some (.done false none) }

/-- The reset state meets the invariant of the machine. -/
def Obligations.ResetMeetsTheInvariant : Prop := State.reset.Inv

/-- The invariant of the machine is kept by every step, whatever the channel and the host do: mirrors, stores and
buffer stay canonical and within their sizes (10_state.md R39 (3)), record stores canonical, `FAULT` a legal
value (R28), and a held command is as 20_memory.md R59 says. -/
def Obligations.EveryStepKeepsTheInvariant : Prop :=
  ∀ s t : State, s.Inv → step s = .next t → t.Inv

/-- 70_reset_and_hazards.md R279 with 10_state.md R31: with nothing presented the block stays as it is, and what the
host or the channel does between commands changes the one resource named and nothing else: the source grows at
its end, the file, the records or the buffer are what was given. Card devices on two directories stay on two and
the other one's records are as before; on one shared directory they stay on one (20_memory.md R56). -/
def Obligations.OutsideChangesReachOneResource : Prop :=
  ∀ (s : State) (rest : List Input), s.held = none →
    (s.inputs = [] → step s = .next s) ∧
    (∀ bytes, s.inputs = .host (.appendSource bytes) :: rest →
      step s = .next { s with inputs := rest, source := s.source ++ bytes }) ∧
    (∀ file, s.inputs = .host (.setPaperFile file) :: rest → step s = .next { s with inputs := rest, paperFile := file }) ∧
    (∀ recs, s.inputs = .host (.setReaderCards recs) :: rest →
      ∃ c, step s = .next { s with inputs := rest, cards := c } ∧ (∀ p, RecMap.find c.reader p = RecMap.find recs p) ∧
        (∀ x y, s.cards = .separate x y → c = .separate c.reader y) ∧
        (∀ x, s.cards = .shared x → c = .shared c.reader)) ∧
    (∀ recs, s.inputs = .host (.setWriterCards recs) :: rest →
      ∃ c, step s = .next { s with inputs := rest, cards := c } ∧ (∀ p, RecMap.find c.writer p = RecMap.find recs p) ∧
        (∀ x y, s.cards = .separate x y → c = .separate x c.writer) ∧
        (∀ x, s.cards = .shared x → c = .shared c.writer)) ∧
    (∀ cells, s.inputs = .supplyBuffer cells :: rest → (∀ x ∈ cells, x.1 < bufWords s.params) →
      ∃ b, step s = .next { s with inputs := rest, buf := b } ∧ Memory.wf (bufWords s.params) b ∧
        ∀ a, Memory.read b a = Memory.read cells a)

/-- 20_memory.md R55, R52 (D21, U6): the only steps that are refused are those in which the host presents a store,
or the channel a buffer, with a Word beyond its end; no command is ever refused. -/
def Obligations.OnlyWrongLengthsAreRefused : Prop :=
  ∀ (s : State) (e : Refusal), step s = .refused e →
    (∃ cells rest, s.inputs = .supplyBuffer cells :: rest ∧ e = .bufferLength ∧ ∃ c ∈ cells, bufWords s.params ≤ c.1) ∨
    (∃ cells rest, s.inputs = .host (.setTapeStore (some cells)) :: rest ∧ e = .storeLength ∧
      ∃ c ∈ cells, mirrorWords s.params .tape ≤ c.1) ∨
    (∃ cells rest, s.inputs = .host (.setDiskStore (some cells)) :: rest ∧ e = .storeLength ∧
      ∃ c ∈ cells, mirrorWords s.params .disk ≤ c.1)

/-- 10_state.md R25, R26, R39 (2), 70_reset_and_hazards.md R267: no step, whatever the channel and the host do,
changes a size, a latency constant, the codec or `LAT_TW`. -/
def Obligations.EveryStepKeepsTheParameters : Prop :=
  ∀ s t : State, step s = .next t → t.params = s.params ∧ t.codec = s.codec ∧ t.latTw = s.latTw

/-- 70_reset_and_hazards.md R260, R262 with 20_memory.md R56: a card device constructed alone has its two registers
0 and stands on the directory it is given, the other's or one of its own; the other card device keeps its
registers and its records, and nothing else changes. Constructed together on given directories, both have their
registers 0. That a directory of its own comes with the records the host says it holds is log 18, that `FAULT`
stays log 13. -/
def Obligations.CardDevicesAreConstructedOnDirectories : Prop :=
  ∀ (s : State) (rest : List Input), s.held = none →
    (∀ dir, s.inputs = .host (.constructReader dir) :: rest →
      ∃ q c, step s = .next { s with inputs := rest, regs := q, cards := c } ∧
        q.get .cardReader = { curPage := 0, busyUntil := 0 } ∧ OnlyDevice .cardReader s.regs q ∧
        (dir = .others → c = .shared s.cards.writer) ∧
        ∀ recs, dir = .own recs → ∃ x, c = .separate x s.cards.writer ∧ ∀ p, RecMap.find x p = RecMap.find recs p) ∧
    (∀ dir, s.inputs = .host (.constructWriter dir) :: rest →
      ∃ q c, step s = .next { s with inputs := rest, regs := q, cards := c } ∧
        q.get .cardWriter = { curPage := 0, busyUntil := 0 } ∧ OnlyDevice .cardWriter s.regs q ∧
        (dir = .others → c = .shared s.cards.reader) ∧
        ∀ recs, dir = .own recs → ∃ y, c = .separate s.cards.reader y ∧ ∀ p, RecMap.find y p = RecMap.find recs p) ∧
    ∀ stores, s.inputs = .host (.attachCards stores) :: rest →
      ∃ q c, step s = .next { s with inputs := rest, regs := q, cards := c } ∧
        q.get .cardReader = { curPage := 0, busyUntil := 0 } ∧ q.get .cardWriter = { curPage := 0, busyUntil := 0 } ∧
        (∀ d, d ≠ .cardReader → d ≠ .cardWriter → q.get d = s.regs.get d) ∧
        (∀ p, RecMap.find c.reader p = RecMap.find stores.reader p ∧ RecMap.find c.writer p = RecMap.find stores.writer p) ∧
        ((∃ x, stores = .shared x) ↔ ∃ x, c = .shared x)
end

