-- ==== Sys2Proof/Laws/Memory.lean ====
section
/-! SUPPORT. The laws of the memories of Words and of the record stores: read after write, every
operation keeps the canonical form, and equal contents are equal lists. -/

namespace Sys2Proof.Machine

theorem Memory.wf_nil (n : Nat) : Memory.wf n [] := ⟨List.Pairwise.nil, by simp⟩

theorem Memory.wf_tail {n : Nat} {c : Nat × Word} {m : Memory} (h : Memory.wf n (c :: m)) : Memory.wf n m :=
  ⟨h.1.tail, fun x hx => h.2 x (List.mem_cons_of_mem _ hx)⟩

theorem Memory.wf_mono {n k : Nat} {m : Memory} (h : Memory.wf n m) (hk : n ≤ k) : Memory.wf k m :=
  ⟨h.1, fun x hx => ⟨lt_of_lt_of_le (h.2 x hx).1 hk, (h.2 x hx).2⟩⟩

/-- An index that no entry has reads as `ZERO`. -/
theorem Memory.read_eq_zero_of_forall_ne {m : Memory} {a : Nat} (h : ∀ c ∈ m, c.1 ≠ a) :
    Memory.read m a = Word.zero := by
  induction m with
  | nil => rfl
  | cons c m ih =>
    obtain ⟨b, w⟩ := c
    have hb : a ≠ b := fun e => h (b, w) (List.mem_cons_self ..) e.symm
    simp only [Memory.read, if_neg hb]
    exact ih fun c hc => h c (List.mem_cons_of_mem _ hc)

/-- In a canonical memory every index beyond its size reads as `ZERO`. -/
theorem Memory.read_beyond {n : Nat} {m : Memory} (h : Memory.wf n m) {a : Nat} (ha : n ≤ a) :
    Memory.read m a = Word.zero :=
  Memory.read_eq_zero_of_forall_ne fun c hc => by have := (h.2 c hc).1; omega

/-- The indices of a memory after a write are its old ones and the one written. -/
theorem Memory.mem_write {m : Memory} {a : Nat} {w : Word} {c : Nat × Word} (h : c ∈ Memory.write m a w) :
    c ∈ m ∨ (c = (a, w) ∧ w ≠ Word.zero) := by
  induction m with
  | nil =>
    simp only [Memory.write] at h
    split at h
    · cases h
    · rename_i hw; simp at h; exact Or.inr ⟨h, hw⟩
  | cons x m ih =>
    obtain ⟨b, y⟩ := x
    simp only [Memory.write] at h
    split at h
    · split at h
      · exact Or.inl h
      · rename_i hw
        rcases List.mem_cons.1 h with h | h
        · exact Or.inr ⟨h, hw⟩
        · exact Or.inl h
    · split at h
      · split at h
        · exact Or.inl (List.mem_cons_of_mem _ h)
        · rename_i hw
          rcases List.mem_cons.1 h with h | h
          · exact Or.inr ⟨h, hw⟩
          · exact Or.inl (List.mem_cons_of_mem _ h)
      · rcases List.mem_cons.1 h with h | h
        · exact Or.inl (h ▸ List.mem_cons_self ..)
        · rcases ih h with h | h
          · exact Or.inl (List.mem_cons_of_mem _ h)
          · exact Or.inr h

/-- A write keeps the canonical form. -/
theorem Memory.wf_write {n : Nat} {m : Memory} (h : Memory.wf n m) {a : Nat} (ha : a < n) (w : Word) :
    Memory.wf n (Memory.write m a w) := by
  refine ⟨?_, fun c hc => ?_⟩
  · induction m with
    | nil => simp only [Memory.write]; split <;> simp
    | cons x m ih =>
      obtain ⟨b, y⟩ := x
      have hx := List.pairwise_cons.1 h.1
      simp only [Memory.write]
      split
      · split
        · exact h.1
        · rename_i hab _
          refine List.pairwise_cons.2 ⟨fun c hc => ?_, h.1⟩
          rcases List.mem_cons.1 hc with hc | hc
          · subst hc; exact hab
          · exact lt_trans hab (hx.1 c hc)
      · split
        · rename_i hab
          split
          · exact hx.2
          · exact List.pairwise_cons.2 ⟨fun c hc => by subst hab; exact hx.1 c hc, hx.2⟩
        · rename_i hab hne
          refine List.pairwise_cons.2 ⟨fun c hc => ?_, ih (Memory.wf_tail h)⟩
          rcases Memory.mem_write hc with hc | ⟨hc, -⟩
          · exact hx.1 c hc
          · subst hc; show b < a; omega
  · rcases Memory.mem_write hc with hc | ⟨hc, hw⟩
    · exact h.2 c hc
    · subst hc; exact ⟨ha, hw⟩

/-- Read after write, in a canonical memory. -/
theorem Memory.read_write {n : Nat} {m : Memory} (h : Memory.wf n m) (a : Nat) (w : Word) (c : Nat) :
    Memory.read (Memory.write m a w) c = if c = a then w else Memory.read m c := by
  induction m with
  | nil =>
    simp only [Memory.write]
    split <;> simp_all [Memory.read]
  | cons x m ih =>
    obtain ⟨b, y⟩ := x
    have hx := List.pairwise_cons.1 h.1
    simp only [Memory.write]
    split
    · rename_i hab
      have hza : Memory.read ((b, y) :: m) a = Word.zero := by
        refine Memory.read_eq_zero_of_forall_ne fun e he => ?_
        rcases List.mem_cons.1 he with he | he
        · subst he; show b ≠ a; omega
        · have := hx.1 e he; simp only at this; omega
      split
      · rename_i hw
        split
        · rename_i hc; rw [hc, hza, hw]
        · rfl
      · simp only [Memory.read]
    · split
      · rename_i hab
        subst hab
        split
        · rename_i hw
          split
          · rename_i hc
            subst hc
            rw [hw]
            exact Memory.read_eq_zero_of_forall_ne fun e he => by have := hx.1 e he; simp only at this; omega
          · rename_i hc; simp [Memory.read, hc]
        · simp only [Memory.read]; split <;> rfl
      · rename_i hab hne
        simp only [Memory.read, ih (Memory.wf_tail h)]
        by_cases hcb : c = b
        · have : c ≠ a := by omega
          simp [hcb, show b ≠ a by omega]
        · simp [hcb]

@[simp] theorem memRead_length (m : Memory) (a n : Nat) : (memRead m a n).length = n := by simp [memRead]

theorem memRead_getD (m : Memory) (a n i : Nat) (hi : i < n) :
    (memRead m a n).getD i Word.zero = Memory.read m (a + i) := by
  simp [memRead, List.getD, hi]

/-- `MemWrite` keeps the canonical form. -/
theorem wf_memWrite {n : Nat} {m : Memory} (h : Memory.wf n m) (v : List Word) {a : Nat} (ha : a + v.length ≤ n) :
    Memory.wf n (memWrite m a v) := by
  induction v generalizing m a with
  | nil => exact h
  | cons w v ih =>
    simp only [List.length_cons] at ha
    exact ih (Memory.wf_write h (by omega) w) (by omega)

/-- What a memory holds after `MemWrite`: the list from `a` on, everything else as before. -/
theorem read_memWrite {n : Nat} {m : Memory} (h : Memory.wf n m) (v : List Word) {a : Nat} (ha : a + v.length ≤ n)
    (c : Nat) :
    Memory.read (memWrite m a v) c =
      if a ≤ c ∧ c < a + v.length then v.getD (c - a) Word.zero else Memory.read m c := by
  induction v generalizing m a with
  | nil => simp only [memWrite, List.length_nil]; rw [if_neg (by omega)]
  | cons w v ih =>
    simp only [List.length_cons] at ha ⊢
    rw [memWrite, ih (Memory.wf_write h (by omega) w) (by omega), Memory.read_write h]
    by_cases hc : c = a
    · subst hc
      rw [if_neg (by omega), if_pos rfl, if_pos (by omega)]; simp
    · by_cases hr : a + 1 ≤ c ∧ c < a + 1 + v.length
      · rw [if_pos hr, if_pos (by omega), show c - a = (c - (a + 1)) + 1 by omega]; simp
      · rw [if_neg hr, if_neg hc, if_neg (by omega)]

/-- The canonical memory of cells that fit is canonical. -/
theorem wf_memOfCells {n : Nat} {cells : Memory} (h : ∀ c ∈ cells, c.1 < n) : Memory.wf n (memOfCells cells) := by
  induction cells with
  | nil => exact Memory.wf_nil n
  | cons c cells ih =>
    exact Memory.wf_write (ih fun x hx => h x (List.mem_cons_of_mem _ hx)) (h c (List.mem_cons_self ..)) c.2

/-- The canonical memory of listed cells reads as the list does: the first cell of an index counts. -/
theorem read_memOfCells (cells : Memory) (a : Nat) : Memory.read (memOfCells cells) a = Memory.read cells a := by
  induction cells with
  | nil => rfl
  | cons c cells ih =>
    obtain ⟨b, w⟩ := c
    have hwf : ∃ n, ∀ x ∈ cells, x.1 < n := by
      refine ⟨(cells.map Prod.fst).sum + 1, fun x hx => ?_⟩
      have := List.single_le_sum (l := cells.map Prod.fst) (fun _ _ => Nat.zero_le _) x.1 (List.mem_map_of_mem hx)
      omega
    obtain ⟨n, hn⟩ := hwf
    show Memory.read (Memory.write (memOfCells cells) b w) a = _
    rw [Memory.read_write (wf_memOfCells hn), ih]
    rfl

/-- Two canonical memories with the same Words are the same list. -/
theorem Memory.ext_of_wf {n : Nat} {m m' : Memory} (h : Memory.wf n m) (h' : Memory.wf n m')
    (e : ∀ a, Memory.read m a = Memory.read m' a) : m = m' := by
  induction m generalizing m' with
  | nil =>
    cases m' with
    | nil => rfl
    | cons c m' =>
      exfalso
      have := e c.1
      simp only [Memory.read, if_true] at this
      exact (h'.2 c (List.mem_cons_self ..)).2 this.symm
  | cons c m ih =>
    obtain ⟨a, w⟩ := c
    have hw : w ≠ Word.zero := (h.2 (a, w) (List.mem_cons_self ..)).2
    have hp := List.pairwise_cons.1 h.1
    cases m' with
    | nil =>
      exfalso
      have := e a
      simp only [Memory.read, if_true] at this
      exact hw this
    | cons c' m' =>
      obtain ⟨b, x⟩ := c'
      have hx : x ≠ Word.zero := (h'.2 (b, x) (List.mem_cons_self ..)).2
      have hp' := List.pairwise_cons.1 h'.1
      have below : ∀ {k : Nat} {y : Word} {l : Memory}, (∀ c ∈ l, k < c.1) → ∀ i, i < k →
          Memory.read ((k, y) :: l) i = Word.zero := by
        intro k y l hl i hi
        refine Memory.read_eq_zero_of_forall_ne fun c hc => ?_
        rcases List.mem_cons.1 hc with hc | hc
        · subst hc; show k ≠ i; omega
        · have := hl c hc; omega
      have hab : a = b := by
        rcases lt_trichotomy a b with hlt | heq | hgt
        · exfalso
          have h1 := e a
          rw [below hp'.1 a hlt] at h1
          simp only [Memory.read, if_true] at h1
          exact hw h1
        · exact heq
        · exfalso
          have h1 := e b
          rw [below hp.1 b hgt] at h1
          simp only [Memory.read, if_true] at h1
          exact hx h1.symm
      subst hab
      have hwx : w = x := by have := e a; simpa [Memory.read] using this
      subst hwx
      have ht : m = m' := by
        refine ih (Memory.wf_tail h) (Memory.wf_tail h') fun i => ?_
        by_cases hi : i = a
        · subst hi
          rw [Memory.read_eq_zero_of_forall_ne fun c hc => ?_, Memory.read_eq_zero_of_forall_ne fun c hc => ?_]
          · have := hp'.1 c hc; simp only at this; omega
          · have := hp.1 c hc; simp only at this; omega
        · have := e i
          simpa [Memory.read, hi] using this
      rw [ht]

/-- A later `MemWrite` of at least as many Words covers an earlier one at the same place. -/
theorem memWrite_covers {n : Nat} {m : Memory} (h : Memory.wf n m) (v v' : List Word) {a : Nat}
    (hv : v.length ≤ v'.length) (ha : a + v'.length ≤ n) : memWrite (memWrite m a v) a v' = memWrite m a v' := by
  have h1 := wf_memWrite h v (a := a) (by omega)
  refine Memory.ext_of_wf (wf_memWrite h1 v' ha) (wf_memWrite h v' ha) fun c => ?_
  rw [read_memWrite h1 v' ha, read_memWrite h v' ha]
  split
  · rfl
  · rename_i hc
    rw [read_memWrite h v (by omega), if_neg (by omega)]

/-! ### Record stores -/

theorem RecMap.find_put (m : RecMap) (p : Nat) (bs : List Char8) (q : Nat) :
    RecMap.find (RecMap.put m p bs) q = if q = p then some bs else RecMap.find m q := by
  induction m with
  | nil => simp [RecMap.put, RecMap.find]
  | cons c m ih =>
    obtain ⟨r, x⟩ := c
    simp only [RecMap.put]
    split
    · simp only [RecMap.find]
    · split
      · rename_i h; subst h; simp only [RecMap.find]; split <;> rfl
      · rename_i h1 h2
        simp only [RecMap.find, ih]
        by_cases hq : q = r
        · simp [hq, show r ≠ p by omega]
        · simp [hq]

theorem RecMap.mem_put {m : RecMap} {p : Nat} {bs : List Char8} {c : Nat × List Char8}
    (h : c ∈ RecMap.put m p bs) : c ∈ m ∨ c = (p, bs) := by
  induction m with
  | nil => simp only [RecMap.put, List.mem_singleton] at h; exact Or.inr h
  | cons x m ih =>
    obtain ⟨r, y⟩ := x
    simp only [RecMap.put] at h
    split at h
    · rcases List.mem_cons.1 h with h | h
      · exact Or.inr h
      · exact Or.inl h
    · split at h
      · rcases List.mem_cons.1 h with h | h
        · exact Or.inr h
        · exact Or.inl (List.mem_cons_of_mem _ h)
      · rcases List.mem_cons.1 h with h | h
        · exact Or.inl (h ▸ List.mem_cons_self ..)
        · exact (ih h).imp (List.mem_cons_of_mem _) id

/-- `RecWrite` keeps the canonical form. -/
theorem RecMap.wf_put {m : RecMap} (h : RecMap.wf m) (p : Nat) (bs : List Char8) : RecMap.wf (RecMap.put m p bs) := by
  induction m with
  | nil => simp [RecMap.put, RecMap.wf]
  | cons x m ih =>
    obtain ⟨r, y⟩ := x
    have hx := List.pairwise_cons.1 h
    simp only [RecMap.put]
    split
    · rename_i hpr
      refine List.pairwise_cons.2 ⟨fun c hc => ?_, h⟩
      rcases List.mem_cons.1 hc with hc | hc
      · subst hc; exact hpr
      · exact lt_trans hpr (hx.1 c hc)
    · split
      · rename_i hpr
        exact List.pairwise_cons.2 ⟨fun c hc => by subst hpr; exact hx.1 c hc, hx.2⟩
      · refine List.pairwise_cons.2 ⟨fun c hc => ?_, ih hx.2⟩
        rcases RecMap.mem_put hc with hc | hc
        · exact hx.1 c hc
        · subst hc; show r < p; omega

theorem wf_recMapOfList (cards : RecMap) : RecMap.wf (recMapOfList cards) := by
  induction cards with
  | nil => exact List.Pairwise.nil
  | cons c cards ih => exact RecMap.wf_put ih c.1 c.2

/-- The canonical record store of listed records reads as the list does: the first record of a page counts. -/
theorem find_recMapOfList (cards : RecMap) (p : Nat) : RecMap.find (recMapOfList cards) p = RecMap.find cards p := by
  induction cards with
  | nil => rfl
  | cons c cards ih =>
    obtain ⟨q, bs⟩ := c
    show RecMap.find (RecMap.put (recMapOfList cards) q bs) p = _
    rw [RecMap.find_put, ih]
    rfl

end Sys2Proof.Machine
end

