-- ==== Sys2Proof/Laws/Codec.lean ====
section
/-! SUPPORT. The laws of the transcoding primitives and of the four stream formats: fields and `pack`, where
a character stands in a record, a line and a tape, and what the typewriter's scan reads. -/

namespace Sys2Proof.Machine

@[simp] theorem encodeMS_length (c : Codec) (w : Word) : (encodeMS c w).length = 5 := rfl

@[simp] theorem encodeLS_length (c : Codec) (w : Word) : (encodeLS c w).length = 5 := rfl

theorem encodeMS_getElem? (c : Codec) (w : Word) (k : Fin 5) :
    (encodeMS c w)[k.val]? = some (toChar c (field w k)) := by
  fin_cases k <;> rfl

theorem encodeLS_getElem? (c : Codec) (w : Word) (k : Fin 5) :
    (encodeLS c w)[k.val]? = some (toChar c (field w k.rev)) := by
  fin_cases k <;> rfl

theorem field_toNat (w : Word) (k : Fin 5) : (field w k).toNat = w.data.toNat / 64 ^ (4 - k.val) % 64 := by
  fin_cases k <;> simp [field, BitVec.extractLsb'_toNat, Nat.shiftRight_eq_div_pow]

theorem toNat_append_add {m n : Nat} (x : BitVec m) (y : BitVec n) : (x ++ y).toNat = x.toNat * 2 ^ n + y.toNat := by
  rw [BitVec.toNat_append, ← Nat.shiftLeft_add_eq_or_of_lt y.isLt, Nat.shiftLeft_eq]

/-- The number a bus Word is (R21). -/
theorem wordToBus_toNat (w : Word) :
    (wordToBus w).toNat = (match w.sign with | .pos => 0 | .neg => 2 ^ 30) + w.data.toNat := by
  obtain ⟨s, d⟩ := w
  cases s
  · show (0#1 ++ d : BitVec (1 + 30)).toNat = _
    rw [toNat_append_add]; simp
  · show (1#1 ++ d : BitVec (1 + 30)).toNat = _
    rw [toNat_append_add]; simp

/-- The magnitude `pack` makes (R102). -/
theorem pack_toNat (f0 f1 f2 f3 f4 : Code6) :
    (pack f0 f1 f2 f3 f4).data.toNat =
      f0.toNat * 2 ^ 24 + f1.toNat * 2 ^ 18 + f2.toNat * 2 ^ 12 + f3.toNat * 2 ^ 6 + f4.toNat := by
  show (f0 ++ f1 ++ f2 ++ f3 ++ f4 : BitVec (6 + 6 + 6 + 6 + 6)).toNat = _
  simp only [toNat_append_add]
  omega

theorem field_pack (f : Fin 5 → Code6) (k : Fin 5) : field (pack (f 0) (f 1) (f 2) (f 3) (f 4)) k = f k := by
  apply BitVec.eq_of_toNat_eq
  rw [field_toNat, pack_toNat]
  have := (f 0).isLt
  have := (f 1).isLt
  have := (f 2).isLt
  have := (f 3).isLt
  have := (f 4).isLt
  fin_cases k <;> simp <;> omega

/-- Two Words with the same sign and the same five fields are equal. -/
theorem word_ext_fields {w v : Word} (hs : w.sign = v.sign) (h : ∀ k, field w k = field v k) : w = v := by
  obtain ⟨sw, dw⟩ := w
  obtain ⟨sv, dv⟩ := v
  simp only at hs
  subst hs
  congr 1
  apply BitVec.eq_of_toNat_eq
  have h0 := congrArg BitVec.toNat (h 0)
  have h1 := congrArg BitVec.toNat (h 1)
  have h2 := congrArg BitVec.toNat (h 2)
  have h3 := congrArg BitVec.toNat (h 3)
  have h4 := congrArg BitVec.toNat (h 4)
  rw [field_toNat, field_toNat] at h0 h1 h2 h3 h4
  have := dw.isLt
  have := dv.isLt
  simp at h0 h1 h2 h3 h4
  omega

/-- In a concatenation of pieces of one length, the `a`-th piece stands at `a` times that length. -/
theorem getElem?_flatMap_range {α : Type} (f : Nat → List α) (c : Nat) (hf : ∀ a, (f a).length = c) (n a k : Nat)
    (ha : a < n) (hk : k < c) : ((List.range n).flatMap f)[a * c + k]? = (f a)[k]? := by
  induction n with
  | zero => omega
  | succ n ih =>
    have hl : ∀ m, ((List.range m).flatMap f).length = m * c := by
      intro m
      induction m with
      | zero => simp
      | succ m ihm => rw [List.range_succ, List.flatMap_append, List.length_append, ihm]; simp [hf]; ring
    rw [List.range_succ, List.flatMap_append]
    by_cases h : a < n
    · rw [List.getElem?_append_left, ih h]
      rw [hl]
      calc a * c + k < a * c + c := by omega
        _ = (a + 1) * c := by ring
        _ ≤ n * c := Nat.mul_le_mul_right c (by omega)
    · have : a = n := by omega
      subst this
      rw [List.getElem?_append_right (by rw [hl]; omega), hl]
      simp

theorem length_flatMap_range {α : Type} (f : Nat → List α) (c : Nat) (hf : ∀ a, (f a).length = c) (n : Nat) :
    ((List.range n).flatMap f).length = n * c := by
  induction n with
  | zero => simp
  | succ m ihm => rw [List.range_succ, List.flatMap_append, List.length_append, ihm]; simp [hf]; ring

/-- The print line (44_console.md R184): five bytes a Word, character `k` of Word `j` at `5j + k`, then `NL`. -/
theorem printLine_length (p : Params) (c : Codec) (b : Memory) :
    (printLine p c b).length = 5 * p.linePrinter.blockSize + 1 := by
  rw [printLine, List.length_append, length_flatMap_range _ 5 (fun a => encodeMS_length c _), List.length_singleton,
    Nat.mul_comm]

theorem printLine_char (p : Params) (c : Codec) (b : Memory) {j : Nat} (hj : j < p.linePrinter.blockSize) (k : Fin 5) :
    (printLine p c b)[5 * j + k.val]? = some (toChar c (field (Memory.read b j) k)) := by
  have hk := k.isLt
  rw [printLine, List.getElem?_append_left, show 5 * j + k.val = j * 5 + k.val by ring,
    getElem?_flatMap_range _ 5 (fun a => encodeMS_length c _) _ _ _ hj hk, encodeMS_getElem?]
  rw [length_flatMap_range _ 5 (fun a => encodeMS_length c _)]
  omega

theorem printLine_last (p : Params) (c : Codec) (b : Memory) :
    (printLine p c b)[5 * p.linePrinter.blockSize]? = some c.nl := by
  rw [printLine, List.getElem?_append_right, length_flatMap_range _ 5 (fun a => encodeMS_length c _), Nat.mul_comm,
    Nat.sub_self]
  · rfl
  · rw [length_flatMap_range _ 5 (fun a => encodeMS_length c _), Nat.mul_comm]

/-- The paper-tape file (45_papertape.md R204): five bytes for every Word of every block, no separators, field 4
first. -/
theorem punchTape_length (p : Params) (c : Codec) (b : Memory) :
    (punchTape p c b).length = p.paperTape.numBlocks * (p.paperTape.blockSize * 5) :=
  length_flatMap_range _ _ (fun _ => length_flatMap_range _ 5 (fun _ => encodeLS_length c _) _) _

theorem punchTape_char (p : Params) (c : Codec) (b : Memory) {i j : Nat} (hi : i < p.paperTape.numBlocks)
    (hj : j < p.paperTape.blockSize) (k : Fin 5) :
    (punchTape p c b)[(i * p.paperTape.blockSize + j) * 5 + k.val]? =
      some (toChar c (field (Memory.read b (i * p.paperTape.blockSize + j)) k.rev)) := by
  have hk := k.isLt
  rw [punchTape, show (i * p.paperTape.blockSize + j) * 5 + k.val = i * (p.paperTape.blockSize * 5) + (j * 5 + k.val) by ring,
    getElem?_flatMap_range _ _ (fun _ => length_flatMap_range _ 5 (fun _ => encodeLS_length c _) _) _ _ _ hi (by omega),
    getElem?_flatMap_range _ 5 (fun _ => encodeLS_length c _) _ _ _ hj hk, encodeLS_getElem?]

/-! ### The card record -/

theorem groupBreak_iff (j : Nat) : groupBreak j = true ↔ j % 4 = 0 ∧ j ≠ 0 := by simp [groupBreak]

theorem cardImage_succ (c : Codec) (b : Memory) (n : Nat) : cardImage c b (n + 1) = cardImage c b n ++ cardGroup c b n := by
  simp [cardImage, List.range_succ]

/-- A group is its five characters, after one newline where the trigger holds. -/
theorem cardGroup_cases (c : Codec) (b : Memory) (j : Nat) :
    (j % 4 = 0 ∧ j ≠ 0 ∧ cardGroup c b j = c.nl :: encodeMS c (Memory.read b j)) ∨
    (¬ (j % 4 = 0 ∧ j ≠ 0) ∧ cardGroup c b j = encodeMS c (Memory.read b j)) := by
  by_cases h : groupBreak j = true
  · exact Or.inl ⟨((groupBreak_iff j).1 h).1, ((groupBreak_iff j).1 h).2, by simp [cardGroup, h]⟩
  · exact Or.inr ⟨fun hc => h ((groupBreak_iff j).2 hc), by simp [cardGroup, h]⟩

/-- Five bytes a Word and one newline before every fourth but the first (43_card.md R168). -/
theorem cardImage_length (c : Codec) (b : Memory) (n : Nat) : (cardImage c b n).length = 5 * n + (n - 1) / 4 := by
  induction n with
  | zero => rfl
  | succ n ih =>
    rw [cardImage_succ, List.length_append, ih]
    obtain ⟨h1, h2, h⟩ | ⟨h1, h⟩ := cardGroup_cases c b n <;> rw [h] <;> simp <;> omega

/-- Character `c(j, k)` of R168 stands at `5j + j/4 + k`. -/
theorem cardImage_char (c : Codec) (b : Memory) {n j : Nat} (hj : j < n) (k : Fin 5) :
    (cardImage c b n)[5 * j + j / 4 + k.val]? = some (toChar c (field (Memory.read b j) k)) := by
  have hk := k.isLt
  induction n with
  | zero => omega
  | succ n ih =>
    rw [cardImage_succ]
    by_cases h : j < n
    · rw [List.getElem?_append_left (by rw [cardImage_length]; omega), ih h]
    · have hjn : j = n := by omega
      subst hjn
      rw [List.getElem?_append_right (by rw [cardImage_length]; omega), cardImage_length, ← encodeMS_getElem?]
      obtain ⟨h1, h2, hg⟩ | ⟨h1, hg⟩ := cardGroup_cases c b j <;> rw [hg]
      · rw [show 5 * j + j / 4 + k.val - (5 * j + (j - 1) / 4) = k.val + 1 by omega, List.getElem?_cons_succ]
      · rw [show 5 * j + j / 4 + k.val - (5 * j + (j - 1) / 4) = k.val by omega]

/-- The newlines of R168. -/
theorem cardImage_newline (c : Codec) (b : Memory) {n j : Nat} (hj : j < n) (h4 : j % 4 = 0) (h0 : 0 < j) :
    (cardImage c b n)[5 * j + j / 4 - 1]? = some c.nl := by
  induction n with
  | zero => omega
  | succ n ih =>
    rw [cardImage_succ]
    by_cases h : j < n
    · rw [List.getElem?_append_left (by rw [cardImage_length]; omega), ih h]
    · have hjn : j = n := by omega
      subst hjn
      rw [List.getElem?_append_right (by rw [cardImage_length]; omega), cardImage_length]
      obtain ⟨-, -, hg⟩ | ⟨h1, -⟩ := cardGroup_cases c b j
      · rw [hg, show 5 * j + j / 4 - 1 - (5 * j + (j - 1) / 4) = 0 by omega]; rfl
      · exact absurd ⟨h4, by omega⟩ h1

/-- With one block the record is one pass. -/
theorem cardRecord_eq {p : Params} (h : p.cardWriter.numBlocks = 1) (c : Codec) (b : Memory) :
    cardRecord p c b = cardImage c b p.cardWriter.blockSize := by
  rw [cardRecord, h]
  simp

/-- The reader's loop gives as many Words as it is asked for, and Word `j` begins at byte position `5j + j/4`. -/
theorem cardWords_length (c : Codec) (rec : List Char8) (j p n : Nat) : (cardWords c rec j p n).length = n := by
  induction n generalizing j p with
  | zero => rfl
  | succ n ih =>
    rw [cardWords]
    split <;> simp [ih]

theorem cardWords_getD (c : Codec) (rec : List Char8) (j : Nat) {n i : Nat} (hi : i < n) :
    (cardWords c rec j (5 * j + (j - 1) / 4) n).getD i Word.zero = cardWord c rec (5 * (j + i) + (j + i) / 4) := by
  induction n generalizing j i with
  | zero => omega
  | succ n ih =>
    have key : cardWords c rec j (5 * j + (j - 1) / 4) (n + 1) =
        cardWord c rec (5 * j + j / 4) :: cardWords c rec (j + 1) (5 * (j + 1) + (j + 1 - 1) / 4) n := by
      rw [cardWords]
      split
      · rename_i h
        have := (groupBreak_iff j).1 h
        rw [show 5 * j + (j - 1) / 4 + 1 = 5 * j + j / 4 by omega,
          show 5 * j + (j - 1) / 4 + 6 = 5 * (j + 1) + (j + 1 - 1) / 4 by omega]
      · rename_i h
        have : ¬ (j % 4 = 0 ∧ j ≠ 0) := fun hc => h ((groupBreak_iff j).2 hc)
        rw [show 5 * j + (j - 1) / 4 = 5 * j + j / 4 by omega,
          show 5 * j + j / 4 + 5 = 5 * (j + 1) + (j + 1 - 1) / 4 by omega]
    rw [key]
    cases i with
    | zero => rfl
    | succ i => rw [List.getD_cons_succ, ih (j + 1) (by omega), show j + 1 + i = j + (i + 1) by omega]

theorem decodeCard_length (p : Params) (c : Codec) (rec : List Char8) :
    (decodeCard p c rec).length = p.cardReader.blockSize := cardWords_length c rec 0 0 _

theorem decodeCard_getD (p : Params) (c : Codec) (rec : List Char8) {j : Nat} (hj : j < p.cardReader.blockSize) :
    (decodeCard p c rec).getD j Word.zero = cardWord c rec (5 * j + j / 4) := by
  rw [decodeCard]
  simpa using cardWords_getD c rec 0 hj

theorem cardWord_field (c : Codec) (rec : List Char8) (p : Nat) (k : Fin 5) :
    field (cardWord c rec p) k = cardCode c rec (p + k.val) :=
  (field_pack (fun k => cardCode c rec (p + k.val)) k)

/-! ### The typewriter -/

theorem twWord_field (codes : List Code6) (j : Nat) (k : Fin 5) :
    field (twWord codes j) k = codes.getD (5 * j + k.val) 0 :=
  (field_pack (fun k => codes.getD (5 * j + k.val) 0) k)

theorem twWord_sign (codes : List Code6) (j : Nat) : (twWord codes j).sign = .pos := rfl

@[simp] theorem twWords_length (codes : List Code6) (n : Nat) : (twWords codes n).length = n := by simp [twWords]

theorem twWords_getD (codes : List Code6) {n j : Nat} (hj : j < n) :
    (twWords codes n).getD j Word.zero = twWord codes j := by
  simp [twWords, List.getD, hj]

/-- A Word beyond the codes is `ZERO`. -/
theorem twWord_beyond (codes : List Code6) {j : Nat} (h : codes.length ≤ 5 * j) : twWord codes j = Word.zero := by
  simp only [twWord, List.getD_eq_getElem?_getD]
  rw [List.getElem?_eq_none h, List.getElem?_eq_none (by omega), List.getElem?_eq_none (by omega),
    List.getElem?_eq_none (by omega), List.getElem?_eq_none (by omega)]
  rfl

theorem twChars_eq (p : Params) : twChars p = 5 * p.typeWriter.blockSize := Nat.mul_comm _ _

/-- The scan reads codes for as long as bytes have them and fewer than `n` are read. -/
theorem twScan_append {n : Nat} {c : Codec} {pre : List Char8} {vals : List Code6} (h : pre.map (toVal c) = vals.map some)
    (codes : List Code6) (post : List Char8) (hl : codes.length + pre.length ≤ n) :
    twScan n c codes (pre ++ post) = twScan n c (codes ++ vals) post := by
  induction pre generalizing codes vals with
  | nil =>
    have : vals = [] := by simpa using h.symm
    subst this
    simp
  | cons b pre ih =>
    cases vals with
    | nil => simp at h
    | cons v vals =>
      simp only [List.map_cons, List.cons.injEq] at h
      simp only [List.length_cons] at hl
      rw [List.cons_append, twScan, if_neg (by omega), h.1]
      simp only
      rw [ih h.2 (codes ++ [v]) (by simp; omega)]
      simp

theorem twScan_full {n : Nat} (c : Codec) (codes : List Code6) (src : List Char8) (h : n ≤ codes.length) :
    twScan n c codes src = .full codes src := by
  cases src <;> simp [twScan, h]

theorem twScan_escape {n : Nat} {c : Codec} {b : Char8} (codes : List Code6) (rest : List Char8) (hb : toVal c b = none)
    (h : codes.length < n) : twScan n c codes (b :: rest) = .escape codes rest := by
  rw [twScan, if_neg (by omega), hb]

theorem twScan_wait {n : Nat} (c : Codec) (codes : List Code6) (h : codes.length < n) : twScan n c codes [] = .wait codes := by
  rw [twScan, if_neg (by omega)]

/-- Everything the scan can answer. -/
theorem twScan_cases (n : Nat) (c : Codec) (codes : List Code6) (src : List Char8) (hc : codes.length ≤ n) :
    ∃ pre post vals, pre.map (toVal c) = vals.map some ∧ codes.length + pre.length ≤ n ∧
      ((twScan n c codes src = .full (codes ++ vals) post ∧ src = pre ++ post ∧ codes.length + pre.length = n) ∨
       (∃ b, twScan n c codes src = .escape (codes ++ vals) post ∧ src = pre ++ b :: post ∧ toVal c b = none ∧
          codes.length + pre.length < n) ∨
       (twScan n c codes src = .wait (codes ++ vals) ∧ src = pre ∧ codes.length + pre.length < n)) := by
  induction src generalizing codes with
  | nil =>
    by_cases h : codes.length = n
    · exact ⟨[], [], [], rfl, by simpa using hc, Or.inl ⟨by simp [twScan_full (n := n) c codes [] (by omega)], rfl, by simpa using h⟩⟩
    · exact ⟨[], [], [], rfl, by simpa using hc, Or.inr (Or.inr ⟨by simp [twScan_wait (n := n) c codes (by omega)], rfl, by simp; omega⟩)⟩
  | cons b src ih =>
    by_cases h : codes.length = n
    · exact ⟨[], b :: src, [], rfl, by simpa using hc, Or.inl ⟨by simp [twScan_full (n := n) c codes _ (by omega)], rfl, by simpa using h⟩⟩
    · cases hv : toVal c b with
      | none =>
        exact ⟨[], src, [], rfl, by simpa using hc,
          Or.inr (Or.inl ⟨b, by simp [twScan_escape (n := n) codes src hv (by omega)], rfl, hv, by simp; omega⟩)⟩
      | some v =>
        have hs : twScan n c codes (b :: src) = twScan n c (codes ++ [v]) src := by
          rw [twScan, if_neg (by omega), hv]
        obtain ⟨pre, post, vals, hm, hl, hcase⟩ := ih (codes ++ [v]) (by simp; omega)
        simp only [List.length_append, List.length_cons, List.length_nil] at hl hcase
        refine ⟨b :: pre, post, v :: vals, by simp [hv, hm], by simp; omega, ?_⟩
        rw [hs]
        rcases hcase with ⟨h1, h2, h3⟩ | ⟨e, h1, h2, h3, h4⟩ | ⟨h1, h2, h3⟩
        · exact Or.inl ⟨by simpa using h1, by simp [h2], by simp; omega⟩
        · exact Or.inr (Or.inl ⟨e, by simpa using h1, by simp [h2], h3, by simp; omega⟩)
        · exact Or.inr (Or.inr ⟨by simpa using h1, by simp [h2], by simp; omega⟩)

end Sys2Proof.Machine
end

