-- ==== Sys2Proof/Laws/State.lean ====
section
/-! SUPPORT. One lemma per field for each named update of the state, and the laws of the register file:
no later proof unfolds a record update. -/

namespace Sys2Proof.Machine

@[simp] theorem Params.blockSize_tape (p : Params) : p.blockSize .tape = p.tape.blockSize := rfl
@[simp] theorem Params.numBlocks_tape (p : Params) : p.numBlocks .tape = p.tape.numBlocks := rfl
@[simp] theorem Params.blockSize_disk (p : Params) : p.blockSize .disk = p.disk.blockSize := rfl
@[simp] theorem Params.numBlocks_disk (p : Params) : p.numBlocks .disk = p.disk.numBlocks := rfl
@[simp] theorem Params.blockSize_cardReader (p : Params) : p.blockSize .cardReader = p.cardReader.blockSize := rfl
@[simp] theorem Params.numBlocks_cardReader (p : Params) : p.numBlocks .cardReader = p.cardReader.numBlocks := rfl
@[simp] theorem Params.blockSize_cardWriter (p : Params) : p.blockSize .cardWriter = p.cardWriter.blockSize := rfl
@[simp] theorem Params.numBlocks_cardWriter (p : Params) : p.numBlocks .cardWriter = p.cardWriter.numBlocks := rfl
@[simp] theorem Params.blockSize_linePrinter (p : Params) : p.blockSize .linePrinter = p.linePrinter.blockSize := rfl
@[simp] theorem Params.numBlocks_linePrinter (p : Params) : p.numBlocks .linePrinter = p.linePrinter.numBlocks := rfl
@[simp] theorem Params.blockSize_typeWriter (p : Params) : p.blockSize .typeWriter = p.typeWriter.blockSize := rfl
@[simp] theorem Params.numBlocks_typeWriter (p : Params) : p.numBlocks .typeWriter = p.typeWriter.numBlocks := rfl
@[simp] theorem Params.blockSize_paperTape (p : Params) : p.blockSize .paperTape = p.paperTape.blockSize := rfl
@[simp] theorem Params.numBlocks_paperTape (p : Params) : p.numBlocks .paperTape = p.paperTape.numBlocks := rfl
@[simp] theorem Medium.device_tape : Medium.tape.device = .tape := rfl
@[simp] theorem Medium.device_disk : Medium.disk.device = .disk := rfl

theorem mirrorWords_tape (p : Params) : mirrorWords p .tape = p.tape.blockSize * p.tape.numBlocks := rfl

theorem mirrorWords_disk (p : Params) : mirrorWords p .disk = p.disk.blockSize * p.disk.numBlocks := rfl

/-- The longest caller buffer is as long as every device's. -/
theorem bufLen_le_bufWords (p : Params) (d : Device) : bufLen p d ≤ bufWords p := by
  simp only [bufWords, List.foldr]
  cases d <;> omega

theorem bufLen_eq (p : Params) {d : Device} (h : d ≠ .paperTape) : bufLen p d = p.blockSize d := by
  cases d <;> first | rfl | exact absurd rfl h

theorem blockSize_le_bufWords (p : Params) {d : Device} (h : d ≠ .paperTape) : p.blockSize d ≤ bufWords p :=
  bufLen_eq p h ▸ bufLen_le_bufWords p d

/-- What well-formed parameters give: positive sizes and latencies, page counts a cursor holds, one card. -/
theorem Params.wellFormed_iff (p : Params) :
    p.wellFormed = true ↔
      (∀ d, 0 < p.blockSize d ∧ 0 < p.numBlocks d) ∧ p.lat.positive = true ∧ p.tape.numBlocks < 2 ^ 32 ∧
        p.disk.numBlocks < 2 ^ 32 ∧ p.cardWriter.numBlocks = 1 := by
  simp only [Params.wellFormed, Sizes.positive, Bool.and_eq_true, decide_eq_true_eq]
  constructor
  · rintro ⟨⟨⟨⟨⟨⟨⟨⟨h1, h2⟩, h3⟩, h4⟩, h5⟩, h6⟩, h7⟩, hl⟩, hc⟩
    exact ⟨fun d => by cases d <;> assumption, hl, hc⟩
  · rintro ⟨h, hl, hc⟩
    exact ⟨⟨⟨⟨⟨⟨⟨⟨h .tape, h .disk⟩, h .cardReader⟩, h .cardWriter⟩, h .linePrinter⟩, h .typeWriter⟩, h .paperTape⟩, hl⟩, hc⟩

/-- A page in range ends inside its mirror (R39 (3)). -/
theorem page_in_mirror {a k n : Nat} (h : a < n) : a * k + k ≤ k * n := by
  calc a * k + k = (a + 1) * k := by ring
    _ ≤ n * k := Nat.mul_le_mul_right k h
    _ = k * n := Nat.mul_comm n k

@[simp] theorem RegFile.get_set_same (r : RegFile) (d : Device) (v : DevRegs) : (r.set d v).get d = v := by
  cases d <;> rfl

theorem RegFile.get_set_ne (r : RegFile) {d e : Device} (v : DevRegs) (h : e ≠ d) : (r.set d v).get e = r.get e := by
  cases d <;> cases e <;> first | rfl | exact absurd rfl h

@[simp] theorem RegFile.set_set (r : RegFile) (d : Device) (v w : DevRegs) : (r.set d v).set d w = r.set d w := by
  cases d <;> rfl

@[simp] theorem RegFile.set_get (r : RegFile) (d : Device) : r.set d (r.get d) = r := by
  cases d <;> rfl

@[simp] theorem RegFile.reset_get (d : Device) : RegFile.reset.get d = DevRegs.reset := by
  cases d <;> rfl

/-- Two register files that agree on every device are equal. -/
theorem RegFile.ext_get {r q : RegFile} (h : ∀ d, r.get d = q.get d) : r = q := by
  have h0 := h .tape
  have h1 := h .disk
  have h2 := h .cardReader
  have h3 := h .cardWriter
  have h4 := h .linePrinter
  have h5 := h .typeWriter
  have h6 := h .paperTape
  cases r; cases q
  simp only [RegFile.get] at h0 h1 h2 h3 h4 h5 h6
  subst h0 h1 h2 h3 h4 h5 h6
  rfl

theorem State.curPage_eq (s : State) (d : Device) : s.curPage d = (s.regs.get d).curPage := rfl

theorem State.busyUntil_eq (s : State) (d : Device) : s.busyUntil d = (s.regs.get d).busyUntil := rfl

@[simp] theorem State.mirror_tape (s : State) : s.mirror .tape = s.tapeData := rfl

@[simp] theorem State.mirror_disk (s : State) : s.mirror .disk = s.diskData := rfl

@[simp] theorem State.store_tape (s : State) : s.store .tape = s.tapeStore := rfl

@[simp] theorem State.store_disk (s : State) : s.store .disk = s.diskStore := rfl

theorem State.pageBase_tape (s : State) : s.pageBase .tape = (s.regs.get .tape).curPage.toNat * s.params.tape.blockSize := rfl

theorem State.pageBase_disk (s : State) : s.pageBase .disk = (s.regs.get .disk).curPage.toNat * s.params.disk.blockSize := rfl

@[simp] theorem State.setCurPage_regs (s : State) (d : Device) (p : PageNo) :
    (s.setCurPage d p).regs = s.regs.set d { s.regs.get d with curPage := p } := rfl

@[simp] theorem State.setBusyUntil_regs (s : State) (d : Device) (t : Time) :
    (s.setBusyUntil d t).regs = s.regs.set d { s.regs.get d with busyUntil := t } := rfl

@[simp] theorem State.mirror_setMirror (s : State) (m : Medium) (x : Memory) : (s.setMirror m x).mirror m = x := by
  cases m <;> rfl

@[simp] theorem State.store_setStore (s : State) (m : Medium) (x : Option Memory) : (s.setStore m x).store m = x := by
  cases m <;> rfl

@[simp] theorem State.mirror_setStore (s : State) (m k : Medium) (x : Option Memory) :
    (s.setStore m x).mirror k = s.mirror k := by
  cases m <;> cases k <;> rfl

@[simp] theorem State.store_setMirror (s : State) (m k : Medium) (x : Memory) :
    (s.setMirror m x).store k = s.store k := by
  cases m <;> cases k <;> rfl

@[simp] theorem State.setCurPage_codec (s : State) (d : Device) (p : PageNo) : (s.setCurPage d p).codec = s.codec := rfl
@[simp] theorem State.setCurPage_params (s : State) (d : Device) (p : PageNo) : (s.setCurPage d p).params = s.params := rfl
@[simp] theorem State.setCurPage_latTw (s : State) (d : Device) (p : PageNo) : (s.setCurPage d p).latTw = s.latTw := rfl
@[simp] theorem State.setCurPage_fault (s : State) (d : Device) (p : PageNo) : (s.setCurPage d p).fault = s.fault := rfl
@[simp] theorem State.setCurPage_tapeData (s : State) (d : Device) (p : PageNo) : (s.setCurPage d p).tapeData = s.tapeData := rfl
@[simp] theorem State.setCurPage_diskData (s : State) (d : Device) (p : PageNo) : (s.setCurPage d p).diskData = s.diskData := rfl
@[simp] theorem State.setCurPage_tapeStore (s : State) (d : Device) (p : PageNo) : (s.setCurPage d p).tapeStore = s.tapeStore := rfl
@[simp] theorem State.setCurPage_diskStore (s : State) (d : Device) (p : PageNo) : (s.setCurPage d p).diskStore = s.diskStore := rfl
@[simp] theorem State.setCurPage_cards (s : State) (d : Device) (p : PageNo) : (s.setCurPage d p).cards = s.cards := rfl
@[simp] theorem State.setCurPage_paperFile (s : State) (d : Device) (p : PageNo) : (s.setCurPage d p).paperFile = s.paperFile := rfl
@[simp] theorem State.setCurPage_sink (s : State) (d : Device) (p : PageNo) : (s.setCurPage d p).sink = s.sink := rfl
@[simp] theorem State.setCurPage_source (s : State) (d : Device) (p : PageNo) : (s.setCurPage d p).source = s.source := rfl
@[simp] theorem State.setCurPage_buf (s : State) (d : Device) (p : PageNo) : (s.setCurPage d p).buf = s.buf := rfl
@[simp] theorem State.setCurPage_port (s : State) (d : Device) (p : PageNo) : (s.setCurPage d p).port = s.port := rfl
@[simp] theorem State.setCurPage_response (s : State) (d : Device) (p : PageNo) : (s.setCurPage d p).response = s.response := rfl
@[simp] theorem State.setCurPage_held (s : State) (d : Device) (p : PageNo) : (s.setCurPage d p).held = s.held := rfl
@[simp] theorem State.setCurPage_inputs (s : State) (d : Device) (p : PageNo) : (s.setCurPage d p).inputs = s.inputs := rfl

@[simp] theorem State.setBusyUntil_codec (s : State) (d : Device) (t : Time) : (s.setBusyUntil d t).codec = s.codec := rfl
@[simp] theorem State.setBusyUntil_params (s : State) (d : Device) (t : Time) : (s.setBusyUntil d t).params = s.params := rfl
@[simp] theorem State.setBusyUntil_latTw (s : State) (d : Device) (t : Time) : (s.setBusyUntil d t).latTw = s.latTw := rfl
@[simp] theorem State.setBusyUntil_fault (s : State) (d : Device) (t : Time) : (s.setBusyUntil d t).fault = s.fault := rfl
@[simp] theorem State.setBusyUntil_tapeData (s : State) (d : Device) (t : Time) : (s.setBusyUntil d t).tapeData = s.tapeData := rfl
@[simp] theorem State.setBusyUntil_diskData (s : State) (d : Device) (t : Time) : (s.setBusyUntil d t).diskData = s.diskData := rfl
@[simp] theorem State.setBusyUntil_tapeStore (s : State) (d : Device) (t : Time) : (s.setBusyUntil d t).tapeStore = s.tapeStore := rfl
@[simp] theorem State.setBusyUntil_diskStore (s : State) (d : Device) (t : Time) : (s.setBusyUntil d t).diskStore = s.diskStore := rfl
@[simp] theorem State.setBusyUntil_cards (s : State) (d : Device) (t : Time) : (s.setBusyUntil d t).cards = s.cards := rfl
@[simp] theorem State.setBusyUntil_paperFile (s : State) (d : Device) (t : Time) : (s.setBusyUntil d t).paperFile = s.paperFile := rfl
@[simp] theorem State.setBusyUntil_sink (s : State) (d : Device) (t : Time) : (s.setBusyUntil d t).sink = s.sink := rfl
@[simp] theorem State.setBusyUntil_source (s : State) (d : Device) (t : Time) : (s.setBusyUntil d t).source = s.source := rfl
@[simp] theorem State.setBusyUntil_buf (s : State) (d : Device) (t : Time) : (s.setBusyUntil d t).buf = s.buf := rfl
@[simp] theorem State.setBusyUntil_port (s : State) (d : Device) (t : Time) : (s.setBusyUntil d t).port = s.port := rfl
@[simp] theorem State.setBusyUntil_response (s : State) (d : Device) (t : Time) : (s.setBusyUntil d t).response = s.response := rfl
@[simp] theorem State.setBusyUntil_held (s : State) (d : Device) (t : Time) : (s.setBusyUntil d t).held = s.held := rfl
@[simp] theorem State.setBusyUntil_inputs (s : State) (d : Device) (t : Time) : (s.setBusyUntil d t).inputs = s.inputs := rfl

@[simp] theorem State.respond_codec (s : State) (r : Response) : (s.respond r).codec = s.codec := rfl
@[simp] theorem State.respond_params (s : State) (r : Response) : (s.respond r).params = s.params := rfl
@[simp] theorem State.respond_latTw (s : State) (r : Response) : (s.respond r).latTw = s.latTw := rfl
@[simp] theorem State.respond_regs (s : State) (r : Response) : (s.respond r).regs = s.regs := rfl
@[simp] theorem State.respond_fault (s : State) (r : Response) : (s.respond r).fault = s.fault := rfl
@[simp] theorem State.respond_tapeData (s : State) (r : Response) : (s.respond r).tapeData = s.tapeData := rfl
@[simp] theorem State.respond_diskData (s : State) (r : Response) : (s.respond r).diskData = s.diskData := rfl
@[simp] theorem State.respond_tapeStore (s : State) (r : Response) : (s.respond r).tapeStore = s.tapeStore := rfl
@[simp] theorem State.respond_diskStore (s : State) (r : Response) : (s.respond r).diskStore = s.diskStore := rfl
@[simp] theorem State.respond_cards (s : State) (r : Response) : (s.respond r).cards = s.cards := rfl
@[simp] theorem State.respond_paperFile (s : State) (r : Response) : (s.respond r).paperFile = s.paperFile := rfl
@[simp] theorem State.respond_sink (s : State) (r : Response) : (s.respond r).sink = s.sink := rfl
@[simp] theorem State.respond_source (s : State) (r : Response) : (s.respond r).source = s.source := rfl
@[simp] theorem State.respond_buf (s : State) (r : Response) : (s.respond r).buf = s.buf := rfl
@[simp] theorem State.respond_port (s : State) (r : Response) : (s.respond r).port = s.port := rfl
@[simp] theorem State.respond_held (s : State) (r : Response) : (s.respond r).held = s.held := rfl
@[simp] theorem State.respond_inputs (s : State) (r : Response) : (s.respond r).inputs = s.inputs := rfl
@[simp] theorem State.respond_response (s : State) (r : Response) : (s.respond r).response = some r := rfl

@[simp] theorem State.bufWrite_codec (s : State) (v : List Word) : (s.bufWrite v).codec = s.codec := rfl
@[simp] theorem State.bufWrite_params (s : State) (v : List Word) : (s.bufWrite v).params = s.params := rfl
@[simp] theorem State.bufWrite_latTw (s : State) (v : List Word) : (s.bufWrite v).latTw = s.latTw := rfl
@[simp] theorem State.bufWrite_regs (s : State) (v : List Word) : (s.bufWrite v).regs = s.regs := rfl
@[simp] theorem State.bufWrite_fault (s : State) (v : List Word) : (s.bufWrite v).fault = s.fault := rfl
@[simp] theorem State.bufWrite_tapeData (s : State) (v : List Word) : (s.bufWrite v).tapeData = s.tapeData := rfl
@[simp] theorem State.bufWrite_diskData (s : State) (v : List Word) : (s.bufWrite v).diskData = s.diskData := rfl
@[simp] theorem State.bufWrite_tapeStore (s : State) (v : List Word) : (s.bufWrite v).tapeStore = s.tapeStore := rfl
@[simp] theorem State.bufWrite_diskStore (s : State) (v : List Word) : (s.bufWrite v).diskStore = s.diskStore := rfl
@[simp] theorem State.bufWrite_cards (s : State) (v : List Word) : (s.bufWrite v).cards = s.cards := rfl
@[simp] theorem State.bufWrite_paperFile (s : State) (v : List Word) : (s.bufWrite v).paperFile = s.paperFile := rfl
@[simp] theorem State.bufWrite_sink (s : State) (v : List Word) : (s.bufWrite v).sink = s.sink := rfl
@[simp] theorem State.bufWrite_source (s : State) (v : List Word) : (s.bufWrite v).source = s.source := rfl
@[simp] theorem State.bufWrite_port (s : State) (v : List Word) : (s.bufWrite v).port = s.port := rfl
@[simp] theorem State.bufWrite_response (s : State) (v : List Word) : (s.bufWrite v).response = s.response := rfl
@[simp] theorem State.bufWrite_held (s : State) (v : List Word) : (s.bufWrite v).held = s.held := rfl
@[simp] theorem State.bufWrite_inputs (s : State) (v : List Word) : (s.bufWrite v).inputs = s.inputs := rfl
@[simp] theorem State.bufWrite_buf (s : State) (v : List Word) : (s.bufWrite v).buf = memWrite s.buf 0 v := rfl

@[simp] theorem State.sinkPut_codec (s : State) (bs : List Char8) : (s.sinkPut bs).codec = s.codec := rfl
@[simp] theorem State.sinkPut_params (s : State) (bs : List Char8) : (s.sinkPut bs).params = s.params := rfl
@[simp] theorem State.sinkPut_latTw (s : State) (bs : List Char8) : (s.sinkPut bs).latTw = s.latTw := rfl
@[simp] theorem State.sinkPut_regs (s : State) (bs : List Char8) : (s.sinkPut bs).regs = s.regs := rfl
@[simp] theorem State.sinkPut_fault (s : State) (bs : List Char8) : (s.sinkPut bs).fault = s.fault := rfl
@[simp] theorem State.sinkPut_tapeData (s : State) (bs : List Char8) : (s.sinkPut bs).tapeData = s.tapeData := rfl
@[simp] theorem State.sinkPut_diskData (s : State) (bs : List Char8) : (s.sinkPut bs).diskData = s.diskData := rfl
@[simp] theorem State.sinkPut_tapeStore (s : State) (bs : List Char8) : (s.sinkPut bs).tapeStore = s.tapeStore := rfl
@[simp] theorem State.sinkPut_diskStore (s : State) (bs : List Char8) : (s.sinkPut bs).diskStore = s.diskStore := rfl
@[simp] theorem State.sinkPut_cards (s : State) (bs : List Char8) : (s.sinkPut bs).cards = s.cards := rfl
@[simp] theorem State.sinkPut_paperFile (s : State) (bs : List Char8) : (s.sinkPut bs).paperFile = s.paperFile := rfl
@[simp] theorem State.sinkPut_source (s : State) (bs : List Char8) : (s.sinkPut bs).source = s.source := rfl
@[simp] theorem State.sinkPut_buf (s : State) (bs : List Char8) : (s.sinkPut bs).buf = s.buf := rfl
@[simp] theorem State.sinkPut_port (s : State) (bs : List Char8) : (s.sinkPut bs).port = s.port := rfl
@[simp] theorem State.sinkPut_response (s : State) (bs : List Char8) : (s.sinkPut bs).response = s.response := rfl
@[simp] theorem State.sinkPut_held (s : State) (bs : List Char8) : (s.sinkPut bs).held = s.held := rfl
@[simp] theorem State.sinkPut_inputs (s : State) (bs : List Char8) : (s.sinkPut bs).inputs = s.inputs := rfl
@[simp] theorem State.sinkPut_sink (s : State) (bs : List Char8) : (s.sinkPut bs).sink = s.sink ++ bs := rfl

@[simp] theorem State.setMirror_codec (s : State) (m : Medium) (x : Memory) : (s.setMirror m x).codec = s.codec := by cases m <;> rfl
@[simp] theorem State.setMirror_params (s : State) (m : Medium) (x : Memory) : (s.setMirror m x).params = s.params := by cases m <;> rfl
@[simp] theorem State.setMirror_latTw (s : State) (m : Medium) (x : Memory) : (s.setMirror m x).latTw = s.latTw := by cases m <;> rfl
@[simp] theorem State.setMirror_regs (s : State) (m : Medium) (x : Memory) : (s.setMirror m x).regs = s.regs := by cases m <;> rfl
@[simp] theorem State.setMirror_fault (s : State) (m : Medium) (x : Memory) : (s.setMirror m x).fault = s.fault := by cases m <;> rfl
@[simp] theorem State.setMirror_tapeStore (s : State) (m : Medium) (x : Memory) : (s.setMirror m x).tapeStore = s.tapeStore := by cases m <;> rfl
@[simp] theorem State.setMirror_diskStore (s : State) (m : Medium) (x : Memory) : (s.setMirror m x).diskStore = s.diskStore := by cases m <;> rfl
@[simp] theorem State.setMirror_cards (s : State) (m : Medium) (x : Memory) : (s.setMirror m x).cards = s.cards := by cases m <;> rfl
@[simp] theorem State.setMirror_paperFile (s : State) (m : Medium) (x : Memory) : (s.setMirror m x).paperFile = s.paperFile := by cases m <;> rfl
@[simp] theorem State.setMirror_sink (s : State) (m : Medium) (x : Memory) : (s.setMirror m x).sink = s.sink := by cases m <;> rfl
@[simp] theorem State.setMirror_source (s : State) (m : Medium) (x : Memory) : (s.setMirror m x).source = s.source := by cases m <;> rfl
@[simp] theorem State.setMirror_buf (s : State) (m : Medium) (x : Memory) : (s.setMirror m x).buf = s.buf := by cases m <;> rfl
@[simp] theorem State.setMirror_port (s : State) (m : Medium) (x : Memory) : (s.setMirror m x).port = s.port := by cases m <;> rfl
@[simp] theorem State.setMirror_response (s : State) (m : Medium) (x : Memory) : (s.setMirror m x).response = s.response := by cases m <;> rfl
@[simp] theorem State.setMirror_held (s : State) (m : Medium) (x : Memory) : (s.setMirror m x).held = s.held := by cases m <;> rfl
@[simp] theorem State.setMirror_inputs (s : State) (m : Medium) (x : Memory) : (s.setMirror m x).inputs = s.inputs := by cases m <;> rfl

@[simp] theorem State.setStore_codec (s : State) (m : Medium) (x : Option Memory) : (s.setStore m x).codec = s.codec := by cases m <;> rfl
@[simp] theorem State.setStore_params (s : State) (m : Medium) (x : Option Memory) : (s.setStore m x).params = s.params := by cases m <;> rfl
@[simp] theorem State.setStore_latTw (s : State) (m : Medium) (x : Option Memory) : (s.setStore m x).latTw = s.latTw := by cases m <;> rfl
@[simp] theorem State.setStore_regs (s : State) (m : Medium) (x : Option Memory) : (s.setStore m x).regs = s.regs := by cases m <;> rfl
@[simp] theorem State.setStore_fault (s : State) (m : Medium) (x : Option Memory) : (s.setStore m x).fault = s.fault := by cases m <;> rfl
@[simp] theorem State.setStore_tapeData (s : State) (m : Medium) (x : Option Memory) : (s.setStore m x).tapeData = s.tapeData := by cases m <;> rfl
@[simp] theorem State.setStore_diskData (s : State) (m : Medium) (x : Option Memory) : (s.setStore m x).diskData = s.diskData := by cases m <;> rfl
@[simp] theorem State.setStore_cards (s : State) (m : Medium) (x : Option Memory) : (s.setStore m x).cards = s.cards := by cases m <;> rfl
@[simp] theorem State.setStore_paperFile (s : State) (m : Medium) (x : Option Memory) : (s.setStore m x).paperFile = s.paperFile := by cases m <;> rfl
@[simp] theorem State.setStore_sink (s : State) (m : Medium) (x : Option Memory) : (s.setStore m x).sink = s.sink := by cases m <;> rfl
@[simp] theorem State.setStore_source (s : State) (m : Medium) (x : Option Memory) : (s.setStore m x).source = s.source := by cases m <;> rfl
@[simp] theorem State.setStore_buf (s : State) (m : Medium) (x : Option Memory) : (s.setStore m x).buf = s.buf := by cases m <;> rfl
@[simp] theorem State.setStore_port (s : State) (m : Medium) (x : Option Memory) : (s.setStore m x).port = s.port := by cases m <;> rfl
@[simp] theorem State.setStore_response (s : State) (m : Medium) (x : Option Memory) : (s.setStore m x).response = s.response := by cases m <;> rfl
@[simp] theorem State.setStore_held (s : State) (m : Medium) (x : Option Memory) : (s.setStore m x).held = s.held := by cases m <;> rfl
@[simp] theorem State.setStore_inputs (s : State) (m : Medium) (x : Option Memory) : (s.setStore m x).inputs = s.inputs := by cases m <;> rfl

@[simp] theorem State.storeSave_codec (s : State) (m : Medium) (w : Bool) : (s.storeSave m w).codec = s.codec := by cases w <;> cases m <;> rfl
@[simp] theorem State.storeSave_params (s : State) (m : Medium) (w : Bool) : (s.storeSave m w).params = s.params := by cases w <;> cases m <;> rfl
@[simp] theorem State.storeSave_latTw (s : State) (m : Medium) (w : Bool) : (s.storeSave m w).latTw = s.latTw := by cases w <;> cases m <;> rfl
@[simp] theorem State.storeSave_regs (s : State) (m : Medium) (w : Bool) : (s.storeSave m w).regs = s.regs := by cases w <;> cases m <;> rfl
@[simp] theorem State.storeSave_fault (s : State) (m : Medium) (w : Bool) : (s.storeSave m w).fault = s.fault := by cases w <;> cases m <;> rfl
@[simp] theorem State.storeSave_tapeData (s : State) (m : Medium) (w : Bool) : (s.storeSave m w).tapeData = s.tapeData := by cases w <;> cases m <;> rfl
@[simp] theorem State.storeSave_diskData (s : State) (m : Medium) (w : Bool) : (s.storeSave m w).diskData = s.diskData := by cases w <;> cases m <;> rfl
@[simp] theorem State.storeSave_cards (s : State) (m : Medium) (w : Bool) : (s.storeSave m w).cards = s.cards := by cases w <;> cases m <;> rfl
@[simp] theorem State.storeSave_paperFile (s : State) (m : Medium) (w : Bool) : (s.storeSave m w).paperFile = s.paperFile := by cases w <;> cases m <;> rfl
@[simp] theorem State.storeSave_sink (s : State) (m : Medium) (w : Bool) : (s.storeSave m w).sink = s.sink := by cases w <;> cases m <;> rfl
@[simp] theorem State.storeSave_source (s : State) (m : Medium) (w : Bool) : (s.storeSave m w).source = s.source := by cases w <;> cases m <;> rfl
@[simp] theorem State.storeSave_buf (s : State) (m : Medium) (w : Bool) : (s.storeSave m w).buf = s.buf := by cases w <;> cases m <;> rfl
@[simp] theorem State.storeSave_port (s : State) (m : Medium) (w : Bool) : (s.storeSave m w).port = s.port := by cases w <;> cases m <;> rfl
@[simp] theorem State.storeSave_response (s : State) (m : Medium) (w : Bool) : (s.storeSave m w).response = s.response := by cases w <;> cases m <;> rfl
@[simp] theorem State.storeSave_held (s : State) (m : Medium) (w : Bool) : (s.storeSave m w).held = s.held := by cases w <;> cases m <;> rfl
@[simp] theorem State.storeSave_inputs (s : State) (m : Medium) (w : Bool) : (s.storeSave m w).inputs = s.inputs := by cases w <;> cases m <;> rfl

@[simp] theorem State.recWrite_codec (s : State) (p : PageNo) (bs : List Char8) (w : Bool) : (s.recWrite p bs w).codec = s.codec := by cases w <;> rfl
@[simp] theorem State.recWrite_params (s : State) (p : PageNo) (bs : List Char8) (w : Bool) : (s.recWrite p bs w).params = s.params := by cases w <;> rfl
@[simp] theorem State.recWrite_latTw (s : State) (p : PageNo) (bs : List Char8) (w : Bool) : (s.recWrite p bs w).latTw = s.latTw := by cases w <;> rfl
@[simp] theorem State.recWrite_regs (s : State) (p : PageNo) (bs : List Char8) (w : Bool) : (s.recWrite p bs w).regs = s.regs := by cases w <;> rfl
@[simp] theorem State.recWrite_fault (s : State) (p : PageNo) (bs : List Char8) (w : Bool) : (s.recWrite p bs w).fault = s.fault := by cases w <;> rfl
@[simp] theorem State.recWrite_tapeData (s : State) (p : PageNo) (bs : List Char8) (w : Bool) : (s.recWrite p bs w).tapeData = s.tapeData := by cases w <;> rfl
@[simp] theorem State.recWrite_diskData (s : State) (p : PageNo) (bs : List Char8) (w : Bool) : (s.recWrite p bs w).diskData = s.diskData := by cases w <;> rfl
@[simp] theorem State.recWrite_tapeStore (s : State) (p : PageNo) (bs : List Char8) (w : Bool) : (s.recWrite p bs w).tapeStore = s.tapeStore := by cases w <;> rfl
@[simp] theorem State.recWrite_diskStore (s : State) (p : PageNo) (bs : List Char8) (w : Bool) : (s.recWrite p bs w).diskStore = s.diskStore := by cases w <;> rfl
@[simp] theorem State.recWrite_paperFile (s : State) (p : PageNo) (bs : List Char8) (w : Bool) : (s.recWrite p bs w).paperFile = s.paperFile := by cases w <;> rfl
@[simp] theorem State.recWrite_sink (s : State) (p : PageNo) (bs : List Char8) (w : Bool) : (s.recWrite p bs w).sink = s.sink := by cases w <;> rfl
@[simp] theorem State.recWrite_source (s : State) (p : PageNo) (bs : List Char8) (w : Bool) : (s.recWrite p bs w).source = s.source := by cases w <;> rfl
@[simp] theorem State.recWrite_buf (s : State) (p : PageNo) (bs : List Char8) (w : Bool) : (s.recWrite p bs w).buf = s.buf := by cases w <;> rfl
@[simp] theorem State.recWrite_port (s : State) (p : PageNo) (bs : List Char8) (w : Bool) : (s.recWrite p bs w).port = s.port := by cases w <;> rfl
@[simp] theorem State.recWrite_response (s : State) (p : PageNo) (bs : List Char8) (w : Bool) : (s.recWrite p bs w).response = s.response := by cases w <;> rfl
@[simp] theorem State.recWrite_held (s : State) (p : PageNo) (bs : List Char8) (w : Bool) : (s.recWrite p bs w).held = s.held := by cases w <;> rfl
@[simp] theorem State.recWrite_inputs (s : State) (p : PageNo) (bs : List Char8) (w : Bool) : (s.recWrite p bs w).inputs = s.inputs := by cases w <;> rfl

@[simp] theorem State.fileWrite_codec (s : State) (bs : List Char8) (w : Bool) : (s.fileWrite bs w).codec = s.codec := by cases w <;> rfl
@[simp] theorem State.fileWrite_params (s : State) (bs : List Char8) (w : Bool) : (s.fileWrite bs w).params = s.params := by cases w <;> rfl
@[simp] theorem State.fileWrite_latTw (s : State) (bs : List Char8) (w : Bool) : (s.fileWrite bs w).latTw = s.latTw := by cases w <;> rfl
@[simp] theorem State.fileWrite_regs (s : State) (bs : List Char8) (w : Bool) : (s.fileWrite bs w).regs = s.regs := by cases w <;> rfl
@[simp] theorem State.fileWrite_fault (s : State) (bs : List Char8) (w : Bool) : (s.fileWrite bs w).fault = s.fault := by cases w <;> rfl
@[simp] theorem State.fileWrite_tapeData (s : State) (bs : List Char8) (w : Bool) : (s.fileWrite bs w).tapeData = s.tapeData := by cases w <;> rfl
@[simp] theorem State.fileWrite_diskData (s : State) (bs : List Char8) (w : Bool) : (s.fileWrite bs w).diskData = s.diskData := by cases w <;> rfl
@[simp] theorem State.fileWrite_tapeStore (s : State) (bs : List Char8) (w : Bool) : (s.fileWrite bs w).tapeStore = s.tapeStore := by cases w <;> rfl
@[simp] theorem State.fileWrite_diskStore (s : State) (bs : List Char8) (w : Bool) : (s.fileWrite bs w).diskStore = s.diskStore := by cases w <;> rfl
@[simp] theorem State.fileWrite_cards (s : State) (bs : List Char8) (w : Bool) : (s.fileWrite bs w).cards = s.cards := by cases w <;> rfl
@[simp] theorem State.fileWrite_sink (s : State) (bs : List Char8) (w : Bool) : (s.fileWrite bs w).sink = s.sink := by cases w <;> rfl
@[simp] theorem State.fileWrite_source (s : State) (bs : List Char8) (w : Bool) : (s.fileWrite bs w).source = s.source := by cases w <;> rfl
@[simp] theorem State.fileWrite_buf (s : State) (bs : List Char8) (w : Bool) : (s.fileWrite bs w).buf = s.buf := by cases w <;> rfl
@[simp] theorem State.fileWrite_port (s : State) (bs : List Char8) (w : Bool) : (s.fileWrite bs w).port = s.port := by cases w <;> rfl
@[simp] theorem State.fileWrite_response (s : State) (bs : List Char8) (w : Bool) : (s.fileWrite bs w).response = s.response := by cases w <;> rfl
@[simp] theorem State.fileWrite_held (s : State) (bs : List Char8) (w : Bool) : (s.fileWrite bs w).held = s.held := by cases w <;> rfl
@[simp] theorem State.fileWrite_inputs (s : State) (bs : List Char8) (w : Bool) : (s.fileWrite bs w).inputs = s.inputs := by cases w <;> rfl

@[simp] theorem State.present_codec (s : State) (c : Command) (rest : List Input) : (s.present c rest).codec = s.codec := rfl
@[simp] theorem State.present_params (s : State) (c : Command) (rest : List Input) : (s.present c rest).params = s.params := rfl
@[simp] theorem State.present_latTw (s : State) (c : Command) (rest : List Input) : (s.present c rest).latTw = s.latTw := rfl
@[simp] theorem State.present_regs (s : State) (c : Command) (rest : List Input) : (s.present c rest).regs = s.regs := rfl
@[simp] theorem State.present_fault (s : State) (c : Command) (rest : List Input) : (s.present c rest).fault = s.fault := rfl
@[simp] theorem State.present_tapeData (s : State) (c : Command) (rest : List Input) : (s.present c rest).tapeData = s.tapeData := rfl
@[simp] theorem State.present_diskData (s : State) (c : Command) (rest : List Input) : (s.present c rest).diskData = s.diskData := rfl
@[simp] theorem State.present_tapeStore (s : State) (c : Command) (rest : List Input) : (s.present c rest).tapeStore = s.tapeStore := rfl
@[simp] theorem State.present_diskStore (s : State) (c : Command) (rest : List Input) : (s.present c rest).diskStore = s.diskStore := rfl
@[simp] theorem State.present_cards (s : State) (c : Command) (rest : List Input) : (s.present c rest).cards = s.cards := rfl
@[simp] theorem State.present_paperFile (s : State) (c : Command) (rest : List Input) : (s.present c rest).paperFile = s.paperFile := rfl
@[simp] theorem State.present_sink (s : State) (c : Command) (rest : List Input) : (s.present c rest).sink = s.sink := rfl
@[simp] theorem State.present_source (s : State) (c : Command) (rest : List Input) : (s.present c rest).source = s.source := rfl
@[simp] theorem State.present_buf (s : State) (c : Command) (rest : List Input) : (s.present c rest).buf = s.buf := rfl
@[simp] theorem State.present_held (s : State) (c : Command) (rest : List Input) : (s.present c rest).held = s.held := rfl

@[simp] theorem Transfer.advance_codec (t : Transfer) (s : State) : (t.advance s).codec = s.codec := by unfold Transfer.advance; split <;> rfl
@[simp] theorem Transfer.advance_params (t : Transfer) (s : State) : (t.advance s).params = s.params := by unfold Transfer.advance; split <;> rfl
@[simp] theorem Transfer.advance_latTw (t : Transfer) (s : State) : (t.advance s).latTw = s.latTw := by unfold Transfer.advance; split <;> rfl
@[simp] theorem Transfer.advance_fault (t : Transfer) (s : State) : (t.advance s).fault = s.fault := by unfold Transfer.advance; split <;> rfl
@[simp] theorem Transfer.advance_tapeData (t : Transfer) (s : State) : (t.advance s).tapeData = s.tapeData := by unfold Transfer.advance; split <;> rfl
@[simp] theorem Transfer.advance_diskData (t : Transfer) (s : State) : (t.advance s).diskData = s.diskData := by unfold Transfer.advance; split <;> rfl
@[simp] theorem Transfer.advance_tapeStore (t : Transfer) (s : State) : (t.advance s).tapeStore = s.tapeStore := by unfold Transfer.advance; split <;> rfl
@[simp] theorem Transfer.advance_diskStore (t : Transfer) (s : State) : (t.advance s).diskStore = s.diskStore := by unfold Transfer.advance; split <;> rfl
@[simp] theorem Transfer.advance_cards (t : Transfer) (s : State) : (t.advance s).cards = s.cards := by unfold Transfer.advance; split <;> rfl
@[simp] theorem Transfer.advance_paperFile (t : Transfer) (s : State) : (t.advance s).paperFile = s.paperFile := by unfold Transfer.advance; split <;> rfl
@[simp] theorem Transfer.advance_sink (t : Transfer) (s : State) : (t.advance s).sink = s.sink := by unfold Transfer.advance; split <;> rfl
@[simp] theorem Transfer.advance_source (t : Transfer) (s : State) : (t.advance s).source = s.source := by unfold Transfer.advance; split <;> rfl
@[simp] theorem Transfer.advance_buf (t : Transfer) (s : State) : (t.advance s).buf = s.buf := by unfold Transfer.advance; split <;> rfl
@[simp] theorem Transfer.advance_port (t : Transfer) (s : State) : (t.advance s).port = s.port := by unfold Transfer.advance; split <;> rfl
@[simp] theorem Transfer.advance_response (t : Transfer) (s : State) : (t.advance s).response = s.response := by unfold Transfer.advance; split <;> rfl
@[simp] theorem Transfer.advance_held (t : Transfer) (s : State) : (t.advance s).held = s.held := by unfold Transfer.advance; split <;> rfl
@[simp] theorem Transfer.advance_inputs (t : Transfer) (s : State) : (t.advance s).inputs = s.inputs := by unfold Transfer.advance; split <;> rfl

@[simp] theorem Transfer.timing_codec (t : Transfer) (s : State) : (t.timing s).codec = s.codec := rfl
@[simp] theorem Transfer.timing_params (t : Transfer) (s : State) : (t.timing s).params = s.params := rfl
@[simp] theorem Transfer.timing_latTw (t : Transfer) (s : State) : (t.timing s).latTw = s.latTw := rfl
@[simp] theorem Transfer.timing_fault (t : Transfer) (s : State) : (t.timing s).fault = s.fault := rfl
@[simp] theorem Transfer.timing_tapeData (t : Transfer) (s : State) : (t.timing s).tapeData = s.tapeData := rfl
@[simp] theorem Transfer.timing_diskData (t : Transfer) (s : State) : (t.timing s).diskData = s.diskData := rfl
@[simp] theorem Transfer.timing_tapeStore (t : Transfer) (s : State) : (t.timing s).tapeStore = s.tapeStore := rfl
@[simp] theorem Transfer.timing_diskStore (t : Transfer) (s : State) : (t.timing s).diskStore = s.diskStore := rfl
@[simp] theorem Transfer.timing_cards (t : Transfer) (s : State) : (t.timing s).cards = s.cards := rfl
@[simp] theorem Transfer.timing_paperFile (t : Transfer) (s : State) : (t.timing s).paperFile = s.paperFile := rfl
@[simp] theorem Transfer.timing_sink (t : Transfer) (s : State) : (t.timing s).sink = s.sink := rfl
@[simp] theorem Transfer.timing_source (t : Transfer) (s : State) : (t.timing s).source = s.source := rfl
@[simp] theorem Transfer.timing_buf (t : Transfer) (s : State) : (t.timing s).buf = s.buf := rfl
@[simp] theorem Transfer.timing_port (t : Transfer) (s : State) : (t.timing s).port = s.port := rfl
@[simp] theorem Transfer.timing_response (t : Transfer) (s : State) : (t.timing s).response = s.response := rfl
@[simp] theorem Transfer.timing_held (t : Transfer) (s : State) : (t.timing s).held = s.held := rfl
@[simp] theorem Transfer.timing_inputs (t : Transfer) (s : State) : (t.timing s).inputs = s.inputs := rfl

@[simp] theorem Transfer.complete_codec (t : Transfer) (s : State) : (t.complete s).codec = s.codec := by simp [Transfer.complete]
@[simp] theorem Transfer.complete_params (t : Transfer) (s : State) : (t.complete s).params = s.params := by simp [Transfer.complete]
@[simp] theorem Transfer.complete_latTw (t : Transfer) (s : State) : (t.complete s).latTw = s.latTw := by simp [Transfer.complete]
@[simp] theorem Transfer.complete_fault (t : Transfer) (s : State) : (t.complete s).fault = s.fault := by simp [Transfer.complete]
@[simp] theorem Transfer.complete_tapeData (t : Transfer) (s : State) : (t.complete s).tapeData = s.tapeData := by simp [Transfer.complete]
@[simp] theorem Transfer.complete_diskData (t : Transfer) (s : State) : (t.complete s).diskData = s.diskData := by simp [Transfer.complete]
@[simp] theorem Transfer.complete_tapeStore (t : Transfer) (s : State) : (t.complete s).tapeStore = s.tapeStore := by simp [Transfer.complete]
@[simp] theorem Transfer.complete_diskStore (t : Transfer) (s : State) : (t.complete s).diskStore = s.diskStore := by simp [Transfer.complete]
@[simp] theorem Transfer.complete_cards (t : Transfer) (s : State) : (t.complete s).cards = s.cards := by simp [Transfer.complete]
@[simp] theorem Transfer.complete_paperFile (t : Transfer) (s : State) : (t.complete s).paperFile = s.paperFile := by simp [Transfer.complete]
@[simp] theorem Transfer.complete_sink (t : Transfer) (s : State) : (t.complete s).sink = s.sink := by simp [Transfer.complete]
@[simp] theorem Transfer.complete_source (t : Transfer) (s : State) : (t.complete s).source = s.source := by simp [Transfer.complete]
@[simp] theorem Transfer.complete_buf (t : Transfer) (s : State) : (t.complete s).buf = s.buf := by simp [Transfer.complete]
@[simp] theorem Transfer.complete_port (t : Transfer) (s : State) : (t.complete s).port = s.port := by simp [Transfer.complete]
@[simp] theorem Transfer.complete_held (t : Transfer) (s : State) : (t.complete s).held = s.held := by simp [Transfer.complete]
@[simp] theorem Transfer.complete_inputs (t : Transfer) (s : State) : (t.complete s).inputs = s.inputs := by simp [Transfer.complete]
@[simp] theorem Transfer.complete_response (t : Transfer) (s : State) :
    (t.complete s).response = some (.done true none) := rfl

end Sys2Proof.Machine
end

