-- ==== Sys2Proof/Laws/Ops.lean ====
section
/-! SUPPORT. What the shared operations of Machine/Ops.lean can do, said once: the course of a transfer,
its preconditions and its two registers, a fault, and the base behaviours. -/

namespace Sys2Proof.Machine

theorem toNat_ofNat_of_lt {w n : Nat} (h : n < 2 ^ w) : (BitVec.ofNat w n).toNat = n := by
  rw [BitVec.toNat_ofNat, Nat.mod_eq_of_lt h]

/-- The registers a completed transfer leaves: only its own device's, the cursor moved if it advances. -/
def Transfer.regsAfter (t : Transfer) (s : State) : RegFile :=
  s.regs.set t.dev
    { curPage := if t.advances then BitVec.ofNat 32 ((s.curPage t.dev).toNat + 1) else s.curPage t.dev
      busyUntil := BitVec.ofNat 64 (s.port.now.toNat + t.product) }

/-- A completed transfer changes the registers of its device and the response, nothing else. -/
theorem Transfer.complete_eq (t : Transfer) (s : State) :
    t.complete s = { s with regs := t.regsAfter s, response := some (.done true none) } := by
  unfold Transfer.complete Transfer.timing Transfer.advance Transfer.regsAfter
  cases h : t.advances
  · simp [State.respond, State.setBusyUntil, State.curPage]
  · simp [State.respond, State.setBusyUntil, State.setCurPage, State.curPage]

theorem Transfer.regsAfter_ne (t : Transfer) (s : State) {d : Device} (h : d ≠ t.dev) :
    (t.regsAfter s).get d = s.regs.get d := RegFile.get_set_ne _ _ h

theorem Transfer.regsAfter_same (t : Transfer) (s : State) :
    (t.regsAfter s).get t.dev =
      { curPage := if t.advances then BitVec.ofNat 32 ((s.curPage t.dev).toNat + 1) else s.curPage t.dev
        busyUntil := BitVec.ofNat 64 (s.port.now.toNat + t.product) } := RegFile.get_set_same _ _ _

/-- A transfer has no faulting precondition exactly when the page is in range (where it is checked),
the cursor can move (where it moves) and the busy time fits. -/
theorem Transfer.fault_eq_none_iff (t : Transfer) (s : State) :
    t.fault s = none ↔
      (t.pageCheck = true → (s.curPage t.dev).toNat < s.params.numBlocks t.dev) ∧
      (t.advances = true → (s.curPage t.dev).toNat + 1 < 2 ^ 32) ∧ s.port.now.toNat + t.product < 2 ^ 64 := by
  unfold Transfer.fault
  constructor
  · intro h
    split at h
    · cases h
    · split at h
      · cases h
      · split at h
        · cases h
        · rename_i h1 h2 h3
          exact ⟨fun hp => by by_contra hc; exact h1 ⟨hp, by omega⟩, fun ha => by by_contra hc; exact h2 ⟨ha, by omega⟩, by omega⟩
  · rintro ⟨h1, h2, h3⟩
    rw [if_neg (fun hc => by have := h1 hc.1; omega), if_neg (fun hc => by have := h2 hc.1; omega), if_neg (by omega)]

/-- A transfer whose preconditions hold completes after moving the data. -/
theorem Transfer.run_of_none {t : Transfer} {s : State} (body : State → State) (h : t.fault s = none) :
    t.run body s = .next (t.complete (body s)) := by simp [Transfer.run, h]

/-- A transfer with a faulting precondition is that fault and nothing else. -/
theorem Transfer.run_of_some {t : Transfer} {s : State} {c : FaultCause} (body : State → State) (h : t.fault s = some c) :
    t.run body s = raiseFault t.dev.code c s := by simp [Transfer.run, h]

/-- Everything a transfer can answer. -/
theorem Transfer.run_cases (t : Transfer) (body : State → State) (s : State) :
    (∃ c, t.fault s = some c ∧
      t.run body s = .next { s with fault := latchFault s.fault t.dev.code c, response := some (.fault c) }) ∨
    (t.fault s = none ∧ t.run body s = .next (t.complete (body s))) := by
  cases h : t.fault s with
  | none => exact Or.inr ⟨rfl, Transfer.run_of_none body h⟩
  | some c => exact Or.inl ⟨c, rfl, Transfer.run_of_some body h⟩

theorem Transfer.fault_pageRange {t : Transfer} {s : State} (hp : t.pageCheck = true)
    (h : s.params.numBlocks t.dev ≤ (s.curPage t.dev).toNat) : t.fault s = some .pageRange := by
  simp [Transfer.fault, hp, h]

theorem Transfer.fault_timeOverflow {t : Transfer} {s : State}
    (h1 : t.pageCheck = true → (s.curPage t.dev).toNat < s.params.numBlocks t.dev)
    (h2 : t.advances = true → (s.curPage t.dev).toNat + 1 < 2 ^ 32) (h3 : 2 ^ 64 ≤ s.port.now.toNat + t.product) :
    t.fault s = some .timeOverflow := by
  unfold Transfer.fault
  rw [if_neg (fun hc => by have := h1 hc.1; omega), if_neg (fun hc => by have := h2 hc.1; omega), if_pos h3]

theorem Transfer.fault_cursorOverflow {t : Transfer} {s : State}
    (h1 : t.pageCheck = true → (s.curPage t.dev).toNat < s.params.numBlocks t.dev) (ha : t.advances = true)
    (h2 : 2 ^ 32 ≤ (s.curPage t.dev).toNat + 1) : t.fault s = some .cursorOverflow := by
  unfold Transfer.fault
  rw [if_neg (fun hc => by have := h1 hc.1; omega), if_pos ⟨ha, h2⟩]

/-- Which fault a transfer reports, and what it says of the state (R229). -/
theorem Transfer.fault_some_cases {t : Transfer} {s : State} {c : FaultCause} (h : t.fault s = some c) :
    (c = .pageRange ∧ t.pageCheck = true ∧ s.params.numBlocks t.dev ≤ (s.curPage t.dev).toNat) ∨
    (c = .cursorOverflow ∧ (t.pageCheck = true → (s.curPage t.dev).toNat < s.params.numBlocks t.dev) ∧
      t.advances = true ∧ 2 ^ 32 ≤ (s.curPage t.dev).toNat + 1) ∨
    (c = .timeOverflow ∧ (t.pageCheck = true → (s.curPage t.dev).toNat < s.params.numBlocks t.dev) ∧
      (t.advances = true → (s.curPage t.dev).toNat + 1 < 2 ^ 32) ∧ 2 ^ 64 ≤ s.port.now.toNat + t.product) := by
  unfold Transfer.fault at h
  split at h
  · rename_i h1; cases h; exact Or.inl ⟨rfl, h1⟩
  · rename_i h1
    have g1 : t.pageCheck = true → (s.curPage t.dev).toNat < s.params.numBlocks t.dev := fun hp => by
      by_contra hc; exact h1 ⟨hp, by omega⟩
    split at h
    · rename_i h2; cases h; exact Or.inr (Or.inl ⟨rfl, g1, h2⟩)
    · rename_i h2
      split at h
      · rename_i h3; cases h
        exact Or.inr (Or.inr ⟨rfl, g1, fun ha => by by_contra hc; exact h2 ⟨ha, by omega⟩, h3⟩)
      · cases h

theorem latchFault_zero (dev : BitVec 3) (c : FaultCause) : latchFault 0#8 dev c = faultValue dev c := rfl

/-- The latch holds a value of R28's form whatever it held of that form before. -/
theorem latchFault_of_ne {f : BitVec 8} (h : f ≠ 0#8) (dev : BitVec 3) (c : FaultCause) : latchFault f dev c = f := by
  simp [latchFault, h]

theorem faultValue_ne_zero : ∀ (dev : BitVec 3) (c : FaultCause), faultValue dev c ≠ 0#8 := by
  intro dev c; revert dev; cases c <;> decide

theorem latchFault_ne_zero (f : BitVec 8) (dev : BitVec 3) (c : FaultCause) : latchFault f dev c ≠ 0#8 := by
  unfold latchFault; split
  · exact faultValue_ne_zero dev c
  · assumption

theorem unsupported_eq (s : State) : unsupported s = .next { s with response := some (.done false none) } := rfl

theorem busyTest_eq (d : Device) (s : State) :
    busyTest d s = .next { s with response := some (.done (busyFlag s.port.now (s.busyUntil d)) none) } := rfl

theorem raiseFault_eq (dev : BitVec 3) (c : FaultCause) (s : State) :
    raiseFault dev c s = .next { s with fault := latchFault s.fault dev c, response := some (.fault c) } := rfl

/-! ### The card stores -/

@[simp] theorem CardStores.setReader_separate (r w m : RecMap) : (CardStores.separate r w).setReader m = .separate m w := rfl
@[simp] theorem CardStores.setReader_shared (x m : RecMap) : (CardStores.shared x).setReader m = .shared m := rfl
@[simp] theorem CardStores.setWriter_separate (r w m : RecMap) : (CardStores.separate r w).setWriter m = .separate r m := rfl
@[simp] theorem CardStores.setWriter_shared (x m : RecMap) : (CardStores.shared x).setWriter m = .shared m := rfl

@[simp] theorem CardStores.writer_setWriter (c : CardStores) (m : RecMap) : (c.setWriter m).writer = m := by
  cases c <;> rfl

@[simp] theorem CardStores.reader_setReader (c : CardStores) (m : RecMap) : (c.setReader m).reader = m := by
  cases c <;> rfl

end Sys2Proof.Machine
end

