-- ==== Sys2Proof/Laws/Exec.lean ====
section
/-! SUPPORT. What a command can do, said once: a command answers without touching anything, or sets a
cursor, or is one of eight transfers over `Transfer.run`, or is `TW.IN`; and what each transfer's body
changes. -/

namespace Sys2Proof.Machine

/-! ### The four shapes of a command -/

/-- `PlainTransfer p i rule body`: under the parameters `p` the command `i` is the transfer `rule` with the data
movement `body`. These are the supported `in` and `out` but `TW.IN`, which can wait (R88, R128). -/
inductive PlainTransfer (p : Params) : Instr → Transfer → (State → State) → Prop where
  | tapeIn  : PlainTransfer p .tapeIn (tapeInRule p) (pageToBuf .tape)
  | tapeOut : PlainTransfer p .tapeOut (tapeOutRule p) (pageOut .tape)
  | diskIn  : PlainTransfer p .diskIn (diskInRule p) (pageToBuf .disk)
  | diskOut : PlainTransfer p .diskOut (diskOutRule p) (pageOut .disk)
  | crIn    : PlainTransfer p .crIn (cardInRule p) readCard
  | cwOut   : PlainTransfer p .cwOut (cardOutRule p) punchCard
  | lpOut   : PlainTransfer p .lpOut (printRule p) printBuf
  | ptOut   : PlainTransfer p .ptOut (paperTapeRule p) punchBuf

/-- What a command that only answers says of the registers and the clock (R88, R124, R126); `none` for a command
that does more. -/
def answer : Instr → Option (RegFile → Time → Response)
  | .tapeBusy  => some fun r now => .done (busyFlag now (r.get .tape).busyUntil) none
  | .diskBusy  => some fun r now => .done (busyFlag now (r.get .disk).busyUntil) none
  | .crBusy    => some fun r now => .done (busyFlag now (r.get .cardReader).busyUntil) none
  | .cwBusy    => some fun r now => .done (busyFlag now (r.get .cardWriter).busyUntil) none
  | .lpBusy    => some fun r now => .done (busyFlag now (r.get .linePrinter).busyUntil) none
  | .twBusy    => some fun r now => .done (busyFlag now (r.get .typeWriter).busyUntil) none
  | .ptBusy    => some fun r now => .done (busyFlag now (r.get .paperTape).busyUntil) none
  | .getPage d => some fun r _ => .done true (some (r.get d).curPage)
  | .tapeIn | .tapeOut | .diskIn | .diskOut | .crIn | .cwOut | .lpOut | .twIn | .ptOut | .setPage _ => none
  | .tapeIoc | .diskIoc | .crOut | .crIoc | .cwIn | .cwIoc | .lpIn | .lpIoc | .twOut | .twIoc | .ptIn | .ptIoc =>
    some fun _ _ => .done false none

/-- A command that only answers changes the response and nothing else. -/
theorem exec_answer {i : Instr} {f : RegFile → Time → Response} (h : answer i = some f) (s : State) :
    exec i s = .next { s with response := some (f s.regs s.port.now) } := by
  cases i <;> cases h <;> rfl

/-- No answer is a fault. -/
theorem answer_done {i : Instr} {f : RegFile → Time → Response} (h : answer i = some f) (r : RegFile) (now : Time) :
    ∃ flag v, f r now = .done flag v := by
  cases i <;> cases h <;> exact ⟨_, _, rfl⟩

/-- Each of the eight is its transfer. -/
theorem exec_plain {s : State} {i : Instr} {t : Transfer} {body : State → State} (h : PlainTransfer s.params i t body) :
    exec i s = t.run body s := by
  cases h <;> rfl

/-- The four shapes of a command. -/
theorem exec_cases (i : Instr) (s : State) :
    (∃ f, answer i = some f ∧ exec i s = .next { s with response := some (f s.regs s.port.now) }) ∨
    (∃ d, i = .setPage d ∧
      exec i s = .next { s with regs := s.regs.set d { s.regs.get d with curPage := s.port.page }, response := some (.done true none) }) ∨
    (∃ t body, PlainTransfer s.params i t body ∧ exec i s = t.run body s) ∨
    (i = .twIn ∧ exec i s = execTwIn s) := by
  cases h : answer i with
  | some f => exact Or.inl ⟨f, rfl, exec_answer h s⟩
  | none =>
    refine Or.inr ?_
    cases i <;> first
      | exact Or.inl ⟨_, rfl, rfl⟩
      | exact Or.inr (Or.inr ⟨rfl, rfl⟩)
      | exact Or.inr (Or.inl ⟨_, _, by constructor, rfl⟩)
      | exact absurd h (by simp [answer])

/-! ### What each body changes -/

theorem pageToBuf_tape_eq (s : State) :
    pageToBuf .tape s =
      { s with buf := memWrite s.buf 0 (memRead s.tapeData ((s.regs.get .tape).curPage.toNat * s.params.tape.blockSize) s.params.tape.blockSize) } := rfl

theorem pageToBuf_disk_eq (s : State) :
    pageToBuf .disk s =
      { s with buf := memWrite s.buf 0 (memRead s.diskData ((s.regs.get .disk).curPage.toNat * s.params.disk.blockSize) s.params.disk.blockSize) } := rfl

/-- The Tape's mirror after a `TAPE.OUT`. -/
def tapeWritten (s : State) : Memory :=
  memWrite s.tapeData ((s.regs.get .tape).curPage.toNat * s.params.tape.blockSize) (memRead s.buf 0 s.params.tape.blockSize)

/-- The Disk's mirror after a `DISK.OUT`. -/
def diskWritten (s : State) : Memory :=
  memWrite s.diskData ((s.regs.get .disk).curPage.toNat * s.params.disk.blockSize) (memRead s.buf 0 s.params.disk.blockSize)

theorem pageOut_tape_eq (s : State) :
    pageOut .tape s =
      { s with
        tapeData := tapeWritten s
        tapeStore := if s.port.writable then some (tapeWritten s) else s.tapeStore } := by
  cases h : s.port.writable <;>
    simp [pageOut, bufToPage, State.storeSave, State.writable, State.setMirror, State.setStore, State.bufRead,
      State.pageBase_tape, tapeWritten, h]

theorem pageOut_disk_eq (s : State) :
    pageOut .disk s =
      { s with
        diskData := diskWritten s
        diskStore := if s.port.writable then some (diskWritten s) else s.diskStore } := by
  cases h : s.port.writable <;>
    simp [pageOut, bufToPage, State.storeSave, State.writable, State.setMirror, State.setStore, State.bufRead,
      State.pageBase_disk, diskWritten, h]

theorem readCard_of_none {s : State} (h : s.recRead (s.curPage .cardReader) s.readable = none) : readCard s = s := by
  simp [readCard, h]

theorem readCard_of_some {s : State} {rec : List Char8} (h : s.recRead (s.curPage .cardReader) s.readable = some rec) :
    readCard s = { s with buf := memWrite s.buf 0 (decodeCard s.params s.codec rec) } := by
  simp [readCard, h, State.bufWrite]

/-- `CR.IN` changes the caller buffer at most. -/
theorem readCard_eq (s : State) : readCard s = { s with buf := (readCard s).buf } := by
  unfold readCard
  split <;> rfl

theorem punchCard_eq (s : State) :
    punchCard s =
      { s with cards := if s.port.writable then
          s.cards.setWriter (RecMap.put s.cards.writer (s.curPage .cardWriter).toNat (cardRecord s.params s.codec s.buf)) else s.cards } := by
  cases h : s.port.writable <;> simp [punchCard, State.recWrite, State.writable, h]

theorem printBuf_eq (s : State) : printBuf s = { s with sink := s.sink ++ printLine s.params s.codec s.buf } := rfl

theorem punchBuf_eq (s : State) :
    punchBuf s =
      { s with paperFile := if s.port.writable then some (punchTape s.params s.codec s.buf) else s.paperFile } := by
  cases h : s.port.writable <;> simp [punchBuf, State.fileWrite, State.writable, h]

/-- Every body leaves the registers, the ports, the parameters, the latch and what comes next. -/
theorem PlainTransfer.body_frame {p : Params} {i : Instr} {t : Transfer} {body : State → State}
    (h : PlainTransfer p i t body) (s : State) :
    (body s).regs = s.regs ∧ (body s).port = s.port ∧ (body s).codec = s.codec ∧ (body s).params = s.params ∧
    (body s).latTw = s.latTw ∧ (body s).fault = s.fault ∧ (body s).inputs = s.inputs ∧ (body s).held = s.held ∧
    (body s).source = s.source := by
  cases h
  case tapeIn => simp [pageToBuf_tape_eq]
  case tapeOut => simp [pageOut_tape_eq]
  case diskIn => simp [pageToBuf_disk_eq]
  case diskOut => simp [pageOut_disk_eq]
  case crIn => rw [readCard_eq]; simp
  case cwOut => simp [punchCard_eq]
  case lpOut => simp [printBuf_eq]
  case ptOut => simp [punchBuf_eq]

/-- A body reads neither the latch (R228) nor the port `MODE` (R84) nor, of the registers, anything but the
cursors (R123): with others in their place it moves the same data. -/
theorem PlainTransfer.body_reads {p : Params} {i : Instr} {t : Transfer} {body : State → State}
    (h : PlainTransfer p i t body) (s : State) {r : RegFile} (hr : ∀ d, (r.get d).curPage = (s.regs.get d).curPage)
    (f : BitVec 8) (m : BitVec 32) :
    body { s with regs := r, fault := f, port := { s.port with mode := m } } =
      { body s with regs := r, fault := f, port := { s.port with mode := m } } := by
  cases h
  case tapeIn => simp only [pageToBuf_tape_eq, hr]
  case tapeOut => simp only [pageOut_tape_eq, tapeWritten, hr]
  case diskIn => simp only [pageToBuf_disk_eq, hr]
  case diskOut => simp only [pageOut_disk_eq, diskWritten, hr]
  case crIn =>
    have e : State.recRead { s with regs := r, fault := f, port := { s.port with mode := m } } (r.get .cardReader).curPage
        s.port.readable = s.recRead (s.curPage .cardReader) s.readable := by rw [hr]; rfl
    cases h : s.recRead (s.curPage .cardReader) s.readable with
    | none => rw [readCard_of_none (e.trans h), readCard_of_none h]
    | some rec => rw [readCard_of_some (e.trans h), readCard_of_some h]
  case cwOut => simp only [punchCard_eq, State.curPage, hr]
  case lpOut => simp only [printBuf_eq]
  case ptOut => simp only [punchBuf_eq]

/-- The preconditions read of the registers only the cursors (R123). -/
theorem Transfer.fault_regs (t : Transfer) (s : State) {r : RegFile}
    (hr : ∀ d, (r.get d).curPage = (s.regs.get d).curPage) : t.fault { s with regs := r } = t.fault s := by
  unfold Transfer.fault
  simp only [State.curPage, hr]
  rfl

/-! ### A transfer's two ends -/

/-- A transfer whose preconditions hold: what the body leaves, with its device's registers and the response. -/
theorem exec_plain_ok {s : State} {i : Instr} {t : Transfer} {body : State → State} (h : PlainTransfer s.params i t body)
    (hf : t.fault s = none) :
    exec i s = .next { body s with regs := t.regsAfter s, response := some (.done true none) } := by
  rw [exec_plain h, Transfer.run_of_none body hf, Transfer.complete_eq]
  obtain ⟨hr, hp, -⟩ := h.body_frame s
  have : t.regsAfter (body s) = t.regsAfter s := by simp [Transfer.regsAfter, State.curPage, hr, hp]
  rw [this]

/-- A transfer with a faulting precondition. -/
theorem exec_plain_fault {s : State} {i : Instr} {t : Transfer} {body : State → State}
    (h : PlainTransfer s.params i t body) {c : FaultCause} (hf : t.fault s = some c) :
    exec i s = .next { s with fault := latchFault s.fault t.dev.code c, response := some (.fault c) } := by
  rw [exec_plain h, Transfer.run_of_some body hf]
  rfl

/-! ### Each transfer when its preconditions hold, as one record

`t.regsAfter s` has its laws in Laws/Ops.lean; the memories are closed terms, so that no later proof has to
compare a nested record update. -/

section

variable {s : State} {i : Instr} {t : Transfer} {body : State → State} (h : PlainTransfer s.params i t body)
  (hf : t.fault s = none)
include h hf

theorem exec_ok_of_buf {b : Memory} (hb : body s = { s with buf := b }) :
    exec i s = .next { s with buf := b, regs := t.regsAfter s, response := some (.done true none) } := by
  rw [exec_plain_ok h hf, hb]

theorem exec_ok_of_tape {x : Memory} {st : Option Memory} (hb : body s = { s with tapeData := x, tapeStore := st }) :
    exec i s =
      .next { s with tapeData := x, tapeStore := st, regs := t.regsAfter s, response := some (.done true none) } := by
  rw [exec_plain_ok h hf, hb]

theorem exec_ok_of_disk {x : Memory} {st : Option Memory} (hb : body s = { s with diskData := x, diskStore := st }) :
    exec i s =
      .next { s with diskData := x, diskStore := st, regs := t.regsAfter s, response := some (.done true none) } := by
  rw [exec_plain_ok h hf, hb]

theorem exec_ok_of_cards {c : CardStores} (hb : body s = { s with cards := c }) :
    exec i s = .next { s with cards := c, regs := t.regsAfter s, response := some (.done true none) } := by
  rw [exec_plain_ok h hf, hb]

theorem exec_ok_of_sink {x : List Char8} (hb : body s = { s with sink := x }) :
    exec i s = .next { s with sink := x, regs := t.regsAfter s, response := some (.done true none) } := by
  rw [exec_plain_ok h hf, hb]

theorem exec_ok_of_file {x : Option (List Char8)} (hb : body s = { s with paperFile := x }) :
    exec i s = .next { s with paperFile := x, regs := t.regsAfter s, response := some (.done true none) } := by
  rw [exec_plain_ok h hf, hb]

end

/-! ### The Words a transfer moves -/

/-- The caller buffer after `n` Words of `x` from index `k` on have gone to it (R129). -/
theorem read_pageIn {N n : Nat} {b : Memory} (hb : Memory.wf N b) (hn : n ≤ N) (x : Memory) (k a : Nat) :
    Memory.read (memWrite b 0 (memRead x k n)) a = if a < n then Memory.read x (k + a) else Memory.read b a := by
  rw [read_memWrite hb _ (by simpa using hn), memRead_length]
  by_cases ha : a < n
  · rw [if_pos (by omega), if_pos ha, Nat.sub_zero, memRead_getD _ _ _ _ ha]
  · rw [if_neg (by omega), if_neg ha]

/-- A mirror after `n` Words of the caller buffer have gone to it from index `k` on (R129). -/
theorem read_pageOut {N n : Nat} {x : Memory} (hx : Memory.wf N x) {k : Nat} (hk : k + n ≤ N) (b : Memory) (a : Nat) :
    Memory.read (memWrite x k (memRead b 0 n)) a = if k ≤ a ∧ a < k + n then Memory.read b (a - k) else Memory.read x a := by
  rw [read_memWrite hx _ (by simpa using hk), memRead_length]
  by_cases ha : k ≤ a ∧ a < k + n
  · rw [if_pos ha, if_pos ha, memRead_getD _ _ _ _ (by omega), Nat.zero_add]
  · rw [if_neg ha, if_neg ha]

/-- The caller buffer after a card has been read (R160). -/
theorem read_card {N : Nat} {b : Memory} (hb : Memory.wf N b) {p : Params} (hn : p.cardReader.blockSize ≤ N) (c : Codec)
    (rec : List Char8) (j : Nat) :
    Memory.read (memWrite b 0 (decodeCard p c rec)) j =
      if j < p.cardReader.blockSize then cardWord c rec (5 * j + j / 4) else Memory.read b j := by
  rw [read_memWrite hb _ (by rw [decodeCard_length]; omega), decodeCard_length]
  by_cases h : j < p.cardReader.blockSize
  · rw [if_pos (by omega), if_pos h, Nat.sub_zero, decodeCard_getD _ _ _ h]
  · rw [if_neg (by omega), if_neg h]

/-- The caller buffer after `TW.IN` has written `n` Words (R186). -/
theorem read_twWords {N n : Nat} {b : Memory} (hb : Memory.wf N b) (hn : n ≤ N) (codes : List Code6) (a : Nat) :
    Memory.read (memWrite b 0 (twWords codes n)) a = if a < n then twWord codes a else Memory.read b a := by
  rw [read_memWrite hb _ (by simpa using hn), twWords_length]
  by_cases ha : a < n
  · rw [if_pos (by omega), if_pos ha, Nat.sub_zero, twWords_getD _ ha]
  · rw [if_neg (by omega), if_neg ha]

/-! ### TW.IN -/

theorem typeRule_fault_eq_none_iff (s : State) :
    (typeRule s.params s.latTw).fault s = none ↔ s.port.now.toNat + s.params.typeWriter.blockSize * s.latTw < 2 ^ 64 := by
  rw [Transfer.fault_eq_none_iff]
  simp [typeRule]

/-- The only fault `TW.IN` can raise is `TimeOverflow` (R186). -/
theorem typeRule_fault_some {s : State} {c : FaultCause} (h : (typeRule s.params s.latTw).fault s = some c) :
    c = .timeOverflow ∧ 2 ^ 64 ≤ s.port.now.toNat + s.params.typeWriter.blockSize * s.latTw := by
  unfold Transfer.fault at h
  rw [if_neg (by simp [typeRule]), if_neg (by simp [typeRule])] at h
  split at h
  · rename_i hle; exact ⟨by simpa using h.symm, hle⟩
  · cases h

theorem twFinish_eq (codes : List Code6) (rest : List Char8) (s : State) :
    twFinish codes rest s =
      { s with
        source := rest
        held := none
        buf := memWrite s.buf 0 (twWords codes s.params.typeWriter.blockSize)
        regs := s.regs.set .typeWriter
          { curPage := s.curPage .typeWriter
            busyUntil := BitVec.ofNat 64 (s.port.now.toNat + s.params.typeWriter.blockSize * s.latTw) }
        response := some (.done true none) } := by
  unfold twFinish
  rw [Transfer.complete_eq]
  rfl

theorem twHold_eq (codes : List Code6) (s : State) :
    twHold codes s =
      { s with
        source := []
        held := some codes
        response := none
        buf := memWrite s.buf 0 (twWords codes (codes.length / 5)) } := rfl

/-- `TW.IN` when its busy time fits: the loop from its start. -/
theorem twIn_of_lt {s : State} (h : s.port.now.toNat + s.params.typeWriter.blockSize * s.latTw < 2 ^ 64) :
    exec .twIn s = .next (twAdvance [] s) := by
  show execTwIn s = _
  rw [execTwIn, (typeRule_fault_eq_none_iff s).2 h]

/-- `TW.IN` when its busy time does not fit (R227). -/
theorem twIn_of_le {s : State} (h : 2 ^ 64 ≤ s.port.now.toNat + s.params.typeWriter.blockSize * s.latTw) :
    exec .twIn s =
      .next { s with fault := latchFault s.fault 5#3 .timeOverflow, response := some (.fault .timeOverflow) } := by
  show execTwIn s = _
  cases hf : (typeRule s.params s.latTw).fault s with
  | none => exact absurd ((typeRule_fault_eq_none_iff s).1 hf) (by omega)
  | some c =>
    obtain ⟨rfl, -⟩ := typeRule_fault_some hf
    rw [execTwIn, hf]
    rfl

/-- The loop completes the command with some codes, or holds it with some. -/
theorem twAdvance_cases (codes : List Code6) (s : State) :
    (∃ cs rest, twAdvance codes s = twFinish cs rest s) ∨
    (∃ cs, twScan (twChars s.params) s.codec codes s.source = .wait cs ∧ twAdvance codes s = twHold cs s) := by
  unfold twAdvance
  cases h : twScan (twChars s.params) s.codec codes s.source with
  | full cs rest => exact Or.inl ⟨cs, rest, rfl⟩
  | escape cs rest => exact Or.inl ⟨_, rest, rfl⟩
  | wait cs => exact Or.inr ⟨cs, rfl, rfl⟩

/-- A scan that waits has read every byte of the source, and fewer than `n` codes in all. -/
theorem twScan_wait_codes {n : Nat} {c : Codec} {cs codes : List Code6} {src : List Char8} (hc : codes.length ≤ n)
    (h : twScan n c codes src = .wait cs) :
    ∃ vals, cs = codes ++ vals ∧ src.map (toVal c) = vals.map some ∧ cs.length < n := by
  obtain ⟨pre, post, vals, h1, h2, h3 | ⟨b, h3⟩ | h3⟩ := twScan_cases n c codes src hc
  · rw [h] at h3; cases h3.1
  · rw [h] at h3; cases h3.1
  · obtain ⟨h3, rfl, h4⟩ := h3
    rw [h] at h3
    cases h3
    refine ⟨vals, rfl, h1, ?_⟩
    have := congrArg List.length h1
    simp only [List.length_map] at this
    rw [List.length_append]
    omega

/-! ### Everything a command can have done -/

theorem exec_next_cases {i : Instr} {s t : State} (h : exec i s = .next t) :
    (∃ f, answer i = some f ∧ t = { s with response := some (f s.regs s.port.now) }) ∨
    (∃ d, i = .setPage d ∧
      t = { s with regs := s.regs.set d { s.regs.get d with curPage := s.port.page }, response := some (.done true none) }) ∨
    (∃ r body c, PlainTransfer s.params i r body ∧ r.fault s = some c ∧
      t = { s with fault := latchFault s.fault r.dev.code c, response := some (.fault c) }) ∨
    (∃ r body, PlainTransfer s.params i r body ∧ r.fault s = none ∧
      t = { body s with regs := r.regsAfter s, response := some (.done true none) }) ∨
    (i = .twIn ∧ 2 ^ 64 ≤ s.port.now.toNat + s.params.typeWriter.blockSize * s.latTw ∧
      t = { s with fault := latchFault s.fault 5#3 .timeOverflow, response := some (.fault .timeOverflow) }) ∨
    (i = .twIn ∧ s.port.now.toNat + s.params.typeWriter.blockSize * s.latTw < 2 ^ 64 ∧
      ((∃ cs rest, t = twFinish cs rest s) ∨
        ∃ cs, twScan (twChars s.params) s.codec [] s.source = .wait cs ∧ t = twHold cs s)) := by
  rcases exec_cases i s with ⟨f, hq, h'⟩ | ⟨d, hd, h'⟩ | ⟨r, body, hm, h'⟩ | ⟨rfl, -⟩
  · rw [h'] at h; cases h; exact Or.inl ⟨f, hq, rfl⟩
  · rw [h'] at h; cases h; exact Or.inr (Or.inl ⟨d, hd, rfl⟩)
  · cases hf : r.fault s with
    | some c =>
      rw [exec_plain_fault hm hf] at h; cases h
      exact Or.inr (Or.inr (Or.inl ⟨r, body, c, hm, hf, rfl⟩))
    | none =>
      rw [exec_plain_ok hm hf] at h; cases h
      exact Or.inr (Or.inr (Or.inr (Or.inl ⟨r, body, hm, hf, rfl⟩)))
  · refine Or.inr (Or.inr (Or.inr (Or.inr ?_)))
    rcases Nat.lt_or_ge (s.port.now.toNat + s.params.typeWriter.blockSize * s.latTw) (2 ^ 64) with hlt | hle
    · rw [twIn_of_lt hlt] at h
      injection h with h
      refine Or.inr ⟨rfl, hlt, ?_⟩
      rcases twAdvance_cases [] s with ⟨cs, rest, e⟩ | ⟨cs, hw, e⟩
      · exact Or.inl ⟨cs, rest, h ▸ e⟩
      · exact Or.inr ⟨cs, hw, h ▸ e⟩
    · rw [twIn_of_le hle] at h; cases h
      exact Or.inl ⟨rfl, hle, rfl⟩

end Sys2Proof.Machine
end

