-- ==== Sys2Proof/Laws/Step.lean ====
section
/-! SUPPORT. What a step fetches, case by case: one equation for each thing that can come next, and what a
host action can do. -/

namespace Sys2Proof.Machine

theorem step_of_run {s t : State} {i : Instr} (h : fetch s = .run i t) : step s = exec i t := by simp [step, h]

theorem step_of_other {s : State} {o : Host.Outcome State Fault Refusal} (h : fetch s = .other o) : step s = o := by
  simp [step, h]

theorem fetch_idle {s : State} (h : s.held = none) (hi : s.inputs = []) : fetch s = .other (.next s) := by
  simp [fetch, h, hi]

theorem fetch_command {s : State} {c : Command} {rest : List Input} (h : s.held = none)
    (hi : s.inputs = .command c :: rest) : fetch s = fetchCommand c rest s := by
  simp [fetch, h, hi]

theorem fetch_supply {s : State} {cells : Memory} {rest : List Input} (h : s.held = none)
    (hi : s.inputs = .supplyBuffer cells :: rest) : fetch s = .other (supply cells { s with inputs := rest }) := by
  unfold fetch; rw [h, hi]

theorem fetch_host {s : State} {a : HostAction} {rest : List Input} (h : s.held = none)
    (hi : s.inputs = .host a :: rest) : fetch s = .other (hostAct a { s with inputs := rest }) := by
  unfold fetch; rw [h, hi]

theorem fetch_held {s : State} {codes : List Code6} (h : s.held = some codes) : fetch s = .other (fetchHeld codes s) := by
  unfold fetch; rw [h]

theorem fetchHeld_append {s : State} {codes : List Code6} {bytes : List Char8} {rest : List Input}
    (hi : s.inputs = .host (.appendSource bytes) :: rest) :
    fetchHeld codes s = .next (twAdvance codes { s with source := s.source ++ bytes, inputs := rest }) := by
  unfold fetchHeld; rw [hi]

theorem fetchHeld_other {s : State} (codes : List Code6)
    (h : ∀ bytes rest, s.inputs ≠ .host (.appendSource bytes) :: rest) : fetchHeld codes s = .next s := by
  unfold fetchHeld
  split
  · rename_i bytes rest hi; exact absurd hi (h bytes rest)
  · rfl

theorem fetchCommand_ok {s : State} {c : Command} {rest : List Input} {i : Instr} (h : decode c.cmd = .ok i) :
    fetchCommand c rest s = .run i (s.present c rest) := by simp [fetchCommand, h]

theorem fetchCommand_error {s : State} {c : Command} {rest : List Input} {e : Reserved} (h : decode c.cmd = .error e) :
    fetchCommand c rest s = .other (raiseFault (cmdDevField c.cmd) .illegalCommand (s.present c rest)) := by
  simp [fetchCommand, h]

/-- Everything a step does: it waits, runs a command, raises `IllegalCommand`, or lets the channel or the
host act. -/
theorem step_cases (s : State) :
    (∃ codes bytes rest, s.held = some codes ∧ s.inputs = .host (.appendSource bytes) :: rest ∧
      step s = .next (twAdvance codes { s with source := s.source ++ bytes, inputs := rest })) ∨
    step s = .next s ∨
    (s.held = none ∧ ∃ c rest i, s.inputs = .command c :: rest ∧ decode c.cmd = .ok i ∧
      step s = exec i (s.present c rest)) ∨
    (s.held = none ∧ ∃ c rest e, s.inputs = .command c :: rest ∧ decode c.cmd = .error e ∧
      step s = raiseFault (cmdDevField c.cmd) .illegalCommand (s.present c rest)) ∨
    (s.held = none ∧ ∃ cells rest, s.inputs = .supplyBuffer cells :: rest ∧ step s = supply cells { s with inputs := rest }) ∨
    (s.held = none ∧ ∃ a rest, s.inputs = .host a :: rest ∧ step s = hostAct a { s with inputs := rest }) := by
  have hh : s.held = none ∨ ∃ codes, s.held = some codes := by cases s.held <;> simp
  rcases hh with h | ⟨codes, h⟩
  · have hi : s.inputs = [] ∨ ∃ x rest, s.inputs = x :: rest := by cases s.inputs <;> simp
    rcases hi with hi | ⟨x, rest, hi⟩
    · exact Or.inr (Or.inl (step_of_other (fetch_idle h hi)))
    · cases x with
      | command c =>
        cases hd : decode c.cmd with
        | ok i =>
          exact Or.inr (Or.inr (Or.inl ⟨h, c, rest, i, hi, hd,
            step_of_run ((fetch_command h hi).trans (fetchCommand_ok hd))⟩))
        | error e =>
          exact Or.inr (Or.inr (Or.inr (Or.inl ⟨h, c, rest, e, hi, hd,
            step_of_other ((fetch_command h hi).trans (fetchCommand_error hd))⟩)))
      | supplyBuffer cells =>
        exact Or.inr (Or.inr (Or.inr (Or.inr (Or.inl ⟨h, cells, rest, hi, step_of_other (fetch_supply h hi)⟩))))
      | host a =>
        exact Or.inr (Or.inr (Or.inr (Or.inr (Or.inr ⟨h, a, rest, hi, step_of_other (fetch_host h hi)⟩))))
  · by_cases ha : ∃ bytes rest, s.inputs = .host (.appendSource bytes) :: rest
    · obtain ⟨bytes, rest, hi⟩ := ha
      exact Or.inl ⟨codes, bytes, rest, h, hi,
        (step_of_other (fetch_held h)).trans (fetchHeld_append hi)⟩
    · exact Or.inr (Or.inl ((step_of_other (fetch_held h)).trans
        (fetchHeld_other codes fun bytes rest hi => ha ⟨bytes, rest, hi⟩)))

theorem cellsFit_iff (n : Nat) (cells : Memory) : cellsFit n cells = true ↔ ∀ c ∈ cells, c.1 < n := by
  simp [cellsFit]

/-- A reset of a device leaves everything but its registers and, for Tape and Disk, its mirror. -/
theorem resetDevice_eq (d : Device) (r : Bool) (s : State) :
    resetDevice d r s =
      { s with
        regs := s.regs.set d DevRegs.reset
        tapeData := if d = .tape then (s.storeLoad .tape r).getD [] else s.tapeData
        diskData := if d = .disk then (s.storeLoad .disk r).getD [] else s.diskData } := by
  cases d <;> rfl

/-- A store that fits is taken as its canonical memory. -/
theorem changeStore_of_fit (s : State) {m : Medium} {cells : Memory} (h : ∀ c ∈ cells, c.1 < mirrorWords s.params m) :
    changeStore m (some cells) s = .next (s.setStore m (some (memOfCells cells))) :=
  if_pos ((cellsFit_iff _ _).2 h)

/-- A store with a Word beyond its end is refused. -/
theorem changeStore_of_not_fit (s : State) {m : Medium} {cells : Memory}
    (h : ¬ ∀ c ∈ cells, c.1 < mirrorWords s.params m) : changeStore m (some cells) s = .refused .storeLength :=
  if_neg fun hc => h ((cellsFit_iff _ _).1 hc)

/-- A buffer that fits is taken as its canonical memory. -/
theorem supply_of_fit (s : State) {cells : Memory} (h : ∀ c ∈ cells, c.1 < bufWords s.params) :
    supply cells s = .next { s with buf := memOfCells cells } :=
  if_pos ((cellsFit_iff _ _).2 h)

/-- A buffer with a Word beyond its end is refused. -/
theorem supply_of_not_fit (s : State) {cells : Memory} (h : ¬ ∀ c ∈ cells, c.1 < bufWords s.params) :
    supply cells s = .refused .bufferLength :=
  if_neg fun hc => h ((cellsFit_iff _ _).1 hc)

/-! ### The card devices and their directories -/

/-- Constructing one card device alone touches its registers and which records it stands on. -/
theorem constructReader_eq (dir : CardDirectory) (s : State) :
    constructReader dir s =
      { s with regs := s.regs.set .cardReader DevRegs.reset, cards := s.cards.readerOn dir } := rfl

theorem constructWriter_eq (dir : CardDirectory) (s : State) :
    constructWriter dir s =
      { s with regs := s.regs.set .cardWriter DevRegs.reset, cards := s.cards.writerOn dir } := rfl

/-- The other card device keeps its records. -/
@[simp] theorem CardStores.writer_readerOn (c : CardStores) (dir : CardDirectory) : (c.readerOn dir).writer = c.writer := by
  cases dir <;> rfl

@[simp] theorem CardStores.reader_writerOn (c : CardStores) (dir : CardDirectory) : (c.writerOn dir).reader = c.reader := by
  cases dir <;> rfl

/-- On the other's directory the device finds the other's records. -/
@[simp] theorem CardStores.reader_readerOn_others (c : CardStores) : (c.readerOn .others).reader = c.writer := rfl

@[simp] theorem CardStores.writer_writerOn_others (c : CardStores) : (c.writerOn .others).writer = c.reader := rfl

@[simp] theorem CardStores.reader_readerOn_own (c : CardStores) (recs : RecMap) :
    (c.readerOn (.own recs)).reader = recMapOfList recs := rfl

@[simp] theorem CardStores.writer_writerOn_own (c : CardStores) (recs : RecMap) :
    (c.writerOn (.own recs)).writer = recMapOfList recs := rfl

/-- A run of one step more is the step and then the run. -/
theorem run_step (M : Host.Core) {k : Nat} {s t : M.State} (h : M.step s = .next t) : M.run (k + 1) s = M.run k t := by
  simp [Host.Core.run, h]

end Sys2Proof.Machine
end

