-- ==== Sys2Proof/Laws/Invariant.lean ====
section
/-! SUPPORT. The pieces of the machine's invariant: what each shared operation keeps of it. The states are
given with the changed memory as a variable, so that no proof has to compare closed memory terms. -/

namespace Sys2Proof.Machine

/-- A state that agrees on what the invariant reads meets it too. -/
theorem State.Inv.of_eq {s t : State} (hi : s.Inv) (h0 : t.params = s.params) (h1 : t.tapeData = s.tapeData)
    (h2 : t.diskData = s.diskData) (h3 : t.tapeStore = s.tapeStore) (h4 : t.diskStore = s.diskStore) (h5 : t.buf = s.buf)
    (h6 : t.cards = s.cards) (h7 : t.fault = s.fault) (h8 : t.latTw = s.latTw)
    (h9 : ∀ codes, t.held = some codes → codes.length < twChars s.params ∧ t.source = [] ∧ t.response = none) : t.Inv :=
  ⟨h0 ▸ hi.params, h0 ▸ h1 ▸ hi.tapeData, h0 ▸ h2 ▸ hi.diskData, h0 ▸ h3 ▸ hi.tapeStore, h0 ▸ h4 ▸ hi.diskStore,
    h0 ▸ h5 ▸ hi.buf, h6 ▸ hi.cards, h7 ▸ hi.fault, h8 ▸ hi.latTw, h0 ▸ h9⟩

/-- Taking a fault keeps the latch legal (R28). -/
theorem faultLegal_latch {f : BitVec 8} (h : faultLegal f) (dev : BitVec 3) (c : FaultCause) : faultLegal (latchFault f dev c) := by
  unfold latchFault
  split
  · exact Or.inr ⟨dev, c, rfl⟩
  · exact h

/-- A page in range written into a mirror keeps it canonical (R39 (3)). -/
theorem wf_pagedOut {k n p : Nat} {x : Memory} (b : Memory) (hx : Memory.wf (k * n) x) (hp : p < n) :
    Memory.wf (k * n) (memWrite x (p * k) (memRead b 0 k)) :=
  wf_memWrite hx _ (by rw [memRead_length]; exact page_in_mirror hp)

/-- A record written keeps both record stores canonical. -/
theorem CardStores.wf_setWriter {c : CardStores} (h : c.wf) (p : Nat) (bs : List Char8) : (c.setWriter (RecMap.put c.writer p bs)).wf := by
  have := RecMap.wf_put h.2 p bs
  cases c
  · exact ⟨h.1, this⟩
  · exact ⟨this, this⟩

/-- The host's change of one device's records keeps both record stores canonical. -/
theorem CardStores.wf_setReader {c : CardStores} (h : c.wf) {m : RecMap} (hm : RecMap.wf m) : (c.setReader m).wf := by
  cases c
  · exact ⟨hm, h.2⟩
  · exact ⟨hm, hm⟩

theorem CardStores.wf_setWriter_of {c : CardStores} (h : c.wf) {m : RecMap} (hm : RecMap.wf m) : (c.setWriter m).wf := by
  cases c
  · exact ⟨h.1, hm⟩
  · exact ⟨hm, hm⟩

/-- A card device constructed alone keeps both record stores canonical. -/
theorem CardStores.wf_readerOn {c : CardStores} (h : c.wf) (dir : CardDirectory) : (c.readerOn dir).wf := by
  cases dir
  · exact ⟨wf_recMapOfList _, h.2⟩
  · exact ⟨h.2, h.2⟩

theorem CardStores.wf_writerOn {c : CardStores} (h : c.wf) (dir : CardDirectory) : (c.writerOn dir).wf := by
  cases dir
  · exact ⟨h.1, wf_recMapOfList _⟩
  · exact ⟨h.1, h.1⟩

section

variable {s : State} (hi : s.Inv) (hh : s.held = none) (r : RegFile) (x : Option Response)
include hi hh

/-- Another canonical caller buffer. -/
theorem State.Inv.with_buf (b : Memory) (hb : Memory.wf (bufWords s.params) b) :
    ({ s with buf := b, regs := r, response := x } : State).Inv :=
  { hi with
    buf := hb
    held := fun _ h => absurd (hh.symm.trans h) (by simp) }

/-- Another canonical Tape mirror, saved to the store or not. -/
theorem State.Inv.with_tape (b : Memory) (st : Option Memory) (hb : Memory.wf (mirrorWords s.params .tape) b)
    (hst : st = some b ∨ st = s.tapeStore) :
    ({ s with tapeData := b, tapeStore := st, regs := r, response := x } : State).Inv :=
  { hi with
    tapeData := hb
    tapeStore := fun m h => by
      rcases hst with rfl | rfl
      · injection h with h; subst h; exact hb
      · exact hi.tapeStore m h
    held := fun _ h => absurd (hh.symm.trans h) (by simp) }

/-- Another canonical Disk mirror, saved to the store or not. -/
theorem State.Inv.with_disk (b : Memory) (st : Option Memory) (hb : Memory.wf (mirrorWords s.params .disk) b)
    (hst : st = some b ∨ st = s.diskStore) :
    ({ s with diskData := b, diskStore := st, regs := r, response := x } : State).Inv :=
  { hi with
    diskData := hb
    diskStore := fun m h => by
      rcases hst with rfl | rfl
      · injection h with h; subst h; exact hb
      · exact hi.diskStore m h
    held := fun _ h => absurd (hh.symm.trans h) (by simp) }

/-- Other canonical record stores. -/
theorem State.Inv.with_cards (c : CardStores) (hc : c.wf) : ({ s with cards := c, regs := r, response := x } : State).Inv :=
  { hi with
    cards := hc
    held := fun _ h => absurd (hh.symm.trans h) (by simp) }

end

/-- What the host presents as record stores is made canonical. -/
theorem wf_cardStoresOf (c : CardStores) : (cardStoresOf c).wf := by
  cases c
  · exact ⟨wf_recMapOfList _, wf_recMapOfList _⟩
  · exact ⟨wf_recMapOfList _, wf_recMapOfList _⟩

/-- A mirror loaded from a canonical store is canonical. -/
theorem wf_storeLoad {n : Nat} {st : Option Memory} (h : ∀ m, st = some m → Memory.wf n m) (r : Bool) : Memory.wf n ((if r = true then st else none).getD []) := by
  cases r
  · exact Memory.wf_nil n
  · cases st
    · exact Memory.wf_nil n
    · exact h _ rfl

end Sys2Proof.Machine
end

