-- ==== Sys2Proof/Laws/PerInstr.lean ====
section
/-! SUPPORT. The family of statements made per instruction: the fields of every command are well-formed and
are what its command word is cut into (30_encoding.md R81 to R83, R87). -/

namespace Sys2Proof.Laws.FieldsWellFormed

/-- The command word's three fields are those of a command, none of R87's reserved values, and cutting the
command word gives these fields back. -/
def Statement (i : Instr) : Prop := i.fields.wellFormed = true ∧ cmdFields (encode i) = i.fields

theorem tapeIn : Statement .tapeIn := ⟨rfl, rfl⟩
theorem tapeOut : Statement .tapeOut := ⟨rfl, rfl⟩
theorem tapeIoc : Statement .tapeIoc := ⟨rfl, rfl⟩
theorem tapeBusy : Statement .tapeBusy := ⟨rfl, rfl⟩
theorem diskIn : Statement .diskIn := ⟨rfl, rfl⟩
theorem diskOut : Statement .diskOut := ⟨rfl, rfl⟩
theorem diskIoc : Statement .diskIoc := ⟨rfl, rfl⟩
theorem diskBusy : Statement .diskBusy := ⟨rfl, rfl⟩
theorem crIn : Statement .crIn := ⟨rfl, rfl⟩
theorem crOut : Statement .crOut := ⟨rfl, rfl⟩
theorem crIoc : Statement .crIoc := ⟨rfl, rfl⟩
theorem crBusy : Statement .crBusy := ⟨rfl, rfl⟩
theorem cwIn : Statement .cwIn := ⟨rfl, rfl⟩
theorem cwOut : Statement .cwOut := ⟨rfl, rfl⟩
theorem cwIoc : Statement .cwIoc := ⟨rfl, rfl⟩
theorem cwBusy : Statement .cwBusy := ⟨rfl, rfl⟩
theorem lpIn : Statement .lpIn := ⟨rfl, rfl⟩
theorem lpOut : Statement .lpOut := ⟨rfl, rfl⟩
theorem lpIoc : Statement .lpIoc := ⟨rfl, rfl⟩
theorem lpBusy : Statement .lpBusy := ⟨rfl, rfl⟩
theorem twIn : Statement .twIn := ⟨rfl, rfl⟩
theorem twOut : Statement .twOut := ⟨rfl, rfl⟩
theorem twIoc : Statement .twIoc := ⟨rfl, rfl⟩
theorem twBusy : Statement .twBusy := ⟨rfl, rfl⟩
theorem ptIn : Statement .ptIn := ⟨rfl, rfl⟩
theorem ptOut : Statement .ptOut := ⟨rfl, rfl⟩
theorem ptIoc : Statement .ptIoc := ⟨rfl, rfl⟩
theorem ptBusy : Statement .ptBusy := ⟨rfl, rfl⟩
theorem getPage (dev : Device) : Statement (.getPage dev) := by cases dev <;> exact ⟨rfl, rfl⟩
theorem setPage (dev : Device) : Statement (.setPage dev) := by cases dev <;> exact ⟨rfl, rfl⟩

end Sys2Proof.Laws.FieldsWellFormed
end

