-- ==== Sys2Proof/Tests/Slice0.lean ====
section
/-! SUPPORT. Tests of the model. The expected results are those of spec/95_test_vectors.md (its vector's name
stands at each test), of 30_encoding.md's map written out bit by bit, and of the rules named; and for every
obligation with hypotheses a concrete state that meets them. -/

namespace Sys2Proof.Tests

open Sys2Proof.Machine Sys2Proof.Claims

/-! ### The test codec TC of 95_test_vectors.md, and small states -/

/-- `toChar` of TC: the assigned codes. -/
def tcChars : List (Code6 × Char8) :=
   [(0, 0x20), (1, 0x41), (2, 0x42), (3, 0x43), (4, 0x44), (5, 0x45), (6, 0x46), (7, 0x47), (8, 0x48), (9, 0x49), (11, 0x4A)] ++
   [(12, 0x4B), (13, 0x4C), (14, 0x4D), (15, 0x4E), (16, 0x4F), (17, 0x50), (18, 0x51), (19, 0x52), (22, 0x53), (23, 0x54), (24, 0x55)] ++
   [(25, 0x56), (26, 0x57), (27, 0x58), (28, 0x59), (29, 0x5A), (30, 0x30), (31, 0x31), (32, 0x32), (33, 0x33), (34, 0x34), (35, 0x35)] ++
   [(36, 0x36), (37, 0x37), (38, 0x38), (39, 0x39), (40, 0x2E), (41, 0x2C), (42, 0x28), (43, 0x29), (44, 0x2B), (45, 0x2D), (46, 0x2A)] ++
   [(47, 0x2F), (48, 0x3D), (49, 0x24), (50, 0x3C), (51, 0x3E), (52, 0x40), (53, 0x3B), (54, 0x3A), (55, 0x27)]

/-- `toVal` of TC: the bytes that have a code. -/
def tcCodes : List (Char8 × Code6) :=
   [(0x20, 0), (0x41, 1), (0x42, 2), (0x43, 3), (0x44, 4), (0x45, 5), (0x46, 6), (0x47, 7), (0x48, 8), (0x49, 9), (0x4A, 11)] ++
   [(0x4B, 12), (0x4C, 13), (0x4D, 14), (0x4E, 15), (0x4F, 16), (0x50, 17), (0x51, 18), (0x52, 19), (0x53, 22), (0x54, 23), (0x55, 24)] ++
   [(0x56, 25), (0x57, 26), (0x58, 27), (0x59, 28), (0x5A, 29), (0x30, 30), (0x31, 31), (0x32, 32), (0x33, 33), (0x34, 34), (0x35, 35)] ++
   [(0x36, 36), (0x37, 37), (0x38, 38), (0x39, 39), (0x2E, 40), (0x2C, 41), (0x28, 42), (0x29, 43), (0x2B, 44), (0x2D, 45), (0x2A, 46)] ++
   [(0x2F, 47), (0x3D, 48), (0x24, 49), (0x3C, 50), (0x3E, 51), (0x40, 52), (0x3B, 53), (0x3A, 54), (0x27, 55)]

/-- TC: `SPACE` = 0, `NL` = 0x0A, an unassigned code gives 0x00. -/
def tc : Codec := { chars := tcChars, unassigned := 0x00, codes := tcCodes, space := 0, nl := 0x0A }

/-- TC with `SPACE` = 47 (vectors V-D3c, V-TW6, V-TW7). -/
def tcSpace47 : Codec := { tc with space := 47 }

/-- A Word with sign `POS`. -/
def pw (n : Nat) : Word := { sign := .pos, data := BitVec.ofNat 30 n }

/-- A Word with sign `NEG`. -/
def nw (n : Nat) : Word := { sign := .neg, data := BitVec.ofNat 30 n }

/-- The reset machine with TC, one device's cursor at `page`, and the clock at `now`. -/
def at_ (d : Device) (page : PageNo) (now : Time) : State :=
  { State.reset with
    codec := tc
    latTw := 100
    regs := RegFile.reset.set d { curPage := page, busyUntil := 0 }
    port := { Command.idle with now := now } }

/-- What the channel presents: a command word at a time, with both resources available. -/
def cmd (c : BitVec 8) (now : Time) : Input := .command { Command.idle with cmd := c, now := now }

/-- The state one step of `s` gives, or `s`. -/
def after (s : State) : State :=
  match step s with
  | .next t => t
  | .fault _ => s
  | .refused _ => s

/-- The state after the channel presents `c` at `now` in `s`. -/
def run1 (s : State) (c : BitVec 8) (now : Time) : State := after { s with inputs := [cmd c now] }

/-- The same with the resource neither readable nor writable. -/
def run1off (s : State) (c : BitVec 8) (now : Time) : State :=
  after { s with inputs := [.command { Command.idle with cmd := c, now := now, readable := false, writable := false }] }

/-- A small state meets the invariant when its parts that are not those of reset do. -/
theorem inv_at (d : Device) (page : PageNo) (now : Time) (b : Memory) (src : List Char8) (c : CardStores)
    (q : Command) (x : List Input) (hb : Memory.wf (bufWords Config.params) b) (hc : c.wf) :
    ({ at_ d page now with buf := b, source := src, cards := c, port := q, inputs := x } : State).Inv :=
  { params := show Config.params.wellFormed = true by decide
    tapeData := Memory.wf_nil _
    diskData := Memory.wf_nil _
    tapeStore := fun m h => by cases h
    diskStore := fun m h => by cases h
    buf := hb
    cards := hc
    fault := Or.inl rfl
    latTw := show 0 < 100 by decide
    held := fun m h => by cases h }

/-- The plain case. -/
theorem inv_at' (d : Device) (page : PageNo) (now : Time) : (at_ d page now).Inv :=
  inv_at d page now [] [] (.separate [] []) { Command.idle with now := now } [] (Memory.wf_nil _)
    ⟨List.Pairwise.nil, List.Pairwise.nil⟩

/-! ### WellFormed and the other checks refuse what is ill-formed -/

/-- 30_encoding.md R81: formats 2 to 7. -/
theorem test_wellFormed_refuses_format : CmdFields.wellFormed { fmt := 2, dev := 0, op := 0 } = false := by decide
/-- R82: `DEV` = 7. -/
theorem test_wellFormed_refuses_device : CmdFields.wellFormed { fmt := 0, dev := 7, op := 0 } = false := by decide
/-- R83: `POP` = 2 in format P. -/
theorem test_wellFormed_refuses_regOp : CmdFields.wellFormed { fmt := 1, dev := 0, op := 2 } = false := by decide
/-- R83: `OP` = 2 in format C is a command. -/
theorem test_wellFormed_accepts_ioc : CmdFields.wellFormed { fmt := 0, dev := 6, op := 2 } = true := by decide
/-- 00_scope.md R8: each size and each latency constant is positive, and the defaults are well-formed. -/
theorem test_params_accepts_defaults : Config.params.wellFormed = true := by decide
theorem test_params_refuses_zero_sizes :
    ([{ Config.params with tape := { blockSize := 0, numBlocks := 2000 } },
      { Config.params with disk := { blockSize := 100, numBlocks := 0 } },
      { Config.params with cardReader := { blockSize := 0, numBlocks := 1 } },
      { Config.params with cardWriter := { blockSize := 0, numBlocks := 1 } },
      { Config.params with linePrinter := { blockSize := 0, numBlocks := 1 } },
      { Config.params with typeWriter := { blockSize := 14, numBlocks := 0 } },
      { Config.params with paperTape := { blockSize := 14, numBlocks := 0 } }] : List Params).all (fun p => !p.wellFormed)
      = true := by decide
theorem test_params_refuses_zero_latencies :
    ([{ Config.params.lat with tapeIn := 0 }, { Config.params.lat with tapeOut := 0 }, { Config.params.lat with diskIn := 0 },
      { Config.params.lat with diskOut := 0 }, { Config.params.lat with cardIn := 0 }, { Config.params.lat with cardOut := 0 },
      { Config.params.lat with print := 0 }, { Config.params.lat with paperTape := 0 }] : List Latencies).all
        (fun l => !({ Config.params with lat := l } : Params).wellFormed) = true := by decide
/-- 92_eei_decisions.md D2: a cursor counts every page; 43_card.md R169: one card a record. -/
theorem test_params_refuses_counts :
    ([{ Config.params with tape := { blockSize := 1, numBlocks := 2 ^ 32 } },
      { Config.params with disk := { blockSize := 1, numBlocks := 2 ^ 32 } },
      { Config.params with cardWriter := { blockSize := 16, numBlocks := 2 } }] : List Params).all (fun p => !p.wellFormed)
      = true := by decide
/-- A memory with a `ZERO` entry, or out of order, is not canonical. -/
theorem test_memory_wf_refuses_zero : ¬ Memory.wf 10 [(3, Word.zero)] := by decide
theorem test_memory_wf_refuses_order : ¬ Memory.wf 10 [(3, pw 1), (3, pw 2)] := by decide
theorem test_memory_wf_refuses_size : ¬ Memory.wf 3 [(3, pw 1)] := by decide
/-- 20_memory.md R55, R52: a store or a buffer that is too long is refused. -/
theorem test_long_store_is_refused :
    (match step { State.reset with inputs := [.host (.setTapeStore (some [(200000, pw 1)]))] } with
      | .refused .storeLength => true | _ => false) = true := by decide
theorem test_long_buffer_is_refused :
    (match step { State.reset with inputs := [.supplyBuffer [(14000, pw 1)]] } with
      | .refused .bufferLength => true | _ => false) = true := by decide

/-! ### Decoding, each word written out from 30_encoding.md R81 to R83: format, `DEV`, `OP` -/

theorem test_decode_tape :
    decode 0b00000000#8 = .ok .tapeIn ∧
    decode 0b00000001#8 = .ok .tapeOut ∧
    decode 0b00000010#8 = .ok .tapeIoc ∧
    decode 0b00000011#8 = .ok .tapeBusy ∧
    decode 0b00100000#8 = .ok (.getPage .tape) ∧
    decode 0b00100001#8 = .ok (.setPage .tape) := by decide
theorem test_decode_disk :
    decode 0b00000100#8 = .ok .diskIn ∧
    decode 0b00000101#8 = .ok .diskOut ∧
    decode 0b00000110#8 = .ok .diskIoc ∧
    decode 0b00000111#8 = .ok .diskBusy ∧
    decode 0b00100100#8 = .ok (.getPage .disk) ∧
    decode 0b00100101#8 = .ok (.setPage .disk) := by decide
theorem test_decode_cr :
    decode 0b00001000#8 = .ok .crIn ∧
    decode 0b00001001#8 = .ok .crOut ∧
    decode 0b00001010#8 = .ok .crIoc ∧
    decode 0b00001011#8 = .ok .crBusy ∧
    decode 0b00101000#8 = .ok (.getPage .cardReader) ∧
    decode 0b00101001#8 = .ok (.setPage .cardReader) := by decide
theorem test_decode_cw :
    decode 0b00001100#8 = .ok .cwIn ∧
    decode 0b00001101#8 = .ok .cwOut ∧
    decode 0b00001110#8 = .ok .cwIoc ∧
    decode 0b00001111#8 = .ok .cwBusy ∧
    decode 0b00101100#8 = .ok (.getPage .cardWriter) ∧
    decode 0b00101101#8 = .ok (.setPage .cardWriter) := by decide
theorem test_decode_lp :
    decode 0b00010000#8 = .ok .lpIn ∧
    decode 0b00010001#8 = .ok .lpOut ∧
    decode 0b00010010#8 = .ok .lpIoc ∧
    decode 0b00010011#8 = .ok .lpBusy ∧
    decode 0b00110000#8 = .ok (.getPage .linePrinter) ∧
    decode 0b00110001#8 = .ok (.setPage .linePrinter) := by decide
theorem test_decode_tw :
    decode 0b00010100#8 = .ok .twIn ∧
    decode 0b00010101#8 = .ok .twOut ∧
    decode 0b00010110#8 = .ok .twIoc ∧
    decode 0b00010111#8 = .ok .twBusy ∧
    decode 0b00110100#8 = .ok (.getPage .typeWriter) ∧
    decode 0b00110101#8 = .ok (.setPage .typeWriter) := by decide
theorem test_decode_pt :
    decode 0b00011000#8 = .ok .ptIn ∧
    decode 0b00011001#8 = .ok .ptOut ∧
    decode 0b00011010#8 = .ok .ptIoc ∧
    decode 0b00011011#8 = .ok .ptBusy ∧
    decode 0b00111000#8 = .ok (.getPage .paperTape) ∧
    decode 0b00111001#8 = .ok (.setPage .paperTape) := by decide
/-- 30_encoding.md R87: the ends of every group of reserved words, refused by name. -/
theorem test_decode_reserved :
    decode 0x1C#8 = .error .device ∧ decode 0x1F#8 = .error .device ∧ decode 0x22#8 = .error .regOp ∧
    decode 0x3B#8 = .error .regOp ∧ decode 0x3C#8 = .error .device ∧ decode 0x3F#8 = .error .device ∧
    decode 0x40#8 = .error .format ∧ decode 0xFF#8 = .error .format := by decide
/-- The host's two entry points read the same words: `CW.OUT`, row by number. -/
theorem test_decodeTableWord : decodeTableWord 8 0x0D = some .cwOut ∧ decodeTableWord 8 0x7D = none := by decide
theorem test_withFetchWord : (after (State.reset.withFetchWord 8 0x31)).response = some (.done true none) := by decide

/-! ### Codec primitives (95_test_vectors.md 2.1) -/

/-- V-F1, V-F2, V-F3, V-F4. -/
theorem test_field :
    (List.finRange 5).map (field (pw 17314053)) = [1, 2, 3, 4, 5] ∧
    (List.finRange 5).map (field (nw 17314053)) = [1, 2, 3, 4, 5] ∧
    (List.finRange 5).map (field (pw 1073741823)) = [63, 63, 63, 63, 63] ∧
    (List.finRange 5).map (field (pw 42)) = [0, 0, 0, 0, 42] := by decide
/-- V-P1 to V-P4. -/
theorem test_pack :
    pack 1 2 3 4 5 = pw 17314053 ∧ pack 63 63 63 63 63 = pw 1073741823 ∧ pack 1 10 56 63 5 = pw 19632069 ∧
    pack 4 0 0 0 0 = pw 67108864 := by decide
/-- V-E1, V-E3, V-E4, V-E5. -/
theorem test_encodeMS :
    encodeMS tc (pw 17314053) = [0x41, 0x42, 0x43, 0x44, 0x45] ∧ encodeMS tc (nw 135582544) = [0x48, 0x45, 0x4C, 0x4C, 0x4F] ∧
    encodeMS tc (pw 19632069) = [0x41, 0x00, 0x00, 0x00, 0x45] ∧ encodeMS tc (pw 42) = [0x20, 0x20, 0x20, 0x20, 0x28] := by decide
/-- V-E2, V-E5, V-E6. -/
theorem test_encodeLS :
    encodeLS tc (pw 17314053) = [0x45, 0x44, 0x43, 0x42, 0x41] ∧ encodeLS tc (pw 42) = [0x28, 0x20, 0x20, 0x20, 0x20] ∧
    encodeLS tc (pw 528619683) = [0x35, 0x34, 0x33, 0x32, 0x31] := by decide
/-- V-D1c, V-D2c, V-D3c. -/
theorem test_decodeBlank :
    [0x41, 0x20, 0x27, 0x00, 0x0A, 0x61, 0xFF].map (decodeBlank tc) = [1, 0, 55, 0, 0, 0, 0] ∧
    [0x00, 0x0A, 0x61, 0xFF].map (decodeBlank tcSpace47) = [47, 47, 47, 47] := by decide
/-- 10_state.md R21: bit 30 is the sign. -/
theorem test_bus : wordToBus (nw 5) = 0x40000005#31 ∧ wordOfBus 0x40000005#31 = nw 5 := by decide

/-! ### Base contract (95_test_vectors.md 2.2) -/

/-- V-B2. -/
theorem test_tapeBusy :
    (run1 (run1 (at_ .tape 0 0) 0x00 5) 0x03 10004).response = some (.done true none) ∧
    (run1 (run1 (at_ .tape 0 0) 0x00 5) 0x03 10005).response = some (.done false none) := by decide
/-- V-B3. -/
theorem test_diskBusy :
    (run1 (run1 (at_ .disk 0 0) 0x05 0) 0x07 14999).response = some (.done true none) ∧
    (run1 (run1 (at_ .disk 0 0) 0x05 0) 0x07 15000).response = some (.done false none) := by decide
/-- V-B4. -/
theorem test_crBusy :
    (run1 (run1 (at_ .cardReader 0 0) 0x08 1000) 0x0B 3399).response = some (.done true none) ∧
    (run1 (run1 (at_ .cardReader 0 0) 0x08 1000) 0x0B 3400).response = some (.done false none) := by decide
/-- V-B5. -/
theorem test_cwBusy :
    (run1 (run1 (at_ .cardWriter 0 0) 0x0D 0) 0x0F 3999).response = some (.done true none) ∧
    (run1 (run1 (at_ .cardWriter 0 0) 0x0D 0) 0x0F 4000).response = some (.done false none) := by decide
/-- V-B6. -/
theorem test_lpBusy :
    (run1 (run1 (at_ .linePrinter 0 0) 0x11 0) 0x13 2399).response = some (.done true none) ∧
    (run1 (run1 (at_ .linePrinter 0 0) 0x11 0) 0x13 2400).response = some (.done false none) := by decide
/-- V-B8. -/
theorem test_ptBusy :
    (run1 (run1 (at_ .paperTape 0 0) 0x19 0) 0x1B 2799).response = some (.done true none) ∧
    (run1 (run1 (at_ .paperTape 0 0) 0x19 0) 0x1B 2800).response = some (.done false none) := by decide
/-- V-B7, on the source of V-TW4. -/
theorem test_twBusy :
    (run1 (run1 { at_ .typeWriter 0 0 with source := [0x0A, 0x58] } 0x14 0) 0x17 1399).response = some (.done true none) ∧
    (run1 (run1 { at_ .typeWriter 0 0 with source := [0x0A, 0x58] } 0x14 0) 0x17 1400).response = some (.done false none) := by
  decide
/-- V-B9: a command issued while busy lowers `busyUntil`. -/
theorem test_busy_overwritten :
    ((run1 (run1 (at_ .tape 0 0) 0x01 0) 0x00 1).regs.get .tape) = { curPage := 2, busyUntil := 10001 } := by decide

/-- V-U1: each of the twelve, at its own command word; V-U2 with the cursor beyond the end. -/
theorem test_tapeIoc : (run1 (at_ .tape 2000 0) 0x02 0).response = some (.done false none) ∧
    (run1 (at_ .tape 2000 0) 0x02 0).fault = 0 := by decide
theorem test_diskIoc : (run1 (at_ .tape 2000 0) 0x06 0).response = some (.done false none) ∧
    (run1 (at_ .tape 2000 0) 0x06 0).fault = 0 := by decide
theorem test_crOut : (run1 (at_ .tape 2000 0) 0x09 0).response = some (.done false none) ∧
    (run1 (at_ .tape 2000 0) 0x09 0).fault = 0 := by decide
theorem test_crIoc : (run1 (at_ .tape 2000 0) 0x0A 0).response = some (.done false none) ∧
    (run1 (at_ .tape 2000 0) 0x0A 0).fault = 0 := by decide
theorem test_cwIn : (run1 (at_ .tape 2000 0) 0x0C 0).response = some (.done false none) ∧
    (run1 (at_ .tape 2000 0) 0x0C 0).fault = 0 := by decide
theorem test_cwIoc : (run1 (at_ .tape 2000 0) 0x0E 0).response = some (.done false none) ∧
    (run1 (at_ .tape 2000 0) 0x0E 0).fault = 0 := by decide
theorem test_lpIn : (run1 (at_ .tape 2000 0) 0x10 0).response = some (.done false none) ∧
    (run1 (at_ .tape 2000 0) 0x10 0).fault = 0 := by decide
theorem test_lpIoc : (run1 (at_ .tape 2000 0) 0x12 0).response = some (.done false none) ∧
    (run1 (at_ .tape 2000 0) 0x12 0).fault = 0 := by decide
theorem test_twOut : (run1 (at_ .tape 2000 0) 0x15 0).response = some (.done false none) ∧
    (run1 (at_ .tape 2000 0) 0x15 0).fault = 0 := by decide
theorem test_twIoc : (run1 (at_ .tape 2000 0) 0x16 0).response = some (.done false none) ∧
    (run1 (at_ .tape 2000 0) 0x16 0).fault = 0 := by decide
theorem test_ptIn : (run1 (at_ .tape 2000 0) 0x18 0).response = some (.done false none) ∧
    (run1 (at_ .tape 2000 0) 0x18 0).fault = 0 := by decide
theorem test_ptIoc : (run1 (at_ .tape 2000 0) 0x1A 0).response = some (.done false none) ∧
    (run1 (at_ .tape 2000 0) 0x1A 0).fault = 0 := by decide
/-- V-G1, V-G2. -/
theorem test_getPage : (run1 (at_ .disk 3999 0) 0x24 0).response = some (.done true (some 3999)) ∧
    (run1 (at_ .disk 3999 0) 0x38 0).response = some (.done true (some 0)) := by decide
/-- V-G3, V-G5: unchecked, on a busy device. -/
theorem test_setPage :
    ((after { run1 (at_ .disk 0 0) 0x05 0 with inputs := [.command { Command.idle with cmd := 0x25, page := 4000 }] }).regs.get .disk)
      = { curPage := 4000, busyUntil := 15000 } := by decide

/-! ### Tape and Disk (95_test_vectors.md 2.3) -/

/-- A mirror with a Word in page 0, one in page 19 and one in the last Tape page. -/
def mirrorT : Memory := [(0, pw 42), (1999, nw 1), (199900, nw 0), (199999, pw 7)]

/-- V-T1, 42_tape_disk.md R140 at page 1999. -/
theorem test_tapeIn : (run1 { at_ .tape 1999 0 with tapeData := mirrorT, buf := [(5, pw 9), (200, pw 3)] } 0x00 5).buf
      = [(0, nw 0), (99, pw 7), (200, pw 3)] ∧
    ((run1 { at_ .tape 1999 0 with tapeData := mirrorT } 0x00 5).regs.get .tape) = { curPage := 2000, busyUntil := 10005 } := by
  decide
/-- V-T4, V-T8: signs kept, the store is the whole mirror. -/
theorem test_tapeOut : (run1 { at_ .tape 1999 0 with tapeData := mirrorT, buf := [(1, nw 1073741823)] } 0x01 0).tapeStore
      = some [(0, pw 42), (1999, nw 1), (199901, nw 1073741823)] ∧
    (run1 { at_ .tape 1999 0 with tapeData := mirrorT, buf := [(1, nw 1073741823)] } 0x01 0).tapeData
      = [(0, pw 42), (1999, nw 1), (199901, nw 1073741823)] := by decide
/-- V-T6: not writable. -/
theorem test_tapeOut_unwritable : (run1off { at_ .tape 0 0 with buf := [(0, pw 1)] } 0x01 0).tapeStore = none ∧
    (run1off { at_ .tape 0 0 with buf := [(0, pw 1)] } 0x01 0).tapeData = [(0, pw 1)] := by decide
/-- V-T5. -/
theorem test_tape_pageRange : (run1 (at_ .tape 2000 0) 0x00 0).fault = 0x02 ∧
    (run1 (at_ .tape 2000 0) 0x01 0).response = some (.fault .pageRange) := by decide
/-- V-D3, and V-D1's cursor. -/
theorem test_diskIn : (run1 { at_ .disk 3999 0 with diskData := [(399900, pw 8)] } 0x04 100).buf = [(0, pw 8)] ∧
    ((run1 (at_ .disk 3999 0) 0x04 100).regs.get .disk) = { curPage := 3999, busyUntil := 10100 } := by decide
/-- P2: page 2 takes the Words, the cursor stays. -/
theorem test_diskOut : (run1 { at_ .disk 2 0 with buf := [(99, nw 1)] } 0x05 15000).diskStore = some [(299, nw 1)] ∧
    ((run1 (at_ .disk 2 0) 0x05 15000).regs.get .disk) = { curPage := 2, busyUntil := 30000 } := by decide
/-- V-D4, V-D6. -/
theorem test_disk_pageRange : (run1 (at_ .disk 4000 0) 0x04 0).fault = 0x0A ∧
    (run1 (at_ .disk 2000 0) 0x04 0).response = some (.done true none) := by decide

/-! ### Cards (95_test_vectors.md 2.4) -/

/-- The 16 Words of V-CW1. -/
def cardBuf : Memory :=
   [(0, ⟨.pos, 387993618⟩), (1, ⟨.pos, 405025536⟩), (2, ⟨.pos, 38602383⟩), (3, ⟨.pos, 1640128⟩), (4, ⟨.pos, 190899286⟩), (5, ⟨.pos, 4297043⟩), (6, ⟨.pos, 6062400⟩), (7, ⟨.pos, 218486528⟩)] ++
   [(8, ⟨.pos, 71331870⟩), (9, ⟨.pos, 528619683⟩), (10, ⟨.pos, 613837248⟩), (11, ⟨.pos, 682011372⟩), (12, ⟨.pos, 767228977⟩), (13, ⟨.pos, 852446582⟩), (14, ⟨.pos, 922768324⟩), (15, ⟨.pos, 791748⟩)]
/-- The 83 bytes of V-CW1. -/
def cardRec : List Char8 :=
   [0x54, 0x48, 0x45, 0x20, 0x51, 0x55, 0x49, 0x43, 0x4B, 0x20, 0x42, 0x52, 0x4F, 0x57, 0x4E, 0x20, 0x46, 0x4F, 0x58, 0x20, 0x0A] ++
   [0x4A, 0x55, 0x4D, 0x50, 0x53, 0x20, 0x4F, 0x56, 0x45, 0x52, 0x20, 0x54, 0x48, 0x45, 0x20, 0x4C, 0x41, 0x5A, 0x59, 0x20, 0x0A] ++
   [0x44, 0x4F, 0x47, 0x20, 0x30, 0x31, 0x32, 0x33, 0x34, 0x35, 0x36, 0x37, 0x38, 0x39, 0x20, 0x2E, 0x2C, 0x28, 0x29, 0x2B, 0x0A] ++
   [0x2D, 0x2A, 0x2F, 0x3D, 0x24, 0x3C, 0x3E, 0x40, 0x3B, 0x3A, 0x27, 0x20, 0x45, 0x4E, 0x44, 0x20, 0x43, 0x41, 0x52, 0x44]
/-- V-CR2 and V-CR6: other bytes at 20, 41, 62 and bytes after the record. -/
def cardRec2 : List Char8 :=
   [0x54, 0x48, 0x45, 0x20, 0x51, 0x55, 0x49, 0x43, 0x4B, 0x20, 0x42, 0x52, 0x4F, 0x57, 0x4E, 0x20, 0x46, 0x4F, 0x58, 0x20, 0x58] ++
   [0x4A, 0x55, 0x4D, 0x50, 0x53, 0x20, 0x4F, 0x56, 0x45, 0x52, 0x20, 0x54, 0x48, 0x45, 0x20, 0x4C, 0x41, 0x5A, 0x59, 0x20, 0x59] ++
   [0x44, 0x4F, 0x47, 0x20, 0x30, 0x31, 0x32, 0x33, 0x34, 0x35, 0x36, 0x37, 0x38, 0x39, 0x20, 0x2E, 0x2C, 0x28, 0x29, 0x2B, 0x5A] ++
   [0x2D, 0x2A, 0x2F, 0x3D, 0x24, 0x3C, 0x3E, 0x40, 0x3B, 0x3A, 0x27, 0x20, 0x45, 0x4E, 0x44, 0x20, 0x43, 0x41, 0x52, 0x44, 0x0A, 0x45, 0x58, 0x54, 0x52, 0x41]
/-- V-CW1. -/
theorem test_cwOut : (run1 { at_ .cardWriter 0 0 with buf := cardBuf } 0x0D 0).cards = .separate [] [(0, cardRec)] := by decide
/-- V-CW3, V-CW4. -/
theorem test_cwOut_page : ((run1 { at_ .cardWriter 7 0 with buf := cardBuf } 0x0D 0).cards.writer.map Prod.fst) = [7] ∧
    (run1off { at_ .cardWriter 7 0 with buf := cardBuf } 0x0D 0).cards = .separate [] [] := by decide
/-- V-CR1, V-CR2, V-CR6, V-CR9. -/
theorem test_crIn :
    (run1 { at_ .cardReader 0 0 with buf := [(0, nw 5), (16, pw 9)], cards := .separate [(0, cardRec2)] [] } 0x08 1000).buf
      = cardBuf ++ [(16, pw 9)] ∧
    ((run1 { at_ .cardReader 0 0 with cards := .separate [(0, cardRec)] [] } 0x08 1000).regs.get .cardReader)
      = { curPage := 1, busyUntil := 3400 } := by decide
/-- V-CR5: missing characters are `SPACE`; V-CR4: an absent record leaves the buffer. -/
theorem test_crIn_short :
    (run1 { at_ .cardReader 0 0 with buf := [(1, pw 9)], cards := .separate [(0, [0x48, 0x45, 0x4C, 0x4C, 0x4F])] [] } 0x08 0).buf = [(0, pw 135582544)] ∧
    (run1 { at_ .cardReader 4 0 with buf := [(1, nw 7)] } 0x08 0).buf = [(1, nw 7)] := by decide
/-- V-CR8. -/
theorem test_cr_cursorOverflow : (run1 (at_ .cardReader 0xFFFFFFFF 0) 0x08 0).fault = 0x13 := by decide

/-! ### Console (95_test_vectors.md 2.5) -/

/-- V-LP1, V-LP3: the line's start, its length and its end. -/
theorem test_lpOut :
    ((run1 { at_ .linePrinter 0 0 with buf := [(0, ⟨.pos, 135582544⟩), (1, ⟨.pos, 6882509⟩), (2, ⟨.pos, 67108864⟩)] } 0x11 0).sink.take 12) = [0x48, 0x45, 0x4C, 0x4C, 0x4F, 0x20, 0x57, 0x4F, 0x52, 0x4C, 0x44, 0x20] ∧
    (run1 { at_ .linePrinter 0 0 with buf := [(0, ⟨.pos, 135582544⟩), (1, ⟨.pos, 6882509⟩), (2, ⟨.pos, 67108864⟩)] } 0x11 0).sink.length = 121 ∧
    ((run1 { at_ .linePrinter 0 0 with buf := [(0, nw 19632069)], sink := [0x41] } 0x11 0).sink.drop 119) = [0x20, 0x20, 0x0A] := by
  decide
/-- V-TW1. -/
theorem test_twIn : (run1 { at_ .typeWriter 0 0 with source := [0x48, 0x45, 0x4C, 0x4C, 0x4F, 0x20, 0x57, 0x4F, 0x52, 0x4C, 0x44, 0x0A, 0x4E, 0x45, 0x58, 0x54], buf := [(3, nw 9)] } 0x14 0).buf
      = [(0, pw 135582544), (1, pw 6882509), (2, pw 67108864)] ∧
    (run1 { at_ .typeWriter 0 0 with source := [0x48, 0x45, 0x4C, 0x4C, 0x4F, 0x20, 0x57, 0x4F, 0x52, 0x4C, 0x44, 0x0A, 0x4E, 0x45, 0x58, 0x54] } 0x14 0).source = [0x4E, 0x45, 0x58, 0x54] := by decide
/-- V-TW6, V-TW8. -/
theorem test_twIn_escape :
    (run1 { at_ .typeWriter 0 0 with codec := tcSpace47, source := [0x41, 0x42, 0x0A] } 0x14 0).buf = [(0, pack 1 2 47 0 0)] ∧
    (run1 { at_ .typeWriter 0 0 with source := [0x41, 0x20, 0x42, 0x0A] } 0x14 0).buf = [(0, pw 16785408)] := by decide
/-- V-TW9: held on the empty source; a byte from the host completes it as V-TW4. -/
theorem test_twIn_held : (run1 (at_ .typeWriter 0 0) 0x14 0).response = none ∧
    (after { run1 (at_ .typeWriter 0 0) 0x14 0 with inputs := [.host (.appendSource [0x0A, 0x58])] }).source = [0x58] ∧
    (after { run1 (at_ .typeWriter 0 0) 0x14 0 with inputs := [.host (.appendSource [0x0A, 0x58])] }).response
      = some (.done true none) := by decide

/-! ### PaperTape, faults, reset (95_test_vectors.md 2.6, 2.7) -/

/-- V-PT1, V-PT3, on the bytes R204 puts first: field 4 first, no separator. -/
theorem test_ptOut :
    (((run1 { at_ .paperTape 0 0 with buf := [(0, pw 17314053), (14, pw 135582544)] } 0x19 0).paperFile.getD []).take 6)
      = [0x45, 0x44, 0x43, 0x42, 0x41, 0x20] ∧
    ((((run1 { at_ .paperTape 0 0 with buf := [(0, pw 17314053), (14, pw 135582544)] } 0x19 0).paperFile.getD []).drop 69).take 7)
      = [0x20, 0x4F, 0x4C, 0x4C, 0x45, 0x48, 0x20] := by decide +kernel
/-- V-PT5. -/
theorem test_ptOut_unwritable : (run1off (at_ .paperTape 0 0) 0x19 0).paperFile = none := by decide
/-- V-X1, V-X2. -/
theorem test_illegal : (run1 (at_ .tape 0 0) 0x1C 0).fault = 0x39 ∧ (run1 (at_ .tape 0 0) 0x80 0).fault = 0x01 ∧
    (run1 (at_ .tape 0 0) 0xFF 0).response = some (.fault .illegalCommand) := by decide
/-- V-X5: the latch keeps the first cause. -/
theorem test_latch_keeps : (run1 { at_ .disk 0 0 with fault := 0x0A } 0x1C 0).fault = 0x0A := by decide
/-- V-X7, V-X8. -/
theorem test_timeOverflow : (run1 (at_ .linePrinter 0 0) 0x11 0xFFFFFFFFFFFFFFFF).fault = 0x24 ∧
    ((run1 (at_ .linePrinter 0 0) 0x11 (BitVec.ofNat 64 (2 ^ 64 - 2401))).regs.get .linePrinter).busyUntil = 0xFFFFFFFFFFFFFFFF := by
  decide
/-- V-T9, 70_reset_and_hazards.md R261: a fresh Tape on its store, readable and not. -/
theorem test_reset_tape :
    (after { at_ .tape 5 0 with tapeStore := some mirrorT, inputs := [.host (.resetDevice .tape true)] }).tapeData = mirrorT ∧
    (after { at_ .tape 5 0 with tapeStore := some mirrorT, tapeData := mirrorT, inputs := [.host (.resetDevice .tape false)] }).tapeData
      = [] := by decide

/-! ### Other sizes and constants than the defaults (00_scope.md R8), by the same rules -/

/-- A machine with a Tape of 2 pages of 3 Words and short blocks elsewhere, its Tape's cursor at `page`. -/
def small (page : PageNo) (now : Time) : State :=
  { at_ .tape page now with
    params :=
      { tape := { blockSize := 3, numBlocks := 2 }
        disk := { blockSize := 2, numBlocks := 3 }
        cardReader := { blockSize := 5, numBlocks := 1 }
        cardWriter := { blockSize := 5, numBlocks := 1 }
        linePrinter := { blockSize := 1, numBlocks := 1 }
        typeWriter := { blockSize := 2, numBlocks := 1 }
        paperTape := { blockSize := 1, numBlocks := 2 }
        lat :=
          { tapeIn := 1, tapeOut := 2, diskIn := 3, diskOut := 4, cardIn := 5, cardOut := 6, print := 7, paperTape := 8 } } }
/-- R140, R147: page 1 is Words 3 to 5, and page 2 is out of range. -/
theorem test_params_tape : (run1 { small 1 0 with tapeData := [(2, pw 9), (3, pw 1), (5, nw 2)] } 0x00 10).buf = [(0, pw 1), (2, nw 2)] ∧
    ((run1 (small 1 0) 0x00 10).regs.get .tape) = { curPage := 2, busyUntil := 13 } ∧
    (run1 (small 2 0) 0x01 0).response = some (.fault .pageRange) := by decide
/-- R122: each supported command has its own constant; Tape and Disk need not agree. -/
theorem test_params_timing : ((run1 (small 0 0) 0x01 0).regs.get .tape).busyUntil = 6 ∧
    ((run1 (small 0 0) 0x04 0).regs.get .disk).busyUntil = 6 ∧ ((run1 (small 0 0) 0x05 0).regs.get .disk).busyUntil = 8 ∧
    ((run1 (small 0 0) 0x08 0).regs.get .cardReader).busyUntil = 25 ∧
    ((run1 (small 0 0) 0x0D 0).regs.get .cardWriter).busyUntil = 30 ∧
    ((run1 (small 0 0) 0x11 0).regs.get .linePrinter).busyUntil = 7 ∧
    ((run1 { small 0 0 with source := [0x0A] } 0x14 0).regs.get .typeWriter).busyUntil = 200 ∧
    ((run1 (small 0 0) 0x19 0).regs.get .paperTape).busyUntil = 8 := by decide
/-- R165, R184, R204: 5 Words and one newline, one Word and the terminator, two blocks of one Word. -/
theorem test_params_formats : (run1 { small 0 0 with buf := [(4, pw 1)] } 0x0D 0).cards =
      .separate [] [(0, List.replicate 20 0x20 ++ [0x0A, 0x20, 0x20, 0x20, 0x20, 0x41])] ∧
    (run1 { small 0 0 with buf := [(0, pw 1), (1, pw 2)] } 0x11 0).sink = [0x20, 0x20, 0x20, 0x20, 0x41, 0x0A] ∧
    (run1 { small 0 0 with buf := [(0, pw 1), (1, pw 2), (2, pw 3)] } 0x19 0).paperFile =
      some [0x41, 0x20, 0x20, 0x20, 0x20, 0x42, 0x20, 0x20, 0x20, 0x20] := by decide

/-! ### A card device constructed alone (70_reset_and_hazards.md R260, R262; 20_memory.md R56) -/

/-- Both card devices in use, each on its own directory. -/
def cardState (a : HostAction) : State :=
  { at_ .cardReader 5 0 with
    regs := (RegFile.reset.set .cardReader { curPage := 5, busyUntil := 2400 }).set .cardWriter { curPage := 7, busyUntil := 4000 }
    cards := .separate [(0, [0x41])] [(7, [0x42])]
    fault := 0x13
    inputs := [.host a] }
/-- The reader onto the writer's directory: the writer stays busy and keeps its records, which the reader now reads. -/
theorem test_constructReader : (after (cardState (.constructReader .others))).cards = .shared [(7, [0x42])] ∧
    ((after (cardState (.constructReader .others))).regs.get .cardReader) = { curPage := 0, busyUntil := 0 } ∧
    ((after (cardState (.constructReader .others))).regs.get .cardWriter) = { curPage := 7, busyUntil := 4000 } := by decide
/-- The writer onto a directory of its own that holds two records: the reader is as it was. -/
theorem test_constructWriter :
    (after (cardState (.constructWriter (.own [(9, []), (1, [0x43])])))).cards = .separate [(0, [0x41])] [(1, [0x43]), (9, [])] ∧
    ((after (cardState (.constructWriter (.own [])))).regs.get .cardWriter) = { curPage := 0, busyUntil := 0 } ∧
    ((after (cardState (.constructWriter (.own [])))).regs.get .cardReader) = { curPage := 5, busyUntil := 2400 } ∧
    (after (cardState (.constructWriter (.own [])))).fault = 0x13 := by decide

/-! ### Witnesses: for every obligation with hypotheses a concrete state that meets them, each clause at its ends -/

/-- The state `exec` gives, or `s`. -/
def ex (i : Instr) (s : State) : State :=
  match exec i s with
  | .next t => t
  | .fault _ => s
  | .refused _ => s

/-- `exec` answers a next state. -/
def isNext (o : Host.Outcome State Fault Refusal) : Bool :=
  match o with
  | .next _ => true
  | .fault _ => false
  | .refused _ => false

theorem ex_eq {i : Instr} {s : State} (h : isNext (exec i s) = true) : exec i s = .next (ex i s) := by
  unfold ex
  cases he : exec i s with
  | next t => rfl
  | fault e => rw [he] at h; cases h
  | refused e => rw [he] at h; cases h

theorem after_eq {s : State} (h : isNext (step s) = true) : step s = .next (after s) := by
  unfold after
  cases he : step s with
  | next t => rfl
  | fault e => rw [he] at h; cases h
  | refused e => rw [he] at h; cases h

/-- The last clock value at which a busy time of `p` still fits. -/
def lastNow (p : Nat) : Time := BitVec.ofNat 64 (2 ^ 64 - 1 - p)

/-- The first clock value at which it does not. -/
def firstOver (p : Nat) : Time := BitVec.ofNat 64 (2 ^ 64 - p)

/-- OnlyFourCommandsMoveACursor. -/
theorem witness_cursor_tapeIn : exec .tapeIn (at_ .tape 1999 0) = .next (ex .tapeIn (at_ .tape 1999 0)) ∧
    ((ex .tapeIn (at_ .tape 1999 0)).regs.get .tape).curPage ≠ ((at_ .tape 1999 0).regs.get .tape).curPage := ⟨ex_eq (by decide), by decide⟩
theorem witness_cursor_tapeOut : exec .tapeOut (at_ .tape 1999 0) = .next (ex .tapeOut (at_ .tape 1999 0)) ∧
    ((ex .tapeOut (at_ .tape 1999 0)).regs.get .tape).curPage ≠ ((at_ .tape 1999 0).regs.get .tape).curPage := ⟨ex_eq (by decide), by decide⟩
theorem witness_cursor_crIn : exec .crIn (at_ .cardReader 0xFFFFFFFE 0) = .next (ex .crIn (at_ .cardReader 0xFFFFFFFE 0)) ∧
    ((ex .crIn (at_ .cardReader 0xFFFFFFFE 0)).regs.get .cardReader).curPage ≠ ((at_ .cardReader 0xFFFFFFFE 0).regs.get .cardReader).curPage := ⟨ex_eq (by decide), by decide⟩
theorem witness_cursor_setPage : exec (.setPage .disk) (at_ .disk 7 0) = .next (ex (.setPage .disk) (at_ .disk 7 0)) ∧
    ((ex (.setPage .disk) (at_ .disk 7 0)).regs.get .disk).curPage ≠ ((at_ .disk 7 0).regs.get .disk).curPage := ⟨ex_eq (by decide), by decide⟩
/-- OnlySuccessfulTransfersChangeBusyUntil. -/
theorem witness_busyUntil_changes : exec .lpOut (at_ .linePrinter 0 0) = .next (ex .lpOut (at_ .linePrinter 0 0)) ∧
    ((ex .lpOut (at_ .linePrinter 0 0)).regs.get .linePrinter).busyUntil ≠ ((at_ .linePrinter 0 0).regs.get .linePrinter).busyUntil := ⟨ex_eq (by decide), by decide⟩
/-- OnlyBlockResetChangesASetFaultLatch. -/
def faultedState : State := { at_ .disk 0 0 with fault := 0x0A, inputs := [.host (.resetBlock true true)] }
theorem witness_latch_reset : faultedState.fault ≠ 0#8 ∧ step faultedState = .next (after faultedState) ∧ (after faultedState).fault ≠ faultedState.fault := ⟨by decide, after_eq (by decide), by decide⟩
/-- StoreChangeLeavesTheMirror: the last Word of each store, and a deletion. -/
def storeState (a : HostAction) : State := { at_ .tape 0 0 with inputs := [.host a] }
theorem witness_tapeStore_change : (storeState (.setTapeStore (some [(199999, pw 1)]))).held = none ∧
    (storeState (.setTapeStore (some [(199999, pw 1)]))).inputs = .host (.setTapeStore (some [(199999, pw 1)])) :: [] ∧
    (∀ m, some [(199999, pw 1)] = some m → ∀ c ∈ m, c.1 < mirrorWords Config.params .tape) := ⟨rfl, rfl, fun m h => by cases h; decide⟩
theorem witness_diskStore_change : (storeState (.setDiskStore (some [(399999, pw 1)]))).held = none ∧
    (storeState (.setDiskStore (some [(399999, pw 1)]))).inputs = .host (.setDiskStore (some [(399999, pw 1)])) :: [] ∧
    (∀ m, some [(399999, pw 1)] = some m → ∀ c ∈ m, c.1 < mirrorWords Config.params .disk) := ⟨rfl, rfl, fun m h => by cases h; decide⟩
theorem witness_store_deleted : (storeState (.setTapeStore none)).inputs = .host (.setTapeStore none) :: [] ∧
    (storeState (.setDiskStore none)).inputs = .host (.setDiskStore none) :: [] ∧
    (∀ m : Memory, (none : Option Memory) = some m → ∀ c ∈ m, c.1 < mirrorWords Config.params .tape) := ⟨rfl, rfl, fun m h => by cases h⟩
/-- OpcodeMapIsComplete, DecodeInvertsEncode. -/
theorem witness_opcodeMap : (0x00, .tapeIn) ∈ opcodeMap ∧ (0x39, .setPage .paperTape) ∈ opcodeMap ∧ 0x1C#8 ∉ opcodeMap.map Prod.fst := by decide
theorem witness_decode_ok : decode 0x39#8 = .ok (.setPage .paperTape) := by decide
/-- ReservedWordRaisesIllegalCommand: both ends of each group. -/
theorem witness_reserved_1C : reservedWord 0x1C#8 := by unfold reservedWord; decide
theorem witness_reserved_1F : reservedWord 0x1F#8 := by unfold reservedWord; decide
theorem witness_reserved_22 : reservedWord 0x22#8 := by unfold reservedWord; decide
theorem witness_reserved_3B : reservedWord 0x3B#8 := by unfold reservedWord; decide
theorem witness_reserved_3C : reservedWord 0x3C#8 := by unfold reservedWord; decide
theorem witness_reserved_3F : reservedWord 0x3F#8 := by unfold reservedWord; decide
theorem witness_reserved_40 : reservedWord 0x40#8 := by unfold reservedWord; decide
theorem witness_reserved_FF : reservedWord 0xFF#8 := by unfold reservedWord; decide
theorem witness_presented : { at_ .tape 0 0 with inputs := [cmd 0x1C 0] }.held = none ∧
    { at_ .tape 0 0 with inputs := [cmd 0x1C 0] }.inputs = .command { Command.idle with cmd := 0x1C, now := 0 } :: [] := ⟨rfl, rfl⟩
/-- StepRunsTheDecodedCommand. -/
theorem witness_step_runs : { at_ .tape 0 0 with inputs := [cmd 0x01 9] }.held = none ∧
    { at_ .tape 0 0 with inputs := [cmd 0x01 9] }.inputs = .command { Command.idle with cmd := 0x01, now := 9 } :: [] ∧
    decode 0x01#8 = .ok .tapeOut := ⟨rfl, rfl, rfl⟩
/-- UnsupportedCommandsOnlyReturnFalse, BusyComparesNowWithBusyUntil. -/
theorem witness_unsupported : Instr.tapeIoc ∈ unsupportedCommands ∧ Instr.ptIoc ∈ unsupportedCommands := by decide
theorem witness_busyCommand : (Instr.tapeBusy, Device.tape) ∈ busyCommands ∧ (Instr.ptBusy, Device.paperTape) ∈ busyCommands := by decide
/-- ModePortIsNeverRead, TheLatchHoldsNothingBack, CommandsTouchOnlyTheirDevice: commands that answer a next state. -/
theorem witness_mode : exec .tapeIoc (at_ .tape 3 0) = .next (ex .tapeIoc (at_ .tape 3 0)) ∧ exec .tapeOut (at_ .tape 3 0) = .next (ex .tapeOut (at_ .tape 3 0)) := ⟨ex_eq (by decide), ex_eq (by decide)⟩
/-- SuccessfulTransferSetsBusyUntil, OutcomesHaveAnOrder: each transfer at the last page and the last moment it can run. -/
theorem witness_transfer_tapeIn : (at_ .tape 1999 (lastNow 10000)).params.wellFormed = true ∧ (Instr.tapeIn, Device.tape, 10000) ∈ transferTable (at_ .tape 1999 (lastNow 10000)).params (at_ .tape 1999 (lastNow 10000)).latTw ∧
    exec .tapeIn (at_ .tape 1999 (lastNow 10000)) = .next (ex .tapeIn (at_ .tape 1999 (lastNow 10000))) ∧ (ex .tapeIn (at_ .tape 1999 (lastNow 10000))).response = some (.done true none) := ⟨by decide, by decide, ex_eq (by decide), by decide⟩
theorem witness_transfer_tapeOut : (at_ .tape 1999 (lastNow 15000)).params.wellFormed = true ∧ (Instr.tapeOut, Device.tape, 15000) ∈ transferTable (at_ .tape 1999 (lastNow 15000)).params (at_ .tape 1999 (lastNow 15000)).latTw ∧
    exec .tapeOut (at_ .tape 1999 (lastNow 15000)) = .next (ex .tapeOut (at_ .tape 1999 (lastNow 15000))) ∧ (ex .tapeOut (at_ .tape 1999 (lastNow 15000))).response = some (.done true none) := ⟨by decide, by decide, ex_eq (by decide), by decide⟩
theorem witness_transfer_diskIn : (at_ .disk 3999 (lastNow 10000)).params.wellFormed = true ∧ (Instr.diskIn, Device.disk, 10000) ∈ transferTable (at_ .disk 3999 (lastNow 10000)).params (at_ .disk 3999 (lastNow 10000)).latTw ∧
    exec .diskIn (at_ .disk 3999 (lastNow 10000)) = .next (ex .diskIn (at_ .disk 3999 (lastNow 10000))) ∧ (ex .diskIn (at_ .disk 3999 (lastNow 10000))).response = some (.done true none) := ⟨by decide, by decide, ex_eq (by decide), by decide⟩
theorem witness_transfer_diskOut : (at_ .disk 3999 (lastNow 15000)).params.wellFormed = true ∧ (Instr.diskOut, Device.disk, 15000) ∈ transferTable (at_ .disk 3999 (lastNow 15000)).params (at_ .disk 3999 (lastNow 15000)).latTw ∧
    exec .diskOut (at_ .disk 3999 (lastNow 15000)) = .next (ex .diskOut (at_ .disk 3999 (lastNow 15000))) ∧ (ex .diskOut (at_ .disk 3999 (lastNow 15000))).response = some (.done true none) := ⟨by decide, by decide, ex_eq (by decide), by decide⟩
theorem witness_transfer_crIn : (at_ .cardReader 0xFFFFFFFE (lastNow 2400)).params.wellFormed = true ∧ (Instr.crIn, Device.cardReader, 2400) ∈ transferTable (at_ .cardReader 0xFFFFFFFE (lastNow 2400)).params (at_ .cardReader 0xFFFFFFFE (lastNow 2400)).latTw ∧
    exec .crIn (at_ .cardReader 0xFFFFFFFE (lastNow 2400)) = .next (ex .crIn (at_ .cardReader 0xFFFFFFFE (lastNow 2400))) ∧ (ex .crIn (at_ .cardReader 0xFFFFFFFE (lastNow 2400))).response = some (.done true none) := ⟨by decide, by decide, ex_eq (by decide), by decide⟩
theorem witness_transfer_cwOut : (at_ .cardWriter 7 (lastNow 4000)).params.wellFormed = true ∧ (Instr.cwOut, Device.cardWriter, 4000) ∈ transferTable (at_ .cardWriter 7 (lastNow 4000)).params (at_ .cardWriter 7 (lastNow 4000)).latTw ∧
    exec .cwOut (at_ .cardWriter 7 (lastNow 4000)) = .next (ex .cwOut (at_ .cardWriter 7 (lastNow 4000))) ∧ (ex .cwOut (at_ .cardWriter 7 (lastNow 4000))).response = some (.done true none) := ⟨by decide, by decide, ex_eq (by decide), by decide⟩
theorem witness_transfer_lpOut : (at_ .linePrinter 9 (lastNow 2400)).params.wellFormed = true ∧ (Instr.lpOut, Device.linePrinter, 2400) ∈ transferTable (at_ .linePrinter 9 (lastNow 2400)).params (at_ .linePrinter 9 (lastNow 2400)).latTw ∧
    exec .lpOut (at_ .linePrinter 9 (lastNow 2400)) = .next (ex .lpOut (at_ .linePrinter 9 (lastNow 2400))) ∧ (ex .lpOut (at_ .linePrinter 9 (lastNow 2400))).response = some (.done true none) := ⟨by decide, by decide, ex_eq (by decide), by decide⟩
theorem witness_transfer_ptOut : (at_ .paperTape 0 (lastNow 2800)).params.wellFormed = true ∧ (Instr.ptOut, Device.paperTape, 2800) ∈ transferTable (at_ .paperTape 0 (lastNow 2800)).params (at_ .paperTape 0 (lastNow 2800)).latTw ∧
    exec .ptOut (at_ .paperTape 0 (lastNow 2800)) = .next (ex .ptOut (at_ .paperTape 0 (lastNow 2800))) ∧ (ex .ptOut (at_ .paperTape 0 (lastNow 2800))).response = some (.done true none) := ⟨by decide, by decide, ex_eq (by decide), by decide⟩
/-- A TypeWriter whose source begins with an escape, at the last moment `TW.IN` can run. -/
def twState : State := { at_ .typeWriter 0 (lastNow 1400) with source := [0x41, 0x0A, 0x42] }
theorem witness_transfer_twIn : twState.params.wellFormed = true ∧ (Instr.twIn, Device.typeWriter, 1400) ∈ transferTable twState.params twState.latTw ∧ exec .twIn twState = .next (ex .twIn twState) ∧
    (ex .twIn twState).response = some (.done true none) := ⟨by decide, by decide, ex_eq (by decide), by decide⟩
/-- BusyLastsExactlyTheProduct. -/
theorem witness_busy_lasts : (at_ .linePrinter 0 0).params.wellFormed = true ∧ 0 < (at_ .linePrinter 0 0).latTw ∧ (Instr.lpOut, Device.linePrinter, 2400) ∈ transferTable (at_ .linePrinter 0 0).params (at_ .linePrinter 0 0).latTw ∧
    (Instr.lpBusy, Device.linePrinter) ∈ busyCommands ∧ exec .lpOut (at_ .linePrinter 0 0) = .next (ex .lpOut (at_ .linePrinter 0 0)) ∧
    (ex .lpOut (at_ .linePrinter 0 0)).response = some (.done true none) ∧
    (at_ .linePrinter 0 0).port.now.toNat ≤ (2399#64).toNat ∧ (at_ .linePrinter 0 0).port.now.toNat ≤ (2400#64).toNat := ⟨by decide, by decide, by decide, by decide, ex_eq (by decide), by decide, by decide, by decide⟩
/-- CommandsIgnoreTheBusyFlag: a busy Tape with the same cursor. -/
def busyRegs : RegFile := RegFile.reset.set .tape { curPage := 3, busyUntil := 99 }
theorem witness_busy_ignored : Instr.tapeIn ∉ busyCommands.map Prod.fst ∧ (∀ d, (busyRegs.get d).curPage = ((at_ .tape 3 0).regs.get d).curPage) ∧
    exec .tapeIn (at_ .tape 3 0) = .next (ex .tapeIn (at_ .tape 3 0)) := ⟨by decide, fun d => by cases d <;> rfl, ex_eq (by decide)⟩
/-- TapeInCopiesThePageAndAdvances: each clause at the ends of its range. -/
theorem witness_tapeIn_pageRange : (at_ .tape 2000 0).Inv ∧ (at_ .tape 2000 0).params = Config.params ∧ 2000 ≤ ((at_ .tape 2000 0).regs.get .tape).curPage.toNat := ⟨inv_at' _ _ _, rfl, by decide⟩
theorem witness_tapeIn_timeOverflow : (at_ .tape 1999 (firstOver 10000)).Inv ∧ (at_ .tape 1999 (firstOver 10000)).params = Config.params ∧ ((at_ .tape 1999 (firstOver 10000)).regs.get .tape).curPage.toNat < 2000 ∧
    2 ^ 64 ≤ (at_ .tape 1999 (firstOver 10000)).port.now.toNat + 10000 := ⟨inv_at' _ _ _, rfl, by decide, by decide⟩
theorem witness_tapeIn_runs : (at_ .tape 1999 (lastNow 10000)).Inv ∧ (at_ .tape 1999 (lastNow 10000)).params = Config.params ∧ ((at_ .tape 1999 (lastNow 10000)).regs.get .tape).curPage.toNat < 2000 ∧
    (at_ .tape 1999 (lastNow 10000)).port.now.toNat + 10000 < 2 ^ 64 := ⟨inv_at' _ _ _, rfl, by decide, by decide⟩
/-- TapeOutWritesPageAndStoreAndAdvances: each clause at the ends of its range. -/
theorem witness_tapeOut_pageRange : (at_ .tape 2000 0).Inv ∧ (at_ .tape 2000 0).params = Config.params ∧ 2000 ≤ ((at_ .tape 2000 0).regs.get .tape).curPage.toNat := ⟨inv_at' _ _ _, rfl, by decide⟩
theorem witness_tapeOut_timeOverflow : (at_ .tape 1999 (firstOver 15000)).Inv ∧ (at_ .tape 1999 (firstOver 15000)).params = Config.params ∧ ((at_ .tape 1999 (firstOver 15000)).regs.get .tape).curPage.toNat < 2000 ∧
    2 ^ 64 ≤ (at_ .tape 1999 (firstOver 15000)).port.now.toNat + 15000 := ⟨inv_at' _ _ _, rfl, by decide, by decide⟩
theorem witness_tapeOut_runs : (at_ .tape 1999 (lastNow 15000)).Inv ∧ (at_ .tape 1999 (lastNow 15000)).params = Config.params ∧ ((at_ .tape 1999 (lastNow 15000)).regs.get .tape).curPage.toNat < 2000 ∧
    (at_ .tape 1999 (lastNow 15000)).port.now.toNat + 15000 < 2 ^ 64 := ⟨inv_at' _ _ _, rfl, by decide, by decide⟩
/-- DiskInCopiesThePageAndStays: each clause at the ends of its range. -/
theorem witness_diskIn_pageRange : (at_ .disk 4000 0).Inv ∧ (at_ .disk 4000 0).params = Config.params ∧ 4000 ≤ ((at_ .disk 4000 0).regs.get .disk).curPage.toNat := ⟨inv_at' _ _ _, rfl, by decide⟩
theorem witness_diskIn_timeOverflow : (at_ .disk 3999 (firstOver 10000)).Inv ∧ (at_ .disk 3999 (firstOver 10000)).params = Config.params ∧ ((at_ .disk 3999 (firstOver 10000)).regs.get .disk).curPage.toNat < 4000 ∧
    2 ^ 64 ≤ (at_ .disk 3999 (firstOver 10000)).port.now.toNat + 10000 := ⟨inv_at' _ _ _, rfl, by decide, by decide⟩
theorem witness_diskIn_runs : (at_ .disk 3999 (lastNow 10000)).Inv ∧ (at_ .disk 3999 (lastNow 10000)).params = Config.params ∧ ((at_ .disk 3999 (lastNow 10000)).regs.get .disk).curPage.toNat < 4000 ∧
    (at_ .disk 3999 (lastNow 10000)).port.now.toNat + 10000 < 2 ^ 64 := ⟨inv_at' _ _ _, rfl, by decide, by decide⟩
/-- DiskOutWritesPageAndStoreAndStays: each clause at the ends of its range. -/
theorem witness_diskOut_pageRange : (at_ .disk 4000 0).Inv ∧ (at_ .disk 4000 0).params = Config.params ∧ 4000 ≤ ((at_ .disk 4000 0).regs.get .disk).curPage.toNat := ⟨inv_at' _ _ _, rfl, by decide⟩
theorem witness_diskOut_timeOverflow : (at_ .disk 3999 (firstOver 15000)).Inv ∧ (at_ .disk 3999 (firstOver 15000)).params = Config.params ∧ ((at_ .disk 3999 (firstOver 15000)).regs.get .disk).curPage.toNat < 4000 ∧
    2 ^ 64 ≤ (at_ .disk 3999 (firstOver 15000)).port.now.toNat + 15000 := ⟨inv_at' _ _ _, rfl, by decide, by decide⟩
theorem witness_diskOut_runs : (at_ .disk 3999 (lastNow 15000)).Inv ∧ (at_ .disk 3999 (lastNow 15000)).params = Config.params ∧ ((at_ .disk 3999 (lastNow 15000)).regs.get .disk).curPage.toNat < 4000 ∧
    (at_ .disk 3999 (lastNow 15000)).port.now.toNat + 15000 < 2 ^ 64 := ⟨inv_at' _ _ _, rfl, by decide, by decide⟩
/-- FreshInstanceHasTheOldMirror: a Tape and a Disk about to be constructed anew. -/
def freshT : State := { at_ .tape 0 0 with buf := [(0, pw 42)], inputs := [.host (.resetDevice .tape true)] }
def freshD : State := { at_ .disk 0 0 with buf := [(0, pw 42)], inputs := [.host (.resetDevice .disk true)] }
theorem witness_fresh_tape : exec (mediumOut .tape) freshT = .next (ex (mediumOut .tape) freshT) ∧
    (ex (mediumOut .tape) freshT).response = some (.done true none) ∧ freshT.port.writable = true ∧
    (ex (mediumOut .tape) freshT).held = none ∧
    (ex (mediumOut .tape) freshT).inputs = .host (.resetDevice (Medium.device .tape) true) :: [] := ⟨ex_eq (by decide), by decide, rfl, by decide, by decide⟩
theorem witness_fresh_disk : exec (mediumOut .disk) freshD = .next (ex (mediumOut .disk) freshD) ∧
    (ex (mediumOut .disk) freshD).response = some (.done true none) ∧ freshD.port.writable = true ∧
    (ex (mediumOut .disk) freshD).held = none ∧
    (ex (mediumOut .disk) freshD).inputs = .host (.resetDevice (Medium.device .disk) true) :: [] := ⟨ex_eq (by decide), by decide, rfl, by decide, by decide⟩
/-- TapeScenarioReturnsTheOriginalWords: the source's scenario, S1 and P1. -/
def scenarioC : Command := { Command.idle with cmd := 0x01 }
def scenarioC' : Command := { Command.idle with cmd := 0x00, now := 15000 }
def scenario : State :=
  { at_ .tape 0 0 with
    buf := [(0, pw 42), (99, nw 42)]
    inputs := [.command scenarioC, .host (.resetDevice .tape true), .supplyBuffer [(13999, pw 1)], .command scenarioC'] }
theorem witness_scenario : scenario.Inv ∧ scenario.held = none ∧
    scenario.inputs = .command scenarioC :: .host (.resetDevice .tape true) :: .supplyBuffer [(13999, pw 1)] :: .command scenarioC' :: [] ∧
    scenarioC.cmd = 0x01#8 ∧ scenarioC'.cmd = 0x00#8 ∧ scenarioC.writable = true ∧
    (scenario.regs.get .tape).curPage = 0#32 ∧ scenarioC.now.toNat + scenario.params.tape.blockSize * scenario.params.lat.tapeOut < 2 ^ 64 ∧
    scenarioC'.now.toNat + scenario.params.tape.blockSize * scenario.params.lat.tapeIn < 2 ^ 64 ∧ ∀ x ∈ [(13999, pw 1)], x.1 < bufWords Config.params := ⟨inv_at .tape 0 0 _ [] (.separate [] []) _ _ (by decide) ⟨List.Pairwise.nil, List.Pairwise.nil⟩, rfl, rfl, rfl, rfl, rfl, rfl,
    by decide, by decide, by decide⟩
/-- CardReaderDecodesTheRecord: each clause at the ends of its range, with a record and without. -/
theorem witness_crIn_cursor : (at_ .cardReader 0xFFFFFFFF 0).Inv ∧ (at_ .cardReader 0xFFFFFFFF 0).params = Config.params ∧ ((at_ .cardReader 0xFFFFFFFF 0).regs.get .cardReader).curPage.toNat = 2 ^ 32 - 1 := ⟨inv_at' _ _ _, rfl, by decide⟩
theorem witness_crIn_timeOverflow : (at_ .cardReader 0xFFFFFFFE (firstOver 2400)).Inv ∧ (at_ .cardReader 0xFFFFFFFE (firstOver 2400)).params = Config.params ∧
    ((at_ .cardReader 0xFFFFFFFE (firstOver 2400)).regs.get .cardReader).curPage.toNat < 2 ^ 32 - 1 ∧
    2 ^ 64 ≤ (at_ .cardReader 0xFFFFFFFE (firstOver 2400)).port.now.toNat + 2400 := ⟨inv_at' _ _ _, rfl, by decide, by decide⟩
/-- A reader with a short record 3 and no other. -/
def crState (page : PageNo) : State := { at_ .cardReader page (lastNow 2400) with cards := .separate [(3, [0x41, 0x00])] [] }
theorem witness_crIn_runs : (crState 3).Inv ∧ (crState 3).params = Config.params ∧ ((crState 3).regs.get .cardReader).curPage.toNat < 2 ^ 32 - 1 ∧
    (crState 3).port.now.toNat + 2400 < 2 ^ 64 ∧ (crState 3).port.readable = true ∧
    RecMap.find (crState 3).cards.reader ((crState 3).regs.get .cardReader).curPage.toNat = some [0x41, 0x00] ∧
    RecMap.find (crState 4).cards.reader ((crState 4).regs.get .cardReader).curPage.toNat = none := ⟨inv_at .cardReader 3 (lastNow 2400) [] [] _ _ [] (Memory.wf_nil _) ⟨by decide, by decide⟩, rfl, by decide, by decide, rfl,
    by decide, by decide⟩
/-- CardWriterPunchesTheRecord. -/
theorem witness_cwOut : (at_ .cardWriter 0 0).params.wellFormed = true ∧ (at_ .cardWriter 0 0).params = Config.params ∧
    2 ^ 64 ≤ (at_ .cardWriter 0 (firstOver 4000)).port.now.toNat + 4000 ∧
    (at_ .cardWriter 0 (lastNow 4000)).port.now.toNat + 4000 < 2 ^ 64 ∧ (at_ .cardWriter 0 0).port.writable = true ∧
    { at_ .cardWriter 0 0 with port := { Command.idle with writable := false } }.port.writable = false := by decide
/-- CardRoundTrip: both card devices on one record map. -/
def roundState : State := { at_ .cardWriter 0 0 with cards := .shared [], buf := cardBuf }
theorem witness_roundTrip : roundState.params.wellFormed = true ∧ roundState.cards = .shared [] ∧
    (roundState.regs.get .cardReader).curPage = (roundState.regs.get .cardWriter).curPage ∧
    (roundState.regs.get .cardWriter).curPage.toNat < 2 ^ 32 - 1 ∧ roundState.port.writable = true ∧
    roundState.port.now.toNat + roundState.params.cardWriter.blockSize * roundState.params.lat.cardOut < 2 ^ 64 ∧
    Memory.wf (bufWords roundState.params) [(0, nw 7)] ∧ Command.idle.readable = true ∧
    Command.idle.now.toNat + roundState.params.cardReader.blockSize * roundState.params.lat.cardIn < 2 ^ 64 ∧
    15 < roundState.params.cardReader.blockSize ∧ 15 < roundState.params.cardWriter.blockSize := by decide
/-- CardRoundTrip's last clause: a table that is its own inverse on all 64 codes, and a Word with sign `POS`. -/
def tcFull : Codec :=
  { tc with
    chars := (List.range 64).map fun n => (BitVec.ofNat 6 n, BitVec.ofNat 8 (n + 32))
    codes := (List.range 64).map fun n => (BitVec.ofNat 8 (n + 32), BitVec.ofNat 6 n) }
theorem witness_inverse_table : (∀ v : Code6, toVal tcFull (toChar tcFull v) = some v) ∧ (Memory.read cardBuf 3).sign = .pos := by decide
/-- LinePrinterAppendsOneLine. -/
theorem witness_lpOut : (at_ .linePrinter 0 0).params.wellFormed = true ∧ (at_ .linePrinter 0 0).params = Config.params ∧
    2 ^ 64 ≤ (at_ .linePrinter 0 (firstOver 2400)).port.now.toNat + 2400 ∧
    (at_ .linePrinter 0 (lastNow 2400)).port.now.toNat + 2400 < 2 ^ 64 := by decide
/-- PaperTapePunchesTheWholeBuffer. -/
theorem witness_ptOut : (at_ .paperTape 0 0).params.wellFormed = true ∧ (at_ .paperTape 0 0).params = Config.params ∧
    2 ^ 64 ≤ (at_ .paperTape 0 (firstOver 2800)).port.now.toNat + 2800 ∧
    (at_ .paperTape 0 (lastNow 2800)).port.now.toNat + 2800 < 2 ^ 64 := by decide
/-- TypewriterReadsABlock: the fault, 70 characters, and an escape after 1 and after 69. -/
theorem witness_twIn_timeOverflow : (at_ .typeWriter 0 (firstOver 1400)).Inv ∧ (at_ .typeWriter 0 (firstOver 1400)).params = Config.params ∧
    2 ^ 64 ≤ (at_ .typeWriter 0 (firstOver 1400)).port.now.toNat + 14 * (at_ .typeWriter 0 (firstOver 1400)).latTw := ⟨inv_at' _ _ _, rfl, by decide⟩
/-- A TypeWriter with `n` letters A and then `rest` in its source. -/
def twWith (n : Nat) (rest : List Char8) : State :=
  { at_ .typeWriter 0 (lastNow 1400) with source := List.replicate n 0x41 ++ rest }
theorem inv_twWith (n : Nat) (rest : List Char8) : (twWith n rest).Inv :=
  inv_at .typeWriter 0 (lastNow 1400) [] _ (.separate [] []) _ [] (Memory.wf_nil _) ⟨List.Pairwise.nil, List.Pairwise.nil⟩
theorem witness_twIn_full : (twWith 70 [0x0A]).Inv ∧ (twWith 70 [0x0A]).params = Config.params ∧ (twWith 70 [0x0A]).port.now.toNat + 14 * (twWith 70 [0x0A]).latTw < 2 ^ 64 ∧
    (List.replicate 70 0x41).map (toVal (twWith 70 [0x0A]).codec) = (List.replicate 70 1).map some ∧
    (List.replicate 70 (0x41 : Char8)).length = 70 ∧ (twWith 70 [0x0A]).source = List.replicate 70 0x41 ++ [0x0A] := ⟨inv_twWith _ _, rfl, by decide, by decide, by decide, rfl⟩
theorem witness_twIn_escape : (twWith 69 [0x0A, 0x42]).Inv ∧ (twWith 69 [0x0A, 0x42]).params = Config.params ∧ (twWith 69 [0x0A, 0x42]).port.now.toNat + 14 * (twWith 69 [0x0A, 0x42]).latTw < 2 ^ 64 ∧
    (List.replicate 69 0x41).map (toVal (twWith 69 [0x0A, 0x42]).codec) = (List.replicate 69 1).map some ∧
    (List.replicate 69 (0x41 : Char8)).length < 70 ∧ toVal (twWith 69 [0x0A, 0x42]).codec 0x0A = none ∧
    (twWith 69 [0x0A, 0x42]).source = List.replicate 69 0x41 ++ 0x0A :: [0x42] := ⟨inv_twWith _ _, rfl, by decide, by decide, by decide, by decide, rfl⟩
/-- TypewriterEscapeZeroFills: the first field, the last, and one between. -/
theorem witness_twIn_escape_0_0 : (twWith 0 [0x0A]).Inv ∧ (twWith 0 [0x0A]).port.now.toNat + (twWith 0 [0x0A]).params.typeWriter.blockSize * (twWith 0 [0x0A]).latTw < 2 ^ 64 ∧
    (List.replicate 0 0x41).map (toVal (twWith 0 [0x0A]).codec) = (List.replicate 0 1).map some ∧
    toVal (twWith 0 [0x0A]).codec 0x0A = none ∧ (twWith 0 [0x0A]).source = List.replicate 0 0x41 ++ 0x0A :: [] ∧
    (List.replicate 0 (0x41 : Char8)).length = 5 * 0 + (0 : Fin 5).val ∧ 0 < (twWith 0 [0x0A]).params.typeWriter.blockSize := ⟨inv_twWith _ _, by decide, by decide, by decide, rfl, by decide, by decide⟩
theorem witness_twIn_escape_13_4 : (twWith 69 [0x0A]).Inv ∧ (twWith 69 [0x0A]).port.now.toNat + (twWith 69 [0x0A]).params.typeWriter.blockSize * (twWith 69 [0x0A]).latTw < 2 ^ 64 ∧
    (List.replicate 69 0x41).map (toVal (twWith 69 [0x0A]).codec) = (List.replicate 69 1).map some ∧
    toVal (twWith 69 [0x0A]).codec 0x0A = none ∧ (twWith 69 [0x0A]).source = List.replicate 69 0x41 ++ 0x0A :: [] ∧
    (List.replicate 69 (0x41 : Char8)).length = 5 * 13 + (4 : Fin 5).val ∧ 13 < (twWith 69 [0x0A]).params.typeWriter.blockSize := ⟨inv_twWith _ _, by decide, by decide, by decide, rfl, by decide, by decide⟩
theorem witness_twIn_escape_3_1 : (twWith 16 [0x0A]).Inv ∧ (twWith 16 [0x0A]).port.now.toNat + (twWith 16 [0x0A]).params.typeWriter.blockSize * (twWith 16 [0x0A]).latTw < 2 ^ 64 ∧
    (List.replicate 16 0x41).map (toVal (twWith 16 [0x0A]).codec) = (List.replicate 16 1).map some ∧
    toVal (twWith 16 [0x0A]).codec 0x0A = none ∧ (twWith 16 [0x0A]).source = List.replicate 16 0x41 ++ 0x0A :: [] ∧
    (List.replicate 16 (0x41 : Char8)).length = 5 * 3 + (1 : Fin 5).val ∧ 3 < (twWith 16 [0x0A]).params.typeWriter.blockSize := ⟨inv_twWith _ _, by decide, by decide, by decide, rfl, by decide, by decide⟩
/-- TypewriterIsHeldOnAnEmptySource: with no byte and with 69. -/
theorem witness_twIn_held_0 : (twWith 0 []).Inv ∧ (twWith 0 []).port.now.toNat + (twWith 0 []).params.typeWriter.blockSize * (twWith 0 []).latTw < 2 ^ 64 ∧
    (twWith 0 []).source.map (toVal (twWith 0 []).codec) = (List.replicate 0 1).map some ∧
    (List.replicate 0 (1 : Code6)).length < 5 * (twWith 0 []).params.typeWriter.blockSize := ⟨inv_twWith _ _, by decide, by decide, by decide⟩
theorem witness_twIn_held_69 : (twWith 69 []).Inv ∧ (twWith 69 []).port.now.toNat + (twWith 69 []).params.typeWriter.blockSize * (twWith 69 []).latTw < 2 ^ 64 ∧
    (twWith 69 []).source.map (toVal (twWith 69 []).codec) = (List.replicate 69 1).map some ∧
    (List.replicate 69 (1 : Code6)).length < 5 * (twWith 69 []).params.typeWriter.blockSize := ⟨inv_twWith _ _, by decide, by decide, by decide⟩
/-- AHeldCommandWaitsForTheSource, HoldingDoesNotChangeTheResult. -/
def heldState : State := ex .twIn (twWith 6 [])
theorem witness_held : heldState.held = some (List.replicate 6 1) ∧ heldState.response = none ∧ exec .twIn (twWith 6 []) = .next heldState ∧
    (twWith 6 []).Inv := ⟨by decide, by decide, ex_eq (by decide), inv_twWith _ _⟩
theorem witness_held_waits : heldState.held = some (List.replicate 6 1) ∧ ∀ bytes rest, { heldState with inputs := [cmd 0x03 0] }.inputs ≠ .host (.appendSource bytes) :: rest := ⟨by decide, fun bytes rest h => by cases h⟩
/-- AFaultChangesOnlyTheLatch. -/
theorem witness_fault_only : exec .diskIn (at_ .disk 4000 0) = .next (ex .diskIn (at_ .disk 4000 0)) ∧
    (ex .diskIn (at_ .disk 4000 0)).response = some (.fault .pageRange) := ⟨ex_eq (by decide), by decide⟩
/-- OutcomesHaveAnOrder, its second clause. -/
theorem witness_no_transfer : (at_ .disk 4000 0).params.wellFormed = true ∧ exec .diskIoc (at_ .disk 4000 0) = .next (ex .diskIoc (at_ .disk 4000 0)) ∧
    ∀ d p, (Instr.diskIoc, d, p) ∉ transferTable (at_ .disk 4000 0).params (at_ .disk 4000 0).latTw := ⟨by decide, ex_eq (by decide), fun d p => by simp [transferTable]⟩
/-- MediumResetLoadsTheMirror, OtherDeviceResetOnlyClearsRegisters, BlockResetClearsFaultAndDevices. -/
def resetState (a : HostAction) : State :=
  { at_ .tape 7 0 with tapeStore := some mirrorT, diskStore := none, inputs := [.host a] }
theorem witness_reset_tape : (resetState (.resetDevice .tape true)).held = none ∧ (resetState (.resetDevice .tape true)).inputs = .host (.resetDevice .tape true) :: [] ∧
    (resetState (.resetDevice .tape true)).tapeStore = some mirrorT := ⟨rfl, rfl, rfl⟩
theorem witness_reset_disk : (resetState (.resetDevice .disk true)).held = none ∧ (resetState (.resetDevice .disk true)).inputs = .host (.resetDevice .disk true) :: [] ∧
    (resetState (.resetDevice .disk true)).diskStore = none := ⟨rfl, rfl, rfl⟩
theorem witness_reset_other : ∀ d ∈ [Device.cardReader, .cardWriter, .linePrinter, .typeWriter, .paperTape],
    (resetState (.resetDevice d false)).held = none ∧ d ≠ .tape ∧ d ≠ .disk ∧
    (resetState (.resetDevice d false)).inputs = .host (.resetDevice d false) :: [] := by decide
theorem witness_reset_block : (resetState (.resetBlock true false)).held = none ∧ (resetState (.resetBlock true false)).inputs = .host (.resetBlock true false) :: [] := ⟨rfl, rfl⟩
/-- EveryStepKeepsTheInvariant: a command about to run on a state that is not reset's. -/
def invState : State := { at_ .tape 1999 0 with buf := [(3, pw 1)], source := [0x41], inputs := [cmd 0x01 0] }
theorem witness_inv_step : invState.Inv ∧ step invState = .next (after invState) := ⟨inv_at .tape 1999 0 [(3, pw 1)] [0x41] (.separate [] []) _ _ (by decide) ⟨List.Pairwise.nil, List.Pairwise.nil⟩,
    after_eq (by decide)⟩
/-- OutsideChangesReachOneResource: a step for each clause. -/
theorem witness_outside : (at_ .tape 0 0).held = none ∧ (at_ .tape 0 0).inputs = [] ∧
    (storeState (.appendSource [0x41])).inputs = .host (.appendSource [0x41]) :: [] ∧
    (storeState (.setPaperFile none)).inputs = .host (.setPaperFile none) :: [] ∧
    (storeState (.setReaderCards [(3, [])])).inputs = .host (.setReaderCards [(3, [])]) :: [] ∧
    (storeState (.setWriterCards [(3, [])])).inputs = .host (.setWriterCards [(3, [])]) :: [] ∧
    { at_ .tape 0 0 with inputs := [.supplyBuffer [(13999, pw 1)]] }.inputs = .supplyBuffer [(13999, pw 1)] :: [] ∧
    ∀ x ∈ [(13999, pw 1)], x.1 < bufWords Config.params := ⟨rfl, rfl, rfl, rfl, rfl, rfl, rfl, by decide⟩
/-- The host acts on card devices that stand on the directories given. -/
def cardsState (a : HostAction) (cards : CardStores) : State := { storeState a with cards := cards }
/-- OutsideChangesReachOneResource: each kind of record map, for the reader's and the writer's records. -/
theorem witness_outside_separate :
    (cardsState (.setReaderCards [(3, [])]) (.separate [(1, [])] [(2, [])])).held = none ∧
    (cardsState (.setReaderCards [(3, [])]) (.separate [(1, [])] [(2, [])])).inputs = [.host (.setReaderCards [(3, [])])] ∧
    (cardsState (.setReaderCards [(3, [])]) (.separate [(1, [])] [(2, [])])).cards = .separate [(1, [])] [(2, [])] ∧
    (cardsState (.setWriterCards [(3, [])]) (.separate [(1, [])] [(2, [])])).held = none ∧
    (cardsState (.setWriterCards [(3, [])]) (.separate [(1, [])] [(2, [])])).inputs = [.host (.setWriterCards [(3, [])])] ∧
    (cardsState (.setWriterCards [(3, [])]) (.separate [(1, [])] [(2, [])])).cards = .separate [(1, [])] [(2, [])] :=
  ⟨rfl, rfl, rfl, rfl, rfl, rfl⟩
theorem witness_outside_shared :
    (cardsState (.setReaderCards [(3, [])]) (.shared [(1, [])])).held = none ∧
    (cardsState (.setReaderCards [(3, [])]) (.shared [(1, [])])).inputs = [.host (.setReaderCards [(3, [])])] ∧
    (cardsState (.setReaderCards [(3, [])]) (.shared [(1, [])])).cards = .shared [(1, [])] ∧
    (cardsState (.setWriterCards [(3, [])]) (.shared [(1, [])])).held = none ∧
    (cardsState (.setWriterCards [(3, [])]) (.shared [(1, [])])).inputs = [.host (.setWriterCards [(3, [])])] ∧
    (cardsState (.setWriterCards [(3, [])]) (.shared [(1, [])])).cards = .shared [(1, [])] := ⟨rfl, rfl, rfl, rfl, rfl, rfl⟩
/-- A shared directory stays shared when the host changes the deck in it (R56, R279). -/
theorem test_host_change_keeps_sharing :
    step (cardsState (.setReaderCards [(3, [])]) (.shared [(1, [])])) =
      .next { cardsState (.setReaderCards [(3, [])]) (.shared [(3, [])]) with inputs := [] } := rfl
/-- OnlyWrongLengthsAreRefused: each clause. -/
theorem witness_refused : step { State.reset with inputs := [.supplyBuffer [(14000, pw 1)]] } = .refused .bufferLength ∧
    step { State.reset with inputs := [.host (.setTapeStore (some [(200000, pw 1)]))] } = .refused .storeLength ∧
    step { State.reset with inputs := [.host (.setDiskStore (some [(400000, pw 1)]))] } = .refused .storeLength := ⟨rfl, rfl, rfl⟩
/-- CardDevicesAreConstructedOnDirectories: each clause, on both kinds of directory. -/
theorem witness_construct : (at_ .tape 0 0).held = none ∧
    (storeState (.constructReader .others)).inputs = .host (.constructReader .others) :: [] ∧
    (storeState (.constructReader (.own [(3, [])]))).inputs = .host (.constructReader (.own [(3, [])])) :: [] ∧
    (storeState (.constructWriter .others)).inputs = .host (.constructWriter .others) :: [] ∧
    (storeState (.constructWriter (.own [(3, [])]))).inputs = .host (.constructWriter (.own [(3, [])])) :: [] ∧
    (storeState (.attachCards (.shared []))).inputs = .host (.attachCards (.shared [])) :: [] ∧
    (storeState (.attachCards (.separate [] []))).inputs = .host (.attachCards (.separate [] [])) :: [] :=
  ⟨rfl, rfl, rfl, rfl, rfl, rfl, rfl⟩
/-- The general clauses of the transfers on other sizes and constants: the ends of a Tape of 2 pages of 3 Words. -/
theorem inv_small (page : PageNo) (now : Time) : (small page now).Inv :=
  { params := show Params.wellFormed (small 0 0).params = true by decide
    tapeData := Memory.wf_nil _
    diskData := Memory.wf_nil _
    tapeStore := fun m h => by cases h
    diskStore := fun m h => by cases h
    buf := Memory.wf_nil _
    cards := ⟨List.Pairwise.nil, List.Pairwise.nil⟩
    fault := Or.inl rfl
    latTw := show 0 < 100 by decide
    held := fun m h => by cases h }
theorem witness_small_pageRange : (small 2 0).Inv ∧
    (small 2 0).params.tape.numBlocks ≤ ((small 2 0).regs.get .tape).curPage.toNat := ⟨inv_small _ _, by decide⟩
theorem witness_small_runs : (small 1 (lastNow 3)).Inv ∧
    ((small 1 (lastNow 3)).regs.get .tape).curPage.toNat < (small 1 (lastNow 3)).params.tape.numBlocks ∧
    (small 1 (lastNow 3)).port.now.toNat + (small 1 (lastNow 3)).params.tape.blockSize * (small 1 (lastNow 3)).params.lat.tapeIn
      < 2 ^ 64 := ⟨inv_small _ _, by decide, by decide⟩

end Sys2Proof.Tests
end

section
/-! SUPPORT. What a step, a host action and a command can do, said of the state they answer: the layer under the
proofs of 10_state.md's statements. -/

namespace Sys2Proof.Machine

open Sys2Proof.Claims

/-! ### What a change of a store, a buffer given and a step answer -/

/-- A store deleted, or replaced by one that fits, is the whole effect of the host's change (R36, R279). -/
theorem changeStore_of_given {s : State} {m : Medium} {cells : Option Memory}
    (hfit : ∀ x, cells = some x → ∀ c ∈ x, c.1 < mirrorWords s.params m) :
    ∃ st, changeStore m cells s = .next (s.setStore m st) ∧ (cells = none → st = none) ∧
      ∀ x, cells = some x → ∃ n, st = some n ∧ Memory.wf (mirrorWords s.params m) n ∧
        ∀ a, Memory.read n a = Memory.read x a := by
  cases cells with
  | none => exact ⟨none, rfl, fun _ => rfl, nofun⟩
  | some cs =>
    have hcs := hfit cs rfl
    refine ⟨some (memOfCells cs), changeStore_of_fit s hcs, nofun, ?_⟩
    rintro x ⟨⟩
    exact ⟨_, rfl, wf_memOfCells hcs, read_memOfCells cs⟩

/-- A change of a store that is answered: the store is absent or canonical and within its size. -/
theorem changeStore_next {m : Medium} {cells : Option Memory} {s t : State} (h : changeStore m cells s = .next t) :
    ∃ st, t = s.setStore m st ∧ ∀ x, st = some x → Memory.wf (mirrorWords s.params m) x := by
  cases cells with
  | none =>
    cases h
    exact ⟨none, rfl, nofun⟩
  | some cs =>
    by_cases hfit : ∀ c ∈ cs, c.1 < mirrorWords s.params m
    · rw [changeStore_of_fit s hfit] at h
      cases h
      exact ⟨_, rfl, fun x hx => by cases hx; exact wf_memOfCells hfit⟩
    · rw [changeStore_of_not_fit s hfit] at h
      cases h

/-- A buffer that is taken fits and becomes its canonical memory. -/
theorem supply_next {cells : Memory} {s t : State} (h : supply cells s = .next t) :
    (∀ c ∈ cells, c.1 < bufWords s.params) ∧ t = { s with buf := memOfCells cells } := by
  by_cases hfit : ∀ c ∈ cells, c.1 < bufWords s.params
  · rw [supply_of_fit s hfit] at h
    cases h
    exact ⟨hfit, rfl⟩
  · rw [supply_of_not_fit s hfit] at h
    cases h

/-- Everything a step that answers a next state can have done. -/
theorem step_next_cases {s t : State} (h : step s = .next t) :
    (∃ codes bytes rest, s.held = some codes ∧ s.inputs = .host (.appendSource bytes) :: rest ∧
      t = twAdvance codes { s with source := s.source ++ bytes, inputs := rest }) ∨
    t = s ∨
    (s.held = none ∧ ∃ c rest i, s.inputs = .command c :: rest ∧ decode c.cmd = .ok i ∧
      exec i (s.present c rest) = .next t) ∨
    (s.held = none ∧ ∃ c rest e, s.inputs = .command c :: rest ∧ decode c.cmd = .error e ∧
      t = { s.present c rest with
        fault := latchFault s.fault (cmdDevField c.cmd) .illegalCommand
        response := some (.fault .illegalCommand) }) ∨
    (s.held = none ∧ ∃ cells rest, s.inputs = .supplyBuffer cells :: rest ∧ (∀ c ∈ cells, c.1 < bufWords s.params) ∧
      t = { s with inputs := rest, buf := memOfCells cells }) ∨
    (s.held = none ∧ ∃ a rest, s.inputs = .host a :: rest ∧ hostAct a { s with inputs := rest } = .next t) := by
  rcases step_cases s with ⟨codes, bytes, rest, hh, hin, e⟩ | e | ⟨hh, c, rest, i, hin, hd, e⟩ |
    ⟨hh, c, rest, r, hin, hd, e⟩ | ⟨hh, cells, rest, hin, e⟩ | ⟨hh, a, rest, hin, e⟩ <;> rw [e] at h
  · cases h; exact Or.inl ⟨codes, bytes, rest, hh, hin, rfl⟩
  · cases h; exact Or.inr (Or.inl rfl)
  · exact Or.inr (Or.inr (Or.inl ⟨hh, c, rest, i, hin, hd, h⟩))
  · cases h; exact Or.inr (Or.inr (Or.inr (Or.inl ⟨hh, c, rest, r, hin, hd, rfl⟩)))
  · obtain ⟨hfit, rfl⟩ := supply_next h
    exact Or.inr (Or.inr (Or.inr (Or.inr (Or.inl ⟨hh, cells, rest, hin, hfit, rfl⟩))))
  · exact Or.inr (Or.inr (Or.inr (Or.inr (Or.inr ⟨hh, a, rest, hin, h⟩))))

/-! ### What nothing changes: the parameters -/

/-- The two states have the same sizes, latency constants, codec and `LAT_TW`. -/
def State.SameParameters (s t : State) : Prop := t.params = s.params ∧ t.codec = s.codec ∧ t.latTw = s.latTw

theorem twAdvance_sameParameters (codes : List Code6) (s : State) : s.SameParameters (twAdvance codes s) := by
  rcases twAdvance_cases codes s with ⟨cs, rest, e⟩ | ⟨cs, -, e⟩ <;> rw [e]
  · rw [twFinish_eq]; exact ⟨rfl, rfl, rfl⟩
  · exact ⟨rfl, rfl, rfl⟩

theorem exec_sameParameters {i : Instr} {s t : State} (h : exec i s = .next t) : s.SameParameters t := by
  rcases exec_next_cases h with ⟨f, -, rfl⟩ | ⟨d, -, rfl⟩ | ⟨r, body, c, -, -, rfl⟩ | ⟨r, body, hp, -, rfl⟩ |
    ⟨-, -, rfl⟩ | ⟨-, -, ⟨cs, rest, rfl⟩ | ⟨cs, -, rfl⟩⟩
  · exact ⟨rfl, rfl, rfl⟩
  · exact ⟨rfl, rfl, rfl⟩
  · exact ⟨rfl, rfl, rfl⟩
  · obtain ⟨-, -, hcodec, hparams, hlat, -⟩ := hp.body_frame s
    exact ⟨hparams, hcodec, hlat⟩
  · exact ⟨rfl, rfl, rfl⟩
  · rw [twFinish_eq]; exact ⟨rfl, rfl, rfl⟩
  · exact ⟨rfl, rfl, rfl⟩

theorem hostAct_sameParameters {a : HostAction} {s t : State} (h : hostAct a s = .next t) : s.SameParameters t := by
  cases a with
  | setTapeStore cells => obtain ⟨st, rfl, -⟩ := changeStore_next h; exact ⟨rfl, rfl, rfl⟩
  | setDiskStore cells => obtain ⟨st, rfl, -⟩ := changeStore_next h; exact ⟨rfl, rfl, rfl⟩
  | resetDevice d r => cases h; rw [resetDevice_eq]; exact ⟨rfl, rfl, rfl⟩
  | _ => cases h; exact ⟨rfl, rfl, rfl⟩

/-! ### What changes the `FAULT` latch -/

theorem twAdvance_fault (codes : List Code6) (s : State) : (twAdvance codes s).fault = s.fault := by
  rcases twAdvance_cases codes s with ⟨cs, rest, e⟩ | ⟨cs, -, e⟩ <;> rw [e]
  · rw [twFinish_eq]
  · rfl

/-- A command leaves a latch that is set (R228). -/
theorem exec_fault_of_ne {i : Instr} {s t : State} (h : exec i s = .next t) (hf : s.fault ≠ 0#8) : t.fault = s.fault := by
  rcases exec_next_cases h with ⟨f, -, rfl⟩ | ⟨d, -, rfl⟩ | ⟨r, body, c, -, -, rfl⟩ | ⟨r, body, hp, -, rfl⟩ |
    ⟨-, -, rfl⟩ | ⟨-, -, ⟨cs, rest, rfl⟩ | ⟨cs, -, rfl⟩⟩
  · rfl
  · rfl
  · exact latchFault_of_ne hf _ _
  · obtain ⟨-, -, -, -, -, hfault, -⟩ := hp.body_frame s
    exact hfault
  · exact latchFault_of_ne hf _ _
  · rw [twFinish_eq]
  · rfl

/-- The one host action that touches the latch is the reset of the block, which clears it (R265). -/
theorem hostAct_fault {a : HostAction} {s t : State} (h : hostAct a s = .next t) :
    t.fault = s.fault ∨ (t.fault = 0#8 ∧ ∃ rt rd, a = .resetBlock rt rd) := by
  cases a with
  | resetBlock rt rd => cases h; exact Or.inr ⟨rfl, rt, rd, rfl⟩
  | setTapeStore cells => obtain ⟨st, rfl, -⟩ := changeStore_next h; exact Or.inl rfl
  | setDiskStore cells => obtain ⟨st, rfl, -⟩ := changeStore_next h; exact Or.inl rfl
  | resetDevice d r => cases h; rw [resetDevice_eq]; exact Or.inl rfl
  | _ => cases h; exact Or.inl rfl

/-! ### What changes a cursor or a `BUSYUNTIL` -/

/-- The transfers that advance are `TAPE.IN`, `TAPE.OUT` and `CR.IN` (R23). -/
theorem PlainTransfer.of_advances {p : Params} {i : Instr} {r : Transfer} {body : State → State}
    (h : PlainTransfer p i r body) (ha : r.advances = true) :
    i = .tapeIn ∧ r.dev = .tape ∨ i = .tapeOut ∧ r.dev = .tape ∨ i = .crIn ∧ r.dev = .cardReader := by
  cases h with
  | tapeIn => exact Or.inl ⟨rfl, rfl⟩
  | tapeOut => exact Or.inr (Or.inl ⟨rfl, rfl⟩)
  | crIn => exact Or.inr (Or.inr ⟨rfl, rfl⟩)
  | _ => cases ha

/-- Each plain transfer is a row of R122's table. -/
theorem PlainTransfer.mem_transferTable {p : Params} {i : Instr} {r : Transfer} {body : State → State}
    (h : PlainTransfer p i r body) (latTw : Nat) : (i, r.dev, r.product) ∈ transferTable p latTw := by
  cases h <;> simp [transferTable, tapeInRule, tapeOutRule, diskInRule, diskOutRule, cardInRule, cardOutRule,
    printRule, paperTapeRule]

/-- A completed transfer moves a cursor only if it advances, and then its own device's, by one. -/
theorem Transfer.regsAfter_curPage_of_ne {r : Transfer} {s : State} {d : Device} (hf : r.fault s = none)
    (h : ((r.regsAfter s).get d).curPage ≠ (s.regs.get d).curPage) :
    d = r.dev ∧ r.advances = true ∧
      ((r.regsAfter s).get d).curPage.toNat = (s.regs.get d).curPage.toNat + 1 := by
  have hd : d = r.dev := by
    by_contra hne
    exact h (by rw [r.regsAfter_ne s hne])
  subst hd
  have ha : r.advances = true := by
    by_contra hne
    exact h (by simp [Transfer.regsAfter_same, hne, State.curPage])
  obtain ⟨-, hlt, -⟩ := (Transfer.fault_eq_none_iff r s).1 hf
  refine ⟨rfl, ha, ?_⟩
  rw [Transfer.regsAfter_same, if_pos ha]
  exact toNat_ofNat_of_lt (hlt ha)

/-- `TW.IN` completed writes the registers of the TypeWriter alone. -/
theorem twFinish_regs_ne (codes : List Code6) (rest : List Char8) (s : State) {d : Device} (hd : d ≠ .typeWriter) :
    (twFinish codes rest s).regs.get d = s.regs.get d := by
  rw [twFinish_eq]
  exact RegFile.get_set_ne _ _ hd

/-- `TW.IN` moves no cursor, not even its own (R23). -/
theorem twFinish_curPage (codes : List Code6) (rest : List Char8) (s : State) (d : Device) :
    ((twFinish codes rest s).regs.get d).curPage = (s.regs.get d).curPage := by
  by_cases hd : d = .typeWriter
  · subst hd
    rw [twFinish_eq]
    rfl
  · rw [twFinish_regs_ne codes rest s hd]

/-! ### The invariant -/

/-- Presenting a command keeps the invariant. -/
theorem State.Inv.present {s : State} (hi : s.Inv) (hh : s.held = none) (c : Command) (rest : List Input) :
    (s.present c rest).Inv :=
  hi.of_eq rfl rfl rfl rfl rfl rfl rfl rfl rfl fun _ h => absurd (hh.symm.trans h) (by simp)

/-- Taking a fault keeps the invariant. -/
theorem State.Inv.with_fault {s : State} (hi : s.Inv) (hh : s.held = none) (dev : BitVec 3) (c : FaultCause) :
    ({ s with fault := latchFault s.fault dev c, response := some (.fault c) } : State).Inv :=
  { hi with
    fault := faultLegal_latch hi.fault dev c
    held := fun _ h => absurd (hh.symm.trans h) (by simp) }

/-- A store that is absent or canonical keeps the invariant. -/
theorem State.Inv.with_store {s : State} (hi : s.Inv) (m : Medium) (st : Option Memory)
    (hst : ∀ x, st = some x → Memory.wf (mirrorWords s.params m) x) : (s.setStore m st).Inv := by
  cases m with
  | tape => exact { hi with tapeStore := hst }
  | disk => exact { hi with diskStore := hst }

/-- Canonical mirrors and a legal latch, whatever the registers, keep the invariant: what a reset leaves. -/
theorem State.Inv.with_mirrors {s : State} (hi : s.Inv) (r : RegFile) {x y : Memory} {f : BitVec 8}
    (hx : Memory.wf (mirrorWords s.params .tape) x) (hy : Memory.wf (mirrorWords s.params .disk) y) (hf : faultLegal f) :
    ({ s with regs := r, tapeData := x, diskData := y, fault := f } : State).Inv :=
  { hi with
    tapeData := hx
    diskData := hy
    fault := hf }

/-- The data movement of a transfer whose preconditions hold keeps the invariant: it stays inside the buffer, and
inside the mirror because the page is in range (R39 (3)). -/
theorem PlainTransfer.inv_body {s : State} {i : Instr} {r : Transfer} {body : State → State}
    (h : PlainTransfer s.params i r body) (hi : s.Inv) (hh : s.held = none) (hf : r.fault s = none) (q : RegFile)
    (x : Option Response) : ({ body s with regs := q, response := x } : State).Inv := by
  obtain ⟨hpage, -, -⟩ := (Transfer.fault_eq_none_iff r s).1 hf
  have hheld : ∀ codes, s.held = some codes → codes.length < twChars s.params ∧ s.source = [] ∧ x = none :=
    fun _ h => absurd (hh.symm.trans h) (by simp)
  cases h with
  | tapeIn =>
    refine hi.with_buf hh q x _ (wf_memWrite hi.buf _ ?_)
    simpa using blockSize_le_bufWords s.params (d := .tape) (by decide)
  | diskIn =>
    refine hi.with_buf hh q x _ (wf_memWrite hi.buf _ ?_)
    simpa using blockSize_le_bufWords s.params (d := .disk) (by decide)
  | tapeOut =>
    rw [pageOut_tape_eq]
    exact hi.with_tape hh q x _ _ (wf_pagedOut s.buf hi.tapeData (hpage rfl)) (ite_eq_or_eq _ _ _)
  | diskOut =>
    rw [pageOut_disk_eq]
    exact hi.with_disk hh q x _ _ (wf_pagedOut s.buf hi.diskData (hpage rfl)) (ite_eq_or_eq _ _ _)
  | crIn =>
    cases hrec : s.recRead (s.curPage .cardReader) s.readable with
    | none => rw [readCard_of_none hrec]; exact hi.with_buf hh q x _ hi.buf
    | some rec =>
      rw [readCard_of_some hrec]
      refine hi.with_buf hh q x _ (wf_memWrite hi.buf _ ?_)
      rw [decodeCard_length, Nat.zero_add]
      exact blockSize_le_bufWords s.params (d := .cardReader) (by decide)
  | cwOut =>
    rw [punchCard_eq]
    refine hi.with_cards hh q x _ ?_
    split
    · exact CardStores.wf_setWriter hi.cards _ _
    · exact hi.cards
  | lpOut => rw [printBuf_eq]; exact { hi with held := hheld }
  | ptOut => rw [punchBuf_eq]; exact { hi with held := hheld }

/-- The typewriter's loop, begun anew or resumed with fewer codes than a full transfer, keeps the invariant: it
completes the command, or holds it with fewer codes than a full transfer (R59). -/
theorem State.Inv.twAdvance {s : State} (hi : s.Inv) {codes : List Code6} (hc : codes.length ≤ twChars s.params)
    (src : List Char8) (rest : List Input) : (twAdvance codes { s with source := src, inputs := rest }).Inv := by
  have hbuf : ∀ cs n, n ≤ s.params.typeWriter.blockSize → Memory.wf (bufWords s.params) (memWrite s.buf 0 (twWords cs n)) :=
    fun cs n hn => wf_memWrite hi.buf _ (by
      have := blockSize_le_bufWords s.params (d := .typeWriter) (by decide)
      simp only [Params.blockSize_typeWriter] at this
      simp only [twWords_length]
      omega)
  rcases twAdvance_cases codes { s with source := src, inputs := rest } with ⟨cs, post, e⟩ | ⟨cs, hw, e⟩ <;> rw [e]
  · rw [twFinish_eq]
    exact { hi with
      buf := hbuf cs _ le_rfl
      held := nofun }
  · obtain ⟨vals, -, -, hlt⟩ := twScan_wait_codes hc hw
    rw [twHold_eq]
    exact { hi with
      buf := hbuf cs _ (by rw [twChars_eq] at hlt; omega)
      held := fun _ h => by cases h; exact ⟨hlt, rfl, rfl⟩ }

/-- Every command keeps the invariant. -/
theorem State.Inv.of_exec {i : Instr} {s t : State} (hi : s.Inv) (hh : s.held = none) (h : exec i s = .next t) : t.Inv := by
  rcases exec_next_cases h with ⟨f, -, rfl⟩ | ⟨d, -, rfl⟩ | ⟨r, body, c, -, -, rfl⟩ | ⟨r, body, hp, hf, rfl⟩ |
    ⟨-, -, rfl⟩ | ⟨rfl, hlt, -⟩
  · exact hi.with_buf hh s.regs _ s.buf hi.buf
  · exact hi.with_buf hh _ _ s.buf hi.buf
  · exact hi.with_fault hh r.dev.code c
  · exact hp.inv_body hi hh hf _ _
  · exact hi.with_fault hh 5#3 .timeOverflow
  · rw [twIn_of_lt hlt] at h
    cases h
    exact hi.twAdvance (codes := []) (Nat.zero_le _) s.source s.inputs

/-- Every action of the host, between commands, keeps the invariant. -/
theorem State.Inv.of_hostAct {a : HostAction} {s t : State} (hi : s.Inv) (hh : s.held = none)
    (h : hostAct a s = .next t) : t.Inv := by
  have hheld : ∀ src codes, s.held = some codes → codes.length < twChars s.params ∧ src = ([] : List Char8) ∧ s.response = none :=
    fun _ _ h => absurd (hh.symm.trans h) (by simp)
  cases a with
  | appendSource bytes => cases h; exact { hi with held := hheld _ }
  | setTapeStore cells => obtain ⟨st, rfl, hst⟩ := changeStore_next h; exact hi.with_store .tape st hst
  | setDiskStore cells => obtain ⟨st, rfl, hst⟩ := changeStore_next h; exact hi.with_store .disk st hst
  | setReaderCards cards => cases h; exact { hi with cards := CardStores.wf_setReader hi.cards (wf_recMapOfList _) }
  | setWriterCards cards => cases h; exact { hi with cards := CardStores.wf_setWriter_of hi.cards (wf_recMapOfList _) }
  | setPaperFile file => cases h; exact { hi with }
  | attachCards stores => cases h; exact hi.with_cards hh _ s.response _ (wf_cardStoresOf stores)
  | constructReader dir => cases h; exact hi.with_cards hh _ s.response _ (CardStores.wf_readerOn hi.cards dir)
  | constructWriter dir => cases h; exact hi.with_cards hh _ s.response _ (CardStores.wf_writerOn hi.cards dir)
  | resetDevice d r =>
    cases h
    rw [resetDevice_eq]
    refine hi.with_mirrors _ ?_ ?_ hi.fault
    · split
      · exact wf_storeLoad hi.tapeStore r
      · exact hi.tapeData
    · split
      · exact wf_storeLoad hi.diskStore r
      · exact hi.diskData
  | resetBlock rt rd =>
    cases h
    exact hi.with_mirrors _ (wf_storeLoad hi.tapeStore rt) (wf_storeLoad hi.diskStore rd) (Or.inl rfl)

/-! ### Fixed values: the bus packing and the reset state -/

/-- The sign bit of a Word on the bus (R21). -/
theorem wordToBus_sign (w : Word) :
    (wordToBus w).extractLsb' 30 1 = (match w.sign with | .pos => 0#1 | .neg => 1#1) := by
  obtain ⟨sign, data⟩ := w
  cases sign <;> exact BitVec.extractLsb'_append_eq_left

/-- The data bits of a Word on the bus (R21). -/
theorem wordToBus_data (w : Word) : (wordToBus w).extractLsb' 0 30 = w.data :=
  BitVec.extractLsb'_append_eq_right

theorem wordOfBus_wordToBus (w : Word) : wordOfBus (wordToBus w) = w := by
  obtain ⟨sign, data⟩ := w
  cases sign <;> simp [wordOfBus, wordToBus_data, wordToBus_sign]

theorem wordToBus_wordOfBus (b : BitVec 31) : wordToBus (wordOfBus b) = b :=
  calc wordToBus (wordOfBus b) = b.extractLsb' 30 1 ++ b.extractLsb' 0 30 := by
        rcases BitVec.eq_zero_or_eq_one (b.extractLsb' 30 1) with h | h <;> simp [wordToBus, wordOfBus, h]
    _ = b := BitVec.extractLsb'_append_extractLsb'

/-- A `BUSY` command answers whether its device is busy (R124). -/
theorem answer_of_busyCommand {i : Instr} {d : Device} (h : (i, d) ∈ busyCommands) :
    answer i = some fun r now => .done (busyFlag now (r.get d).busyUntil) none := by
  simp only [busyCommands, List.mem_cons, Prod.mk.injEq, List.not_mem_nil, or_false] at h
  rcases h with ⟨rfl, rfl⟩ | ⟨rfl, rfl⟩ | ⟨rfl, rfl⟩ | ⟨rfl, rfl⟩ | ⟨rfl, rfl⟩ | ⟨rfl, rfl⟩ | ⟨rfl, rfl⟩ <;> rfl

/-- A device whose `BUSYUNTIL` is 0 is busy at no time. -/
theorem busyFlag_zero (now : Time) : busyFlag now 0#64 = false := decide_eq_false (Nat.not_lt_zero _)

/-- The longest caller buffer of R8's defaults is the PaperTape's. -/
theorem bufWords_default : bufWords Config.params = 14000 := by decide

/-! ### The statements of 10_state.md -/

/-- Settles O49: each thing a step can do keeps the invariant. -/
theorem everyStepKeepsTheInvariant : Obligations.EveryStepKeepsTheInvariant := by
  intro s t hi h
  rcases step_next_cases h with ⟨codes, bytes, rest, hh, -, rfl⟩ | rfl | ⟨hh, c, rest, i, -, -, he⟩ |
    ⟨hh, c, rest, e, -, -, rfl⟩ | ⟨hh, cells, rest, -, hfit, rfl⟩ | ⟨hh, a, rest, -, ha⟩
  · obtain ⟨hlt, -, -⟩ := hi.held codes hh
    exact hi.twAdvance hlt.le _ rest
  · exact hi
  · exact (hi.present hh c rest).of_exec hh he
  · exact (hi.present hh c rest).with_fault hh _ _
  · exact { hi with buf := wf_memOfCells hfit }
  · have hi' : ({ s with inputs := rest } : State).Inv := { hi with }
    exact hi'.of_hostAct hh ha

/-- Settles O3: of what a command can do, only an advancing transfer and `SETPAGE` write a cursor. -/
theorem onlyFourCommandsMoveACursor : Obligations.OnlyFourCommandsMoveACursor := by
  intro i s t d h hne
  rcases exec_next_cases h with ⟨f, -, rfl⟩ | ⟨e, rfl, rfl⟩ | ⟨r, body, c, -, -, rfl⟩ | ⟨r, body, hp, hf, rfl⟩ |
    ⟨-, -, rfl⟩ | ⟨-, -, ⟨cs, rest, rfl⟩ | ⟨cs, -, rfl⟩⟩
  · exact absurd rfl hne
  · have hd : d = e := by
      by_contra hde
      exact hne (by rw [RegFile.get_set_ne _ _ hde])
    subst hd
    exact Or.inr ⟨rfl, by simp⟩
  · exact absurd rfl hne
  · obtain ⟨rfl, ha, hone⟩ := Transfer.regsAfter_curPage_of_ne hf hne
    exact Or.inl ⟨hp.of_advances ha, hone, rfl⟩
  · exact absurd rfl hne
  · exact absurd (twFinish_curPage cs rest s d) hne
  · exact absurd rfl hne

/-- Settles O4: of what a command can do, only a completed transfer writes a `BUSYUNTIL`. -/
theorem onlySuccessfulTransfersChangeBusyUntil : Obligations.OnlySuccessfulTransfersChangeBusyUntil := by
  intro i s t d h hne
  rcases exec_next_cases h with ⟨f, -, rfl⟩ | ⟨e, rfl, rfl⟩ | ⟨r, body, c, -, -, rfl⟩ | ⟨r, body, hp, hf, rfl⟩ |
    ⟨-, -, rfl⟩ | ⟨rfl, -, ⟨cs, rest, rfl⟩ | ⟨cs, -, rfl⟩⟩
  · exact absurd rfl hne
  · refine absurd ?_ hne
    by_cases hde : d = e
    · subst hde; simp
    · rw [RegFile.get_set_ne _ _ hde]
  · exact absurd rfl hne
  · have hd : d = r.dev := by
      by_contra hde
      exact hne (by rw [r.regsAfter_ne s hde])
    subst hd
    exact ⟨⟨_, hp.mem_transferTable s.latTw⟩, rfl⟩
  · exact absurd rfl hne
  · have hd : d = .typeWriter := by
      by_contra hde
      exact hne (by rw [twFinish_regs_ne cs rest s hde])
    subst hd
    exact ⟨⟨s.params.typeWriter.blockSize * s.latTw, by simp [transferTable]⟩, by rw [twFinish_eq]⟩
  · exact absurd rfl hne

/-- Settles O6: a fault leaves a latch that is set, and of the host's actions only the reset of the block writes it. -/
theorem onlyBlockResetChangesASetFaultLatch : Obligations.OnlyBlockResetChangesASetFaultLatch := by
  intro s t hf h hne
  rcases step_next_cases h with ⟨codes, bytes, rest, -, -, rfl⟩ | rfl | ⟨-, c, rest, i, -, -, he⟩ |
    ⟨-, c, rest, e, -, -, rfl⟩ | ⟨-, cells, rest, -, -, rfl⟩ | ⟨hh, a, rest, hin, ha⟩
  · exact absurd (twAdvance_fault codes _) hne
  · exact absurd rfl hne
  · exact absurd (exec_fault_of_ne he hf) hne
  · exact absurd (latchFault_of_ne hf _ _) hne
  · exact absurd rfl hne
  · rcases hostAct_fault ha with e | ⟨hz, rt, rd, rfl⟩
    · exact absurd e hne
    · exact ⟨hz, hh, rt, rd, rest, hin⟩

/-- Settles O7: the step is the change of the store and nothing else. -/
theorem storeChangeLeavesTheMirror : Obligations.StoreChangeLeavesTheMirror := by
  intro s rest cells hh
  refine ⟨fun hin hfit => ?_, fun hin hfit => ?_⟩
  · rw [step_of_other (fetch_host hh hin)]
    exact changeStore_of_given (s := { s with inputs := rest }) (m := .tape) hfit
  · rw [step_of_other (fetch_host hh hin)]
    exact changeStore_of_given (s := { s with inputs := rest }) (m := .disk) hfit

/-- Settles O52: nothing a step can do writes a parameter. -/
theorem everyStepKeepsTheParameters : Obligations.EveryStepKeepsTheParameters := by
  intro s t h
  rcases step_next_cases h with ⟨codes, bytes, rest, -, -, rfl⟩ | rfl | ⟨-, c, rest, i, -, -, he⟩ |
    ⟨-, c, rest, e, -, -, rfl⟩ | ⟨-, cells, rest, -, -, rfl⟩ | ⟨-, a, rest, -, ha⟩
  · exact twAdvance_sameParameters codes _
  · exact ⟨rfl, rfl, rfl⟩
  · exact exec_sameParameters (s := s.present c rest) he
  · exact ⟨rfl, rfl, rfl⟩
  · exact ⟨rfl, rfl, rfl⟩
  · exact hostAct_sameParameters (s := { s with inputs := rest }) ha

/-- Settles O1: sign and data stand in their own bits, and a bus value is its two parts joined. -/
theorem wordBusPackingIsLossless : Obligations.WordBusPackingIsLossless :=
  ⟨fun w => ⟨wordToBus_data w, wordToBus_sign w⟩, wordOfBus_wordToBus, wordToBus_wordOfBus⟩

/-- Settles O2: the registers 2 and 3 are read from the parameters, and R8's defaults are computed. -/
theorem sizeRegistersAreConstants : Obligations.SizeRegistersAreConstants := by
  refine ⟨fun s d => ⟨rfl, rfl⟩, fun s hs => ?_, rfl⟩
  rw [hs, bufWords_default]
  refine ⟨?_, ?_, rfl, rfl, rfl⟩ <;> simp [State.readReg, hs, Config.params]

/-- Settles O5: by cases on the cause, for the eight values of the device field. -/
theorem faultValueHasItsFields : Obligations.FaultValueHasItsFields := by
  intro dev c
  revert dev
  cases c <;> decide

/-- Settles O47: a device with `BUSYUNTIL` 0 is busy at no time. -/
theorem resetStateHasTheResetValues : Obligations.ResetStateHasTheResetValues := by
  refine ⟨RegFile.reset_get, rfl, fun a => ⟨rfl, rfl⟩, fun j n hj => ?_⟩
  rw [exec_answer (answer_of_busyCommand hj)]
  simp [State.reset, DevRegs.reset, busyFlag_zero]

/-- Settles O48: empty memories and record maps are canonical, and R8's defaults are well-formed. -/
theorem resetMeetsTheInvariant : Obligations.ResetMeetsTheInvariant :=
  { params := show Config.params.wellFormed = true by decide
    tapeData := Memory.wf_nil _
    diskData := Memory.wf_nil _
    tapeStore := nofun
    diskStore := nofun
    buf := Memory.wf_nil _
    cards := ⟨List.Pairwise.nil, List.Pairwise.nil⟩
    fault := Or.inl rfl
    latTw := show 0 < Config.latTwDefault by decide
    held := nofun }

end Sys2Proof.Machine
end

section
/-! SUPPORT. What a command answers, which steps are refused, which state a command may touch, and what the
typewriter's loop does with a wait: the layer under the proofs of 20_memory.md's statements, and these proofs. -/

namespace Sys2Proof.Machine

open Sys2Proof.Claims

/-! ### What is answered and what is refused -/

/-- Every command answers a next state, a fault being one (R64, R130). -/
theorem exec_exists_next (i : Instr) (s : State) : ∃ t, exec i s = .next t := by
  rcases exec_cases i s with ⟨f, -, e⟩ | ⟨d, -, e⟩ | ⟨r, body, -, e⟩ | ⟨rfl, -⟩
  · exact ⟨_, e⟩
  · exact ⟨_, e⟩
  · rcases r.run_cases body s with ⟨c, -, hrun⟩ | ⟨-, hrun⟩
    · exact ⟨_, e.trans hrun⟩
    · exact ⟨_, e.trans hrun⟩
  · rcases Nat.lt_or_ge (s.port.now.toNat + s.params.typeWriter.blockSize * s.latTw) (2 ^ 64) with hlt | hle
    · exact ⟨_, twIn_of_lt hlt⟩
    · exact ⟨_, twIn_of_le hle⟩

/-- No command is refused. -/
theorem exec_ne_refused (i : Instr) (s : State) (e : Refusal) : exec i s ≠ .refused e := by
  obtain ⟨t, ht⟩ := exec_exists_next i s
  rw [ht]
  exact nofun

/-- A command that has given no response is `TW.IN`, held with some codes (R59). -/
theorem exec_no_response {i : Instr} {s t : State} (h : exec i s = .next t) (hr : t.response = none) :
    i = .twIn ∧ s.port.now.toNat + s.params.typeWriter.blockSize * s.latTw < 2 ^ 64 ∧
      ∃ cs, twScan (twChars s.params) s.codec [] s.source = .wait cs ∧ t = twHold cs s := by
  rcases exec_next_cases h with ⟨f, -, rfl⟩ | ⟨d, -, rfl⟩ | ⟨r, body, c, -, -, rfl⟩ | ⟨r, body, -, -, rfl⟩ |
    ⟨-, -, rfl⟩ | ⟨hi, hlt, ⟨cs, rest, rfl⟩ | hold⟩
  · cases hr
  · cases hr
  · cases hr
  · cases hr
  · cases hr
  · cases hr
  · exact ⟨hi, hlt, hold⟩

/-- A change of a store is refused only for a Word beyond the store's end (R55, D21). -/
theorem changeStore_refused {m : Medium} {cells : Option Memory} {s : State} {e : Refusal}
    (h : changeStore m cells s = .refused e) :
    ∃ cs, cells = some cs ∧ e = .storeLength ∧ ∃ c ∈ cs, mirrorWords s.params m ≤ c.1 := by
  cases cells with
  | none => cases h
  | some cs =>
    by_cases hfit : ∀ c ∈ cs, c.1 < mirrorWords s.params m
    · rw [changeStore_of_fit s hfit] at h
      cases h
    · rw [changeStore_of_not_fit s hfit] at h
      cases h
      push Not at hfit
      exact ⟨cs, rfl, rfl, hfit⟩

/-- A buffer is refused only for a Word beyond the longest buffer's end (R52, U6). -/
theorem supply_refused {cells : Memory} {s : State} {e : Refusal} (h : supply cells s = .refused e) :
    e = .bufferLength ∧ ∃ c ∈ cells, bufWords s.params ≤ c.1 := by
  by_cases hfit : ∀ c ∈ cells, c.1 < bufWords s.params
  · rw [supply_of_fit s hfit] at h
    cases h
  · rw [supply_of_not_fit s hfit] at h
    cases h
    push Not at hfit
    exact ⟨rfl, hfit⟩

/-- Of the host's actions only a change of a store is ever refused. -/
theorem hostAct_refused {a : HostAction} {s : State} {e : Refusal} (h : hostAct a s = .refused e) :
    (∃ cells, a = .setTapeStore (some cells) ∧ e = .storeLength ∧ ∃ c ∈ cells, mirrorWords s.params .tape ≤ c.1) ∨
    (∃ cells, a = .setDiskStore (some cells) ∧ e = .storeLength ∧ ∃ c ∈ cells, mirrorWords s.params .disk ≤ c.1) := by
  cases a with
  | setTapeStore cells => obtain ⟨cs, rfl, hcs⟩ := changeStore_refused h; exact Or.inl ⟨cs, rfl, hcs⟩
  | setDiskStore cells => obtain ⟨cs, rfl, hcs⟩ := changeStore_refused h; exact Or.inr ⟨cs, rfl, hcs⟩
  | _ => cases h

/-! ### What a command may touch -/

/-- Between the two states only the device `d` has changed, in its registers and the storage it owns, beside the
caller buffer, the latch and the response (R63). -/
structure State.TouchesOnly (d : Device) (s t : State) : Prop where
  regs   : OnlyDevice d s.regs t.regs
  tape   : d ≠ .tape → t.tapeData = s.tapeData ∧ t.tapeStore = s.tapeStore
  disk   : d ≠ .disk → t.diskData = s.diskData ∧ t.diskStore = s.diskStore
  cards  : d ≠ .cardWriter → t.cards = s.cards
  sink   : d ≠ .linePrinter → t.sink = s.sink
  source : d ≠ .typeWriter → t.source = s.source ∧ t.held = s.held
  file   : d ≠ .paperTape → t.paperFile = s.paperFile
  codec  : t.codec = s.codec
  params : t.params = s.params
  latTw  : t.latTw = s.latTw
  port   : t.port = s.port
  inputs : t.inputs = s.inputs

theorem onlyDevice_refl (d : Device) (q : RegFile) : OnlyDevice d q q := fun _ _ => rfl

theorem onlyDevice_set (d : Device) (q : RegFile) (v : DevRegs) : OnlyDevice d q (q.set d v) :=
  fun _ h => RegFile.get_set_ne q v h

/-- A device's registers, the caller buffer, the latch and the response are no other device's. -/
theorem State.touchesOnly_of_regs {d : Device} {s : State} {q : RegFile} (hq : OnlyDevice d s.regs q) (b : Memory)
    (f : BitVec 8) (x : Option Response) :
    s.TouchesOnly d { s with regs := q, buf := b, fault := f, response := x } where
  regs := hq
  tape _ := ⟨rfl, rfl⟩
  disk _ := ⟨rfl, rfl⟩
  cards _ := rfl
  sink _ := rfl
  source _ := ⟨rfl, rfl⟩
  file _ := rfl
  codec := rfl
  params := rfl
  latTw := rfl
  port := rfl
  inputs := rfl

/-- A plain transfer is one of the command's own device. -/
theorem PlainTransfer.dev_eq {p : Params} {i : Instr} {r : Transfer} {body : State → State}
    (h : PlainTransfer p i r body) : r.dev = deviceOf i := by
  cases h <;> rfl

/-- The data movement of a plain transfer touches only the storage its device owns. -/
theorem PlainTransfer.body_touchesOnly {p : Params} {i : Instr} {r : Transfer} {body : State → State}
    (h : PlainTransfer p i r body) {s : State} {q : RegFile} (hq : OnlyDevice (deviceOf i) s.regs q)
    (x : Option Response) : s.TouchesOnly (deviceOf i) { body s with regs := q, response := x } := by
  have base := State.touchesOnly_of_regs hq s.buf s.fault x
  cases h with
  | tapeIn => exact State.touchesOnly_of_regs hq _ s.fault x
  | diskIn => exact State.touchesOnly_of_regs hq _ s.fault x
  | crIn => rw [readCard_eq]; exact State.touchesOnly_of_regs hq _ s.fault x
  | tapeOut => rw [pageOut_tape_eq]; exact { base with tape := fun h => absurd rfl h }
  | diskOut => rw [pageOut_disk_eq]; exact { base with disk := fun h => absurd rfl h }
  | cwOut => rw [punchCard_eq]; exact { base with cards := fun h => absurd rfl h }
  | lpOut => exact { base with sink := fun h => absurd rfl h }
  | ptOut => rw [punchBuf_eq]; exact { base with file := fun h => absurd rfl h }

theorem twFinish_touchesOnly (cs : List Code6) (rest : List Char8) (s : State) :
    s.TouchesOnly .typeWriter (twFinish cs rest s) := by
  rw [twFinish_eq]
  exact { State.touchesOnly_of_regs (onlyDevice_set .typeWriter s.regs _) s.buf s.fault none with
    source := fun h => absurd rfl h }

theorem twHold_touchesOnly (cs : List Code6) (s : State) : s.TouchesOnly .typeWriter (twHold cs s) :=
  { State.touchesOnly_of_regs (onlyDevice_refl .typeWriter s.regs) s.buf s.fault none with
    source := fun h => absurd rfl h }

/-- Every command touches only its device. -/
theorem exec_touchesOnly {i : Instr} {s t : State} (h : exec i s = .next t) : s.TouchesOnly (deviceOf i) t := by
  rcases exec_next_cases h with ⟨f, -, rfl⟩ | ⟨d, rfl, rfl⟩ | ⟨r, body, c, -, -, rfl⟩ | ⟨r, body, hp, -, rfl⟩ |
    ⟨-, -, rfl⟩ | ⟨rfl, -, ⟨cs, rest, rfl⟩ | ⟨cs, -, rfl⟩⟩
  · exact State.touchesOnly_of_regs (onlyDevice_refl _ _) s.buf s.fault _
  · exact State.touchesOnly_of_regs (onlyDevice_set d _ _) s.buf s.fault _
  · exact State.touchesOnly_of_regs (onlyDevice_refl _ _) s.buf _ _
  · exact hp.body_touchesOnly (hp.dev_eq ▸ onlyDevice_set r.dev s.regs _) _
  · exact State.touchesOnly_of_regs (onlyDevice_refl _ _) s.buf _ _
  · exact twFinish_touchesOnly cs rest s
  · exact twHold_touchesOnly cs s

/-! ### The typewriter's loop over a wait -/

theorem twAdvance_of_full {codes cs : List Code6} {rest : List Char8} {s : State}
    (h : twScan (twChars s.params) s.codec codes s.source = .full cs rest) :
    twAdvance codes s = twFinish cs rest s := by
  rw [twAdvance, h]

theorem twAdvance_of_escape {codes cs : List Code6} {rest : List Char8} {s : State}
    (h : twScan (twChars s.params) s.codec codes s.source = .escape cs rest) :
    twAdvance codes s = twFinish (cs ++ [s.codec.space]) rest s := by
  rw [twAdvance, h]

theorem twAdvance_of_wait {codes cs : List Code6} {s : State}
    (h : twScan (twChars s.params) s.codec codes s.source = .wait cs) : twAdvance codes s = twHold cs s := by
  rw [twAdvance, h]

/-- A source whose bytes all have a code, fewer than a block takes, makes the loop wait with these codes (R59). -/
theorem twScan_wait_of_codes {n : Nat} {c : Codec} {src : List Char8} {vals : List Code6}
    (h : src.map (toVal c) = vals.map some) (hn : vals.length < n) : twScan n c [] src = .wait vals := by
  have hlen : src.length = vals.length := by simpa using congrArg List.length h
  calc twScan n c [] src = twScan n c [] (src ++ []) := by rw [List.append_nil]
    _ = twScan n c vals [] := twScan_append h [] [] (by simp only [List.length_nil]; omega)
    _ = .wait vals := twScan_wait c vals hn

/-- A scan that waited goes on, when bytes come, as if they had been there (R59). -/
theorem twScan_resume {n : Nat} {c : Codec} {codes : List Code6} {src : List Char8}
    (h : twScan n c [] src = .wait codes) (bytes : List Char8) :
    twScan n c [] (src ++ bytes) = twScan n c codes bytes := by
  obtain ⟨vals, rfl, hmap, hlt⟩ := twScan_wait_codes (Nat.zero_le n) h
  have hlen : src.length = codes.length := by simpa using congrArg List.length hmap
  exact twScan_append hmap [] bytes (by simp only [List.length_nil]; omega)

/-- Word `j` of the caller buffer is made of its codes once `TW.IN` has written it. -/
theorem packedWord_twWords {N n : Nat} {b : Memory} (hb : Memory.wf N b) (hn : n ≤ N) (codes : List Code6) {j : Nat}
    (hj : j < n) : PackedWord (memWrite b 0 (twWords codes n)) codes j := by
  have hread : Memory.read (memWrite b 0 (twWords codes n)) j = twWord codes j := by
    rw [read_twWords hb hn, if_pos hj]
  exact ⟨hread ▸ twWord_sign codes j, fun k => hread ▸ twWord_field codes j k⟩

/-- The Words a command in wait has written are within those of a full transfer. -/
theorem heldWords_le {p : Params} {codes : List Code6} (h : codes.length < twChars p) :
    codes.length / 5 ≤ p.typeWriter.blockSize := by
  rw [twChars_eq] at h
  omega

/-- The typewriter's Words fit in the caller buffer. -/
theorem typeWords_le_bufWords (p : Params) : p.typeWriter.blockSize ≤ bufWords p :=
  blockSize_le_bufWords p (d := .typeWriter) (by decide)

section

variable {s : State} (hi : s.Inv)
include hi

/-- The Words `TW.IN` writes at its end, or at a later wait, cover those it wrote at an earlier one. -/
theorem State.Inv.typeWords_cover {k n : Nat} (hkn : k ≤ n) (hn : n ≤ s.params.typeWriter.blockSize)
    (codes cs : List Code6) :
    memWrite (memWrite s.buf 0 (twWords codes k)) 0 (twWords cs n) = memWrite s.buf 0 (twWords cs n) :=
  memWrite_covers hi.buf _ _ (by simpa using hkn) (by simpa using hn.trans (typeWords_le_bufWords s.params))

/-- The end of `TW.IN` is the same after a wait as without it. -/
theorem State.Inv.twFinish_twHold {codes : List Code6} (hc : codes.length < twChars s.params) (cs : List Code6)
    (post src src' : List Char8) (rest : List Input) :
    twFinish cs post { twHold codes s with source := src, inputs := rest } =
      twFinish cs post { s with source := src', inputs := rest } := by
  have hbuf := hi.typeWords_cover (heldWords_le hc) le_rfl codes cs
  rw [twFinish_eq, twFinish_eq, twHold_eq]
  simp only [hbuf, State.curPage]

/-- A later wait is the same after an earlier one as without it. -/
theorem State.Inv.twHold_twHold {codes cs : List Code6} (hc : codes.length ≤ cs.length)
    (hcs : cs.length < twChars s.params) (src src' : List Char8) (rest : List Input) :
    twHold cs { twHold codes s with source := src, inputs := rest } =
      twHold cs { s with source := src', inputs := rest } := by
  have hbuf := hi.typeWords_cover (Nat.div_le_div_right hc) (heldWords_le hcs) codes cs
  rw [twHold_eq, twHold_eq, twHold_eq]
  simp only [hbuf]

/-- The loop resumed from a wait leaves what the loop leaves that found all the bytes at once (R59). -/
theorem State.Inv.twAdvance_twHold {codes : List Code6}
    (hw : twScan (twChars s.params) s.codec [] s.source = .wait codes) (bytes : List Char8) (rest : List Input) :
    Machine.twAdvance codes { twHold codes s with source := bytes, inputs := rest } =
      Machine.twAdvance [] { s with source := s.source ++ bytes, inputs := rest } := by
  obtain ⟨-, -, -, hlt⟩ := twScan_wait_codes (Nat.zero_le _) hw
  have hscan := twScan_resume hw bytes
  cases h : twScan (twChars s.params) s.codec codes bytes with
  | full cs post =>
    rw [twAdvance_of_full (cs := cs) (rest := post) h, twAdvance_of_full (cs := cs) (rest := post) (hscan.trans h)]
    exact hi.twFinish_twHold hlt cs post _ _ rest
  | escape cs post =>
    rw [twAdvance_of_escape (cs := cs) (rest := post) h, twAdvance_of_escape (cs := cs) (rest := post) (hscan.trans h)]
    exact hi.twFinish_twHold hlt _ post _ _ rest
  | wait cs =>
    obtain ⟨vals, rfl, -, hcs⟩ := twScan_wait_codes hlt.le h
    rw [twAdvance_of_wait h, twAdvance_of_wait (hscan.trans h)]
    exact hi.twHold_twHold (by simp) hcs _ _ rest

end

/-! ### The statements of 20_memory.md -/

/-- Settles O35: the scan waits with the codes, and the Words completed fit in the caller buffer. -/
theorem typewriterIsHeldOnAnEmptySource : Obligations.TypewriterIsHeldOnAnEmptySource := by
  intro s vals hi hlt hmap hfew
  have hchars : vals.length < twChars s.params := by rwa [twChars_eq]
  have hn : vals.length / 5 ≤ bufWords s.params := (heldWords_le hchars).trans (typeWords_le_bufWords s.params)
  refine ⟨memWrite s.buf 0 (twWords vals (vals.length / 5)), ?_, fun j hj => ?_, fun a ha => ?_⟩
  · rw [twIn_of_lt hlt, twAdvance_of_wait (twScan_wait_of_codes hmap hchars), twHold_eq]
  · exact packedWord_twWords hi.buf hn vals (by omega)
  · rw [read_twWords hi.buf hn, if_neg (by omega)]

/-- Settles O37: the held command is one in wait, and its loop resumed leaves what the loop without the wait does. -/
theorem holdingDoesNotChangeTheResult : Obligations.HoldingDoesNotChangeTheResult := by
  intro s t codes bytes rest hi h hheld hresp
  obtain ⟨-, hlt, cs, hw, rfl⟩ := exec_no_response h hresp
  cases hheld
  calc step { twHold codes s with inputs := .host (.appendSource bytes) :: rest }
      = .next (twAdvance codes { twHold codes s with source := bytes, inputs := rest }) :=
        (step_of_other (fetch_held rfl)).trans (fetchHeld_append rfl)
    _ = .next (twAdvance [] { s with source := s.source ++ bytes, inputs := rest }) := by
        rw [hi.twAdvance_twHold hw]
    _ = exec .twIn { s with source := s.source ++ bytes, inputs := rest } :=
        (twIn_of_lt (s := { s with source := s.source ++ bytes, inputs := rest }) hlt).symm

/-- Settles O43: each field of the frame every command keeps. -/
theorem commandsTouchOnlyTheirDevice : Obligations.CommandsTouchOnlyTheirDevice := by
  intro i s t h
  obtain ⟨regs, tape, disk, cards, sink, source, file, codec, params, latTw, port, inputs⟩ := exec_touchesOnly h
  exact ⟨regs, tape, disk, cards, sink, source, file, codec, params, latTw, port, inputs⟩

/-- Settles O51: of all a step does, only a buffer given and a host action can be refused. -/
theorem onlyWrongLengthsAreRefused : Obligations.OnlyWrongLengthsAreRefused := by
  intro s e h
  rcases step_cases s with ⟨codes, bytes, rest, -, -, hs⟩ | hs | ⟨-, c, rest, i, -, -, hs⟩ |
    ⟨-, c, rest, r, -, -, hs⟩ | ⟨-, cells, rest, hin, hs⟩ | ⟨-, a, rest, hin, hs⟩ <;> rw [hs] at h
  · cases h
  · cases h
  · exact absurd h (exec_ne_refused i _ e)
  · cases h
  · have hcells := supply_refused h
    exact Or.inl ⟨cells, rest, hin, hcells⟩
  · rcases hostAct_refused h with ⟨cells, rfl, hcells⟩ | ⟨cells, rfl, hcells⟩
    · exact Or.inr (Or.inl ⟨cells, rest, hin, hcells⟩)
    · exact Or.inr (Or.inr ⟨cells, rest, hin, hcells⟩)

/-- Settles O36: a held command whose next input is no bytes for the source answers the state as it is. -/
theorem aHeldCommandWaitsForTheSource : Obligations.AHeldCommandWaitsForTheSource :=
  fun _ codes hh hin => (step_of_other (fetch_held hh)).trans (fetchHeld_other codes hin)

/-- Settles O42: every command answers, and the one answer without a response is a wait of `TW.IN`. -/
theorem everyCommandAnswersANextState : Obligations.EveryCommandAnswersANextState := by
  intro i s
  obtain ⟨t, h⟩ := exec_exists_next i s
  refine ⟨t, h, fun hresp => ?_⟩
  obtain ⟨hi, -, cs, -, rfl⟩ := exec_no_response h hresp
  exact ⟨hi, rfl⟩

end Sys2Proof.Machine
end

section
/-! SUPPORT. The decoder against the encoder, first on the three fields and then on the word, the opcode map among
it: the layer under the proofs of 30_encoding.md's statements on the command word, and these proofs. -/

namespace Sys2Proof

open Sys2Proof.Claims

/-! ### The three fields of a command word -/

theorem cmdFields_fmt_toNat (cmd : BitVec 8) : (cmdFields cmd).fmt.toNat = cmd.toNat / 32 := by
  rw [cmdFields, BitVec.extractLsb'_toNat, Nat.shiftRight_eq_div_pow]
  omega

theorem cmdFields_dev_toNat (cmd : BitVec 8) : (cmdFields cmd).dev.toNat = cmd.toNat / 4 % 8 := by
  rw [cmdFields, BitVec.extractLsb'_toNat, Nat.shiftRight_eq_div_pow]

theorem cmdFields_op_toNat (cmd : BitVec 8) : (cmdFields cmd).op.toNat = cmd.toNat % 4 := by
  rw [cmdFields, BitVec.extractLsb'_toNat, Nat.shiftRight_zero]

theorem packFields_toNat (f : CmdFields) :
    (packFields f).toNat = f.fmt.toNat * 32 + f.dev.toNat * 4 + f.op.toNat := by
  rw [packFields, BitVec.toNat_append, BitVec.toNat_append, ← Nat.shiftLeft_add_eq_or_of_lt f.dev.isLt,
    ← Nat.shiftLeft_add_eq_or_of_lt f.op.isLt, Nat.shiftLeft_eq, Nat.shiftLeft_eq]
  omega

/-- The three parts of a command word, put together, are the word (R81). -/
theorem packFields_cmdFields (cmd : BitVec 8) : packFields (cmdFields cmd) = cmd := by
  apply BitVec.eq_of_toNat_eq
  rw [packFields_toNat, cmdFields_fmt_toNat, cmdFields_dev_toNat, cmdFields_op_toNat]
  omega

theorem CmdFields.wellFormed_iff (f : CmdFields) :
    f.wellFormed = true ↔ f.fmt.toNat ≤ 1 ∧ f.dev.toNat ≤ 6 ∧ (f.fmt.toNat = 0 ∨ f.op.toNat ≤ 1) := by
  simp [CmdFields.wellFormed, fmtOk, devOk, opOk, and_assoc, ← BitVec.toNat_inj]

/-- R87's list of values is the list of the words whose fields are no command's. -/
theorem reservedWord_iff (cmd : BitVec 8) : reservedWord cmd ↔ ¬(cmdFields cmd).wellFormed = true := by
  have hlt : cmd.toNat < 256 := cmd.isLt
  rw [CmdFields.wellFormed_iff, cmdFields_fmt_toNat, cmdFields_dev_toNat, cmdFields_op_toNat]
  simp only [reservedWord, List.mem_cons, List.not_mem_nil, or_false]
  omega

/-- The fields of every command are well-formed and what its command word is cut into. -/
theorem fieldsWellFormed (i : Instr) : Laws.FieldsWellFormed.Statement i := by
  cases i with
  | getPage d => exact Laws.FieldsWellFormed.getPage d
  | setPage d => exact Laws.FieldsWellFormed.setPage d
  | _ => exact ⟨rfl, rfl⟩

/-! ### The decoder on the fields -/

/-- The variant a `DEV` field selects has this number (R82). -/
theorem code_of_deviceOfCode {c : BitVec 3} {d : Device} (h : deviceOfCode c = some d) : d.code = c := by
  revert c
  cases d <;> decide

/-- The one `DEV` that selects no variant is 7 (R82). -/
theorem eq_seven_of_deviceOfCode {c : BitVec 3} (h : deviceOfCode c = none) : c = 7 := by
  revert c
  decide

/-- A format C word decodes to the command its variant and its operation name (R86). -/
theorem fields_deviceCommand (d : Device) (op : BitVec 2) : (deviceCommand d (opOfCode op)).fields = formatC d op := by
  revert op
  cases d <;> decide

theorem decodeFields_fields (i : Instr) : decodeFields i.fields = .ok i := by
  cases i with
  | getPage d => cases d <;> rfl
  | setPage d => cases d <;> rfl
  | _ => rfl

/-- Fields decode to the command they are the fields of, or they are no command's and are refused. -/
theorem decodeFields_cases (f : CmdFields) :
    (∃ i : Instr, i.fields = f ∧ decodeFields f = .ok i) ∨
    (¬f.wellFormed = true ∧ ∃ e, decodeFields f = .error e) := by
  obtain ⟨fmt, dev, op⟩ := f
  rw [CmdFields.wellFormed_iff]
  unfold decodeFields
  split
  case h_1 hfmt =>
    obtain rfl : fmt = 0 := BitVec.eq_of_toNat_eq hfmt
    split
    case h_1 d hd =>
      exact Or.inl ⟨_, by rw [fields_deviceCommand, formatC, code_of_deviceOfCode hd], rfl⟩
    case h_2 hd =>
      obtain rfl := eq_seven_of_deviceOfCode hd
      exact Or.inr ⟨by simp, _, rfl⟩
  case h_2 hfmt =>
    obtain rfl : fmt = 1 := BitVec.eq_of_toNat_eq hfmt
    split
    case h_1 d hd =>
      obtain rfl := code_of_deviceOfCode hd
      split
      case h_1 hop =>
        obtain rfl : op = 0 := BitVec.eq_of_toNat_eq hop
        exact Or.inl ⟨.getPage d, rfl, rfl⟩
      case h_2 hop =>
        obtain rfl : op = 1 := BitVec.eq_of_toNat_eq hop
        exact Or.inl ⟨.setPage d, rfl, rfl⟩
      case h_3 h0 h1 =>
        have hop : ¬op.toNat ≤ 1 := fun hle => (Nat.le_one_iff_eq_zero_or_eq_one.1 hle).elim h0 h1
        exact Or.inr ⟨by simp [hop], _, rfl⟩
    case h_2 hd =>
      obtain rfl := eq_seven_of_deviceOfCode hd
      exact Or.inr ⟨by simp, _, rfl⟩
  case h_3 h0 h1 =>
    have hfmt : ¬fmt.toNat ≤ 1 := fun hle => (Nat.le_one_iff_eq_zero_or_eq_one.1 hle).elim h0 h1
    exact Or.inr ⟨fun h => hfmt h.1, _, rfl⟩

/-! ### The decoder on the command word -/

theorem decode_encode (i : Instr) : decode (encode i) = .ok i := by
  obtain ⟨-, hcut⟩ := fieldsWellFormed i
  rw [decode, hcut, decodeFields_fields]

/-- A word is the command word of what it decodes to, or it is reserved and refused (R86, R87). -/
theorem decode_cases (cmd : BitVec 8) :
    (∃ i, encode i = cmd ∧ decode cmd = .ok i) ∨ (reservedWord cmd ∧ ∃ e, decode cmd = .error e) := by
  rcases decodeFields_cases (cmdFields cmd) with ⟨i, hi, hdec⟩ | ⟨hbad, herr⟩
  · exact Or.inl ⟨i, by rw [encode, hi, packFields_cmdFields], hdec⟩
  · exact Or.inr ⟨(reservedWord_iff cmd).2 hbad, herr⟩

/-- A word that decodes is the command word of what it decodes to. -/
theorem encode_of_decode {cmd : BitVec 8} {i : Instr} (h : decode cmd = .ok i) : encode i = cmd := by
  rcases decode_cases cmd with ⟨j, hj, hdec⟩ | ⟨-, e, hdec⟩ <;> cases hdec.symm.trans h
  exact hj

/-- No command word is reserved. -/
theorem not_reservedWord_encode (i : Instr) : ¬reservedWord (encode i) := by
  obtain ⟨hwf, hcut⟩ := fieldsWellFormed i
  rw [reservedWord_iff, hcut]
  exact fun h => h hwf

/-- A reserved word is refused (R87). -/
theorem decode_of_reservedWord {cmd : BitVec 8} (h : reservedWord cmd) : ∃ e, decode cmd = .error e := by
  rcases decode_cases cmd with ⟨i, rfl, -⟩ | ⟨-, herr⟩
  · exact absurd h (not_reservedWord_encode i)
  · exact herr

/-! ### The opcode map -/

/-- Every row of the map is a command and its command word (R86). -/
theorem encode_of_mem_opcodeMap : ∀ row ∈ opcodeMap, encode row.2 = row.1 := by
  decide

/-- Every command has its row in the map (R86). -/
theorem mem_opcodeMap (i : Instr) : (encode i, i) ∈ opcodeMap := by
  cases i with
  | getPage d => cases d <;> decide
  | setPage d => cases d <;> decide
  | _ => decide

/-! ### The statements on the decoder -/

/-- Settles O10: a word's fields are a command's or reserved, and no command's word is reserved. -/
theorem decodeInvertsEncode : Obligations.DecodeInvertsEncode := by
  refine ⟨decode_encode, fun cmd i => encode_of_decode, fun cmd => ⟨fun hne => ?_, fun hres i => ?_⟩⟩
  · rcases decode_cases cmd with ⟨i, hi, -⟩ | ⟨hres, -⟩
    · exact absurd hi (hne i)
    · exact hres
  · rintro rfl
    exact not_reservedWord_encode i hres

/-- Settles O8: each of the ten words is the command word of its command, or computed to be refused. -/
theorem sampleWordsDecode : Obligations.SampleWordsDecode :=
  ⟨decode_encode .tapeOut, decode_encode .diskIn, decode_encode .crIn, decode_encode .cwOut, decode_encode .lpIoc,
    decode_encode .twIn, decode_encode .ptBusy, decode_encode (.getPage .cardReader),
    decode_encode (.setPage .paperTape), rfl⟩

/-- Settles O9: the map's words are the command words of its commands, and every command has its row. -/
theorem opcodeMapIsComplete : Obligations.OpcodeMapIsComplete := by
  refine ⟨fun row hrow => ?_, fun cmd hcmd => ?_⟩
  · rw [← encode_of_mem_opcodeMap row hrow]
    exact decode_encode row.2
  · rcases decode_cases cmd with ⟨i, rfl, -⟩ | ⟨-, herr⟩
    · exact absurd (List.mem_map_of_mem (f := Prod.fst) (mem_opcodeMap i)) hcmd
    · exact herr

end Sys2Proof
end

section
/-! SUPPORT. What a reserved word does to the machine, the commands that only answer `false`, and what no command
reads: the layer under the proofs of 30_encoding.md's statements on the effects of commands, and these proofs. -/

namespace Sys2Proof.Machine

open Sys2Proof.Claims

/-! ### The latch's value and a reserved word's step -/

/-- A `FAULT` value as a number: the device in the eights, the cause in the units (R28). -/
theorem faultValue_eq_ofNat (dev : BitVec 3) (cause : FaultCause) :
    faultValue dev cause = BitVec.ofNat 8 (dev.toNat * 8 + (causeCode cause).toNat) := by
  revert dev
  cases cause <;> decide

/-- Taking a fault, with the value for an unset latch written as a number (R224). -/
theorem raiseFault_eq_faulted (dev : BitVec 3) (cause : FaultCause) (s : State) :
    raiseFault dev cause s =
      .next (faulted s (BitVec.ofNat 8 (dev.toNat * 8 + (causeCode cause).toNat)) cause) := by
  rw [← faultValue_eq_ofNat]
  rfl

/-- A word that is refused is the fault `IllegalCommand` (R225). -/
theorem step_of_decode_error {s : State} {c : Command} {rest : List Input} {e : Reserved} (hh : s.held = none)
    (hin : s.inputs = .command c :: rest) (hd : decode c.cmd = .error e) :
    step s = raiseFault (cmdDevField c.cmd) .illegalCommand (s.present c rest) :=
  step_of_other ((fetch_command hh hin).trans (fetchCommand_error hd))

/-! ### The unsupported commands -/

theorem answer_of_unsupported {i : Instr} (h : i ∈ unsupportedCommands) :
    answer i = some fun _ _ => .done false none := by
  simp only [unsupportedCommands, List.mem_cons, List.not_mem_nil, or_false] at h
  rcases h with rfl | rfl | rfl | rfl | rfl | rfl | rfl | rfl | rfl | rfl | rfl | rfl <;> rfl

/-! ### The port `MODE` -/

/-- The state with another value in the port `MODE`. -/
def State.withMode (s : State) (m : BitVec 32) : State := { s with port := { s.port with mode := m } }

/-- No precondition reads the port `MODE`. -/
theorem Transfer.fault_withMode (r : Transfer) (s : State) (m : BitVec 32) : r.fault (s.withMode m) = r.fault s := rfl

/-- The data movement of a plain transfer neither reads nor writes the port `MODE`. -/
theorem PlainTransfer.body_withMode {p : Params} {i : Instr} {r : Transfer} {body : State → State}
    (h : PlainTransfer p i r body) (s : State) (m : BitVec 32) : body (s.withMode m) = (body s).withMode m := by
  obtain ⟨hregs, hport, -, -, -, hfault, -⟩ := h.body_frame s
  calc body (s.withMode m)
      = { body s with regs := s.regs, fault := s.fault, port := { s.port with mode := m } } :=
        h.body_reads s (fun _ => rfl) s.fault m
    _ = (body s).withMode m := by rw [← hregs, ← hport, ← hfault]; rfl

/-- The typewriter's loop neither reads nor writes the port `MODE`. -/
theorem twAdvance_withMode (codes : List Code6) (s : State) (m : BitVec 32) :
    twAdvance codes (s.withMode m) = (twAdvance codes s).withMode m := by
  cases h : twScan (twChars s.params) s.codec codes s.source with
  | full cs rest =>
    rw [twAdvance_of_full h, twAdvance_of_full (s := s.withMode m) h, twFinish_eq, twFinish_eq]
    rfl
  | escape cs rest =>
    rw [twAdvance_of_escape h, twAdvance_of_escape (s := s.withMode m) h, twFinish_eq, twFinish_eq]
    rfl
  | wait cs =>
    rw [twAdvance_of_wait h, twAdvance_of_wait (s := s.withMode m) h, twHold_eq, twHold_eq]
    rfl

/-- A command presented with another `MODE` answers the same next state, with that `MODE`. -/
theorem exec_withMode {i : Instr} {s t : State} (h : exec i s = .next t) (m : BitVec 32) :
    exec i (s.withMode m) = .next (t.withMode m) := by
  rcases exec_cases i s with ⟨f, hf, e⟩ | ⟨d, rfl, e⟩ | ⟨r, body, hp, -⟩ | ⟨rfl, -⟩
  · cases e.symm.trans h
    exact exec_answer hf (s.withMode m)
  · cases e.symm.trans h
    rfl
  · cases hf : r.fault s with
    | some c =>
      cases (exec_plain_fault hp hf).symm.trans h
      exact exec_plain_fault (s := s.withMode m) hp hf
    | none =>
      cases (exec_plain_ok hp hf).symm.trans h
      rw [exec_plain_ok (s := s.withMode m) hp hf, hp.body_withMode]
      rfl
  · rcases Nat.lt_or_ge (s.port.now.toNat + s.params.typeWriter.blockSize * s.latTw) (2 ^ 64) with hlt | hle
    · cases (twIn_of_lt hlt).symm.trans h
      rw [twIn_of_lt (s := s.withMode m) hlt, twAdvance_withMode]
    · cases (twIn_of_le hle).symm.trans h
      exact twIn_of_le (s := s.withMode m) hle

/-! ### The statements on the effects of commands -/

/-- Settles O14: by the four shapes of a command. -/
theorem modePortIsNeverRead : Obligations.ModePortIsNeverRead :=
  fun _ _ _ m h => exec_withMode h m

/-- Settles O11: a reserved word is refused, and the refusal is the fault with `CMD[4:2]` in the latch. -/
theorem reservedWordRaisesIllegalCommand : Obligations.ReservedWordRaisesIllegalCommand := by
  intro s c rest hh hin hres
  obtain ⟨e, hd⟩ := decode_of_reservedWord hres
  rw [step_of_decode_error hh hin hd, raiseFault_eq_faulted, cmdDevField, cmdFields_dev_toNat]
  rfl

/-- Settles O13: each of the twelve only answers, and its answer is `false`. -/
theorem unsupportedCommandsOnlyReturnFalse : Obligations.UnsupportedCommandsOnlyReturnFalse := by
  refine ⟨rfl, by decide, fun i hi => ⟨decode_encode i, fun s => ?_⟩⟩
  exact exec_answer (answer_of_unsupported hi) s

end Sys2Proof.Machine
end

section
/-! SUPPORT. `pack` against the fields of a Word, the encoders against the sign, and the statements of
40_codec.md on them. -/

namespace Sys2Proof.Machine

/-- A field is of the magnitude: the sign is not looked at (R101). -/
@[simp] theorem field_with_sign (w : Word) (x : Sign) (k : Fin 5) : field { w with sign := x } k = field w k := rfl

/-- Packing the five fields of a Word gives the Word with the sign `POS` (R102, D11). -/
theorem pack_field (w : Word) :
    pack (field w 0) (field w 1) (field w 2) (field w 3) (field w 4) = { w with sign := .pos } :=
  word_ext_fields rfl fun k => (field_pack (field w) k).trans (field_with_sign w .pos k).symm

/-- The five fields of a packed Word, in order, are the packed codes. -/
theorem fields_pack (f0 f1 f2 f3 f4 : Code6) :
    [field (pack f0 f1 f2 f3 f4) 0, field (pack f0 f1 f2 f3 f4) 1, field (pack f0 f1 f2 f3 f4) 2,
      field (pack f0 f1 f2 f3 f4) 3, field (pack f0 f1 f2 f3 f4) 4] = [f0, f1, f2, f3, f4] :=
  congrArg List.ofFn (funext (field_pack ![f0, f1, f2, f3, f4]))

/-- The characters of a Word are those of its magnitude (R105). -/
@[simp] theorem encodeMS_with_sign (c : Codec) (w : Word) (x : Sign) :
    encodeMS c { w with sign := x } = encodeMS c w := by
  simp only [encodeMS, field_with_sign]

/-- One encoder writes the characters of the other from the last to the first (R104). -/
theorem encodeLS_eq_reverse (c : Codec) (w : Word) : encodeLS c w = (encodeMS c w).reverse := by
  simp [encodeLS, encodeMS]

/-! ### The statements on fields and encoders -/

/-- Settles O15: the fields of a packed Word are the codes packed, and the fields of a Word determine its magnitude. -/
theorem packAndFieldAreInverse : Obligations.PackAndFieldAreInverse :=
  ⟨fun f0 f1 f2 f3 f4 => ⟨fields_pack f0 f1 f2 f3 f4, rfl, pack_toNat f0 f1 f2 f3 f4⟩,
    fun w => by rw [pack_field w], field_toNat⟩

/-- Settles O16: what holds of the one encoder holds of the other, which is its reverse. -/
theorem encodersAreReversedAndSignBlind : Obligations.EncodersAreReversedAndSignBlind := by
  intro c w x
  refine ⟨encodeLS_eq_reverse c w, encodeMS_length c w, encodeMS_with_sign c w x, ?_⟩
  rw [encodeLS_eq_reverse, encodeLS_eq_reverse, encodeMS_with_sign]

end Sys2Proof.Machine
end

section
/-! SUPPORT. What a row of the table of transfers is, what a successful transfer leaves in `BUSYUNTIL`, and that no
command but `BUSY` reads it: the layer under the proofs of 41_device_base.md's statements, and these proofs. -/

namespace Sys2Proof.Machine

open Sys2Proof.Claims

/-! ### The table of the supported transfers -/

/-- A row of R122's table is a plain transfer with its device and product, or `TW.IN`. -/
theorem transferTable_cases {p : Params} {latTw : Nat} {i : Instr} {d : Device} {n : Nat}
    (h : (i, d, n) ∈ transferTable p latTw) :
    (∃ r body, PlainTransfer p i r body ∧ d = r.dev ∧ n = r.product) ∨
      (i = .twIn ∧ d = .typeWriter ∧ n = p.typeWriter.blockSize * latTw) := by
  simp only [transferTable, List.mem_cons, Prod.mk.injEq, List.not_mem_nil, or_false] at h
  rcases h with ⟨rfl, rfl, rfl⟩ | ⟨rfl, rfl, rfl⟩ | ⟨rfl, rfl, rfl⟩ | ⟨rfl, rfl, rfl⟩ | ⟨rfl, rfl, rfl⟩ |
    ⟨rfl, rfl, rfl⟩ | ⟨rfl, rfl, rfl⟩ | htw | ⟨rfl, rfl, rfl⟩
  · exact Or.inl ⟨_, _, .tapeIn, rfl, rfl⟩
  · exact Or.inl ⟨_, _, .tapeOut, rfl, rfl⟩
  · exact Or.inl ⟨_, _, .diskIn, rfl, rfl⟩
  · exact Or.inl ⟨_, _, .diskOut, rfl, rfl⟩
  · exact Or.inl ⟨_, _, .crIn, rfl, rfl⟩
  · exact Or.inl ⟨_, _, .cwOut, rfl, rfl⟩
  · exact Or.inl ⟨_, _, .lpOut, rfl, rfl⟩
  · exact Or.inr htw
  · exact Or.inl ⟨_, _, .ptOut, rfl, rfl⟩

/-- Well-formed sizes and latencies make the product of a plain transfer positive (R124). -/
theorem PlainTransfer.product_pos {p : Params} {i : Instr} {r : Transfer} {body : State → State}
    (h : PlainTransfer p i r body) (hwf : p.wellFormed = true) : 0 < r.product := by
  obtain ⟨hsize, hlat, -⟩ := (Params.wellFormed_iff p).1 hwf
  have hblock : ∀ d, 0 < p.blockSize d := fun d => (hsize d).1
  obtain ⟨tapeIn, tapeOut, diskIn, diskOut, cardIn, cardOut, print, paperTape⟩ := of_decide_eq_true hlat
  cases h with
  | tapeIn => exact Nat.mul_pos (hblock .tape) tapeIn
  | tapeOut => exact Nat.mul_pos (hblock .tape) tapeOut
  | diskIn => exact Nat.mul_pos (hblock .disk) diskIn
  | diskOut => exact Nat.mul_pos (hblock .disk) diskOut
  | crIn => exact Nat.mul_pos (hblock .cardReader) cardIn
  | cwOut => exact Nat.mul_pos (hblock .cardWriter) cardOut
  | lpOut => exact Nat.mul_pos (hblock .linePrinter) print
  | ptOut => exact Nat.mul_pos (hblock .paperTape) paperTape

/-- With well-formed parameters and `LAT_TW` positive every product of R122's table is positive (R124). -/
theorem transferTable_product_pos {p : Params} {latTw : Nat} {i : Instr} {d : Device} {n : Nat}
    (h : (i, d, n) ∈ transferTable p latTw) (hwf : p.wellFormed = true) (hlat : 0 < latTw) : 0 < n := by
  rcases transferTable_cases h with ⟨r, body, hp, -, rfl⟩ | ⟨-, -, rfl⟩
  · exact hp.product_pos hwf
  · obtain ⟨hsize, -⟩ := (Params.wellFormed_iff p).1 hwf
    exact Nat.mul_pos (hsize .typeWriter).1 hlat

/-- A successful transfer leaves in its device's `BUSYUNTIL` the time of the command plus its product, which fits
there (R122, R227). -/
theorem exec_transfer_busyUntil {i : Instr} {d : Device} {n : Nat} {s t : State}
    (hrow : (i, d, n) ∈ transferTable s.params s.latTw) (h : exec i s = .next t)
    (hresp : t.response = some (.done true none)) :
    (t.regs.get d).busyUntil.toNat = s.port.now.toNat + n := by
  rcases transferTable_cases hrow with ⟨r, body, hp, rfl, rfl⟩ | ⟨rfl, rfl, rfl⟩
  · cases hf : r.fault s with
    | some c =>
      cases (exec_plain_fault hp hf).symm.trans h
      cases hresp
    | none =>
      cases (exec_plain_ok hp hf).symm.trans h
      obtain ⟨-, -, hlt⟩ := (Transfer.fault_eq_none_iff r s).1 hf
      rw [Transfer.regsAfter_same]
      exact toNat_ofNat_of_lt hlt
  · rcases Nat.lt_or_ge (s.port.now.toNat + s.params.typeWriter.blockSize * s.latTw) (2 ^ 64) with hlt | hle
    · cases (twIn_of_lt hlt).symm.trans h
      rcases twAdvance_cases [] s with ⟨cs, rest, e⟩ | ⟨cs, -, e⟩ <;> rw [e] at hresp ⊢
      · rw [twFinish_eq, RegFile.get_set_same]
        exact toNat_ofNat_of_lt hlt
      · cases hresp
    · cases (twIn_of_le hle).symm.trans h
      cases hresp

/-! ### What the `BUSYUNTIL` registers are read for -/

/-- The state with other registers. -/
def State.withRegs (s : State) (r : RegFile) : State := { s with regs := r }

/-- The two register files differ at most in the `BUSYUNTIL` registers. -/
def SameCursors (q r : RegFile) : Prop := ∀ d, (r.get d).curPage = (q.get d).curPage

/-- Setting the same cursor keeps register files the same but for `BUSYUNTIL`. -/
theorem SameCursors.set {q r : RegFile} (h : SameCursors q r) (d : Device) {v w : DevRegs}
    (hv : w.curPage = v.curPage) : SameCursors (q.set d v) (r.set d w) := by
  intro e
  by_cases he : e = d
  · subst he
    rw [RegFile.get_set_same, RegFile.get_set_same, hv]
  · rw [RegFile.get_set_ne _ _ he, RegFile.get_set_ne _ _ he, h e]

/-- A command that only answers reads a `BUSYUNTIL` only if it is `BUSY` (R123, R124). -/
theorem answer_of_sameCursors {i : Instr} {f : RegFile → Time → Response} (h : answer i = some f)
    (hi : i ∉ busyCommands.map Prod.fst) {q r : RegFile} (hr : SameCursors q r) (now : Time) : f r now = f q now := by
  cases i <;> cases h
  case tapeBusy | diskBusy | crBusy | cwBusy | lpBusy | twBusy | ptBusy => exact absurd (by decide) hi
  case getPage d => exact congrArg (fun c => Response.done true (some c)) (hr d)
  all_goals rfl

/-- The data movement of a plain transfer reads and writes no `BUSYUNTIL` (R123). -/
theorem PlainTransfer.body_withRegs {p : Params} {i : Instr} {t : Transfer} {body : State → State}
    (h : PlainTransfer p i t body) {s : State} {r : RegFile} (hr : SameCursors s.regs r) :
    body (s.withRegs r) = (body s).withRegs r := by
  obtain ⟨-, hport, -, -, -, hfault, -⟩ := h.body_frame s
  calc body (s.withRegs r)
      = { body s with regs := r, fault := s.fault, port := s.port } := h.body_reads s hr s.fault s.port.mode
    _ = (body s).withRegs r := by rw [← hport, ← hfault]; rfl

/-- A transfer moves its cursor the same whatever the `BUSYUNTIL` registers hold (R123). -/
theorem Transfer.regsAfter_withRegs (t : Transfer) {s : State} {r : RegFile} (hr : SameCursors s.regs r) :
    SameCursors (t.regsAfter s) (t.regsAfter (s.withRegs r)) :=
  hr.set t.dev (by simp only [State.curPage, State.withRegs, hr t.dev])

/-- `TW.IN` ends the same whatever the `BUSYUNTIL` registers hold (R123). -/
theorem twFinish_withRegs (cs : List Code6) (rest : List Char8) {s : State} {r : RegFile} (hr : SameCursors s.regs r) :
    ∃ q, twFinish cs rest (s.withRegs r) = (twFinish cs rest s).withRegs q ∧
      SameCursors (twFinish cs rest s).regs q := by
  refine ⟨(twFinish cs rest (s.withRegs r)).regs, ?_, fun d => ?_⟩
  · rw [twFinish_eq, twFinish_eq]
    rfl
  · rw [twFinish_curPage, twFinish_curPage]
    exact hr d

/-- The typewriter's loop does the same whatever the `BUSYUNTIL` registers hold (R123). -/
theorem twAdvance_withRegs (codes : List Code6) {s : State} {r : RegFile} (hr : SameCursors s.regs r) :
    ∃ q, twAdvance codes (s.withRegs r) = (twAdvance codes s).withRegs q ∧
      SameCursors (twAdvance codes s).regs q := by
  cases h : twScan (twChars s.params) s.codec codes s.source with
  | full cs rest =>
    rw [twAdvance_of_full h, twAdvance_of_full (s := s.withRegs r) h]
    exact twFinish_withRegs cs rest hr
  | escape cs rest =>
    rw [twAdvance_of_escape h, twAdvance_of_escape (s := s.withRegs r) h]
    exact twFinish_withRegs _ rest hr
  | wait cs =>
    rw [twAdvance_of_wait h, twAdvance_of_wait (s := s.withRegs r) h]
    exact ⟨r, rfl, hr⟩

/-- A command but `BUSY` answers the same next state whatever the `BUSYUNTIL` registers hold, up to those it leaves. -/
theorem exec_withRegs {i : Instr} {s t : State} {r : RegFile} (hi : i ∉ busyCommands.map Prod.fst)
    (hr : SameCursors s.regs r) (h : exec i s = .next t) :
    ∃ q, exec i (s.withRegs r) = .next (t.withRegs q) ∧ SameCursors t.regs q := by
  rcases exec_cases i s with ⟨f, hf, e⟩ | ⟨d, rfl, e⟩ | ⟨tr, body, hp, -⟩ | ⟨rfl, -⟩
  · cases e.symm.trans h
    rw [← answer_of_sameCursors hf hi hr]
    exact ⟨r, exec_answer hf (s.withRegs r), hr⟩
  · cases e.symm.trans h
    exact ⟨r.set d { r.get d with curPage := s.port.page }, rfl, hr.set d rfl⟩
  · have hfault : tr.fault (s.withRegs r) = tr.fault s := tr.fault_regs s hr
    cases hf : tr.fault s with
    | some c =>
      cases (exec_plain_fault hp hf).symm.trans h
      exact ⟨r, exec_plain_fault (s := s.withRegs r) hp (hfault.trans hf), hr⟩
    | none =>
      cases (exec_plain_ok hp hf).symm.trans h
      refine ⟨tr.regsAfter (s.withRegs r), ?_, tr.regsAfter_withRegs hr⟩
      rw [exec_plain_ok (s := s.withRegs r) hp (hfault.trans hf), hp.body_withRegs hr]
      rfl
  · rcases Nat.lt_or_ge (s.port.now.toNat + s.params.typeWriter.blockSize * s.latTw) (2 ^ 64) with hlt | hle
    · cases (twIn_of_lt hlt).symm.trans h
      obtain ⟨q, e, hq⟩ := twAdvance_withRegs [] hr
      exact ⟨q, (twIn_of_lt (s := s.withRegs r) hlt).trans (congrArg _ e), hq⟩
    · cases (twIn_of_le hle).symm.trans h
      exact ⟨r, twIn_of_le (s := s.withRegs r) hle, hr⟩

/-! ### The statements of 41_device_base.md -/

/-- Settles O17: what a successful transfer leaves, and R8's defaults are computed. -/
theorem successfulTransferSetsBusyUntil : Obligations.SuccessfulTransferSetsBusyUntil :=
  ⟨fun _ _ _ _ _ => exec_transfer_busyUntil, fun _ => rfl⟩

/-- Settles O18: `BUSY` compares its time with the `BUSYUNTIL` the transfer has left. -/
theorem busyLastsExactlyTheProduct : Obligations.BusyLastsExactlyTheProduct := by
  intro i j d p s t n hwf hlat hrow hj h hresp _
  refine ⟨transferTable_product_pos hrow hwf hlat, ?_⟩
  rw [exec_answer (answer_of_busyCommand hj), busyFlag, exec_transfer_busyUntil hrow h hresp]

/-- Settles O19: the two runs leave the same cursors, and a successful transfer leaves its own `BUSYUNTIL` in both. -/
theorem commandsIgnoreTheBusyFlag : Obligations.CommandsIgnoreTheBusyFlag := by
  intro i s t r hi hr h
  obtain ⟨q, e, hq⟩ := exec_withRegs hi hr h
  refine ⟨q, e, hq, fun d p hrow hresp => ?_⟩
  have hbusy : (q.get d).busyUntil = (t.regs.get d).busyUntil := BitVec.eq_of_toNat_eq <|
    (exec_transfer_busyUntil (s := s.withRegs r) hrow e hresp).trans (exec_transfer_busyUntil hrow h hresp).symm
  exact congrArg₂ DevRegs.mk (hq d) hbusy

/-- Settles O12: a word that decodes is run on the state in which it has been presented. -/
theorem stepRunsTheDecodedCommand : Obligations.StepRunsTheDecodedCommand :=
  fun _ _ _ _ hh hin hd => step_of_run ((fetch_command hh hin).trans (fetchCommand_ok hd))

/-- Settles O21: `GETPAGE` only answers. -/
theorem getPageAnswersTheCursor : Obligations.GetPageAnswersTheCursor :=
  fun d s => exec_answer (i := .getPage d) rfl s

/-- Settles O22: `SETPAGE` sets the registers of its device, with `BUSYUNTIL` as it was. -/
theorem setPageWritesTheCursorAlone : Obligations.SetPageWritesTheCursorAlone := by
  intro d s
  refine ⟨s.regs.set d { s.regs.get d with curPage := s.port.page }, rfl, ?_, ?_, onlyDevice_set d s.regs _⟩
  · rw [RegFile.get_set_same]
  · rw [RegFile.get_set_same]

end Sys2Proof.Machine
end

section
/-! SUPPORT. How a transfer with a page check faults and what registers it leaves, and what a reset of a medium does
whose store holds its mirror: the layer under the proofs of 42_tape_disk.md's statements, and these proofs. -/

namespace Sys2Proof.Machine

open Sys2Proof.Claims

/-! ### The registers a completed transfer leaves -/

/-- A completed transfer with a positive product leaves its device busy for that long, and no other device's
registers changed (R122, R123, R124). -/
theorem Transfer.regsAfter_timing {r : Transfer} {s : State} (hf : r.fault s = none) (hpos : 0 < r.product) :
    ((r.regsAfter s).get r.dev).busyUntil.toNat = s.port.now.toNat + r.product ∧
      busyFlag s.port.now ((r.regsAfter s).get r.dev).busyUntil = true ∧ OnlyDevice r.dev s.regs (r.regsAfter s) := by
  have htime : ((r.regsAfter s).get r.dev).busyUntil.toNat = s.port.now.toNat + r.product := by
    obtain ⟨-, -, hlt⟩ := (Transfer.fault_eq_none_iff r s).1 hf
    rw [Transfer.regsAfter_same]
    exact toNat_ofNat_of_lt hlt
  exact ⟨htime, decide_eq_true (by omega), onlyDevice_set r.dev s.regs _⟩

/-- A transfer that advances leaves its cursor one further (R128 (6)). -/
theorem Transfer.regsAfter_curPage_advances {r : Transfer} {s : State} (hf : r.fault s = none)
    (ha : r.advances = true) :
    ((r.regsAfter s).get r.dev).curPage.toNat = (s.regs.get r.dev).curPage.toNat + 1 := by
  obtain ⟨-, hlt, -⟩ := (Transfer.fault_eq_none_iff r s).1 hf
  rw [Transfer.regsAfter_same, if_pos ha]
  exact toNat_ofNat_of_lt (hlt ha)

/-- A transfer that does not advance leaves its cursor. -/
theorem Transfer.regsAfter_curPage_stays {r : Transfer} (s : State) (ha : r.advances = false) :
    ((r.regsAfter s).get r.dev).curPage = (s.regs.get r.dev).curPage := by
  rw [Transfer.regsAfter_same, ha]
  rfl

/-! ### The preconditions of a transfer with a page check -/

/-- A page count of Tape or Disk is below 2^32, so a cursor in range can advance (R147, D2). -/
theorem PlainTransfer.cursor_advances {p : Params} {i : Instr} {r : Transfer} {body : State → State}
    (h : PlainTransfer p i r body) (hcheck : r.pageCheck = true) (hwf : p.wellFormed = true) {c : Nat}
    (hc : c < p.numBlocks r.dev) : c + 1 < 2 ^ 32 := by
  obtain ⟨-, -, htape, hdisk, -⟩ := (Params.wellFormed_iff p).1 hwf
  cases h with
  | tapeIn | tapeOut => exact lt_of_le_of_lt hc htape
  | diskIn | diskOut => exact lt_of_le_of_lt hc hdisk
  | _ => cases hcheck

section

variable {s : State} {i : Instr} {r : Transfer} {body : State → State} (h : PlainTransfer s.params i r body)
  (hcheck : r.pageCheck = true)
include h hcheck

/-- A cursor out of range is the fault `PageRange` (R147). -/
theorem PlainTransfer.exec_pageRange (hpage : s.params.numBlocks r.dev ≤ (s.regs.get r.dev).curPage.toNat) :
    exec i s = .next (faulted s (BitVec.ofNat 8 (r.dev.code.toNat * 8 + 2)) .pageRange) := by
  rw [exec_plain h, Transfer.run_of_some body (Transfer.fault_pageRange hcheck hpage), raiseFault_eq_faulted]
  rfl

variable (hwf : s.params.wellFormed = true) (hpage : (s.regs.get r.dev).curPage.toNat < s.params.numBlocks r.dev)
include hwf hpage

/-- A cursor in range and a busy time that does not fit is the fault `TimeOverflow` (R227). -/
theorem PlainTransfer.exec_timeOverflow (htime : 2 ^ 64 ≤ s.port.now.toNat + r.product) :
    exec i s = .next (faulted s (BitVec.ofNat 8 (r.dev.code.toNat * 8 + 4)) .timeOverflow) := by
  have hadv : r.advances = true → (s.regs.get r.dev).curPage.toNat + 1 < 2 ^ 32 := fun _ =>
    h.cursor_advances hcheck hwf hpage
  rw [exec_plain h, Transfer.run_of_some body (Transfer.fault_timeOverflow (fun _ => hpage) hadv htime),
    raiseFault_eq_faulted]
  rfl

/-- A cursor in range and a busy time that fits are all a transfer with a page check asks. -/
theorem PlainTransfer.fault_eq_none (htime : s.port.now.toNat + r.product < 2 ^ 64) : r.fault s = none :=
  (Transfer.fault_eq_none_iff r s).2 ⟨fun _ => hpage, fun _ => h.cursor_advances hcheck hwf hpage, htime⟩

end

/-! ### The four transfers of Tape and Disk -/

/-- `TAPE.IN` with the sizes and constants the machine has (R140). -/
theorem State.Inv.tapeIn {s : State} (hi : s.Inv) {p : Params} (hp : s.params = p) :
    TapeIn s p.tape.blockSize p.tape.numBlocks (p.tape.blockSize * p.lat.tapeIn) := by
  subst hp
  have h : PlainTransfer s.params .tapeIn (tapeInRule s.params) (pageToBuf .tape) := .tapeIn
  refine ⟨h.exec_pageRange rfl, h.exec_timeOverflow rfl hi.params, fun hpage htime => ?_⟩
  have hf := h.fault_eq_none rfl hi.params hpage htime
  exact ⟨_, _, exec_ok_of_buf h hf (pageToBuf_tape_eq s),
    read_pageIn hi.buf (blockSize_le_bufWords s.params (d := .tape) nofun) s.tapeData _,
    Transfer.regsAfter_curPage_advances hf rfl, Transfer.regsAfter_timing hf (h.product_pos hi.params)⟩

/-- `TAPE.OUT` with the sizes and constants the machine has (R141). -/
theorem State.Inv.tapeOut {s : State} (hi : s.Inv) {p : Params} (hp : s.params = p) :
    TapeOut s p.tape.blockSize p.tape.numBlocks (p.tape.blockSize * p.lat.tapeOut) := by
  subst hp
  have h : PlainTransfer s.params .tapeOut (tapeOutRule s.params) (pageOut .tape) := .tapeOut
  refine ⟨h.exec_pageRange rfl, h.exec_timeOverflow rfl hi.params, fun hpage htime => ?_⟩
  have hf := h.fault_eq_none rfl hi.params hpage htime
  exact ⟨_, _, exec_ok_of_tape h hf (pageOut_tape_eq s), read_pageOut hi.tapeData (page_in_mirror hpage) s.buf,
    Transfer.regsAfter_curPage_advances hf rfl, Transfer.regsAfter_timing hf (h.product_pos hi.params)⟩

/-- `DISK.IN` with the sizes and constants the machine has (R144). -/
theorem State.Inv.diskIn {s : State} (hi : s.Inv) {p : Params} (hp : s.params = p) :
    DiskIn s p.disk.blockSize p.disk.numBlocks (p.disk.blockSize * p.lat.diskIn) := by
  subst hp
  have h : PlainTransfer s.params .diskIn (diskInRule s.params) (pageToBuf .disk) := .diskIn
  refine ⟨h.exec_pageRange rfl, h.exec_timeOverflow rfl hi.params, fun hpage htime => ?_⟩
  have hf := h.fault_eq_none rfl hi.params hpage htime
  exact ⟨_, _, exec_ok_of_buf h hf (pageToBuf_disk_eq s),
    read_pageIn hi.buf (blockSize_le_bufWords s.params (d := .disk) nofun) s.diskData _,
    Transfer.regsAfter_curPage_stays s rfl, Transfer.regsAfter_timing hf (h.product_pos hi.params)⟩

/-- `DISK.OUT` with the sizes and constants the machine has (R145). -/
theorem State.Inv.diskOut {s : State} (hi : s.Inv) {p : Params} (hp : s.params = p) :
    DiskOut s p.disk.blockSize p.disk.numBlocks (p.disk.blockSize * p.lat.diskOut) := by
  subst hp
  have h : PlainTransfer s.params .diskOut (diskOutRule s.params) (pageOut .disk) := .diskOut
  refine ⟨h.exec_pageRange rfl, h.exec_timeOverflow rfl hi.params, fun hpage htime => ?_⟩
  have hf := h.fault_eq_none rfl hi.params hpage htime
  exact ⟨_, _, exec_ok_of_disk h hf (pageOut_disk_eq s), read_pageOut hi.diskData (page_in_mirror hpage) s.buf,
    Transfer.regsAfter_curPage_stays s rfl, Transfer.regsAfter_timing hf (h.product_pos hi.params)⟩

/-- `TAPE.OUT` at page 0 puts the caller buffer's Words at the mirror's beginning. -/
theorem State.Inv.exec_tapeOut_page_zero {s : State} (hi : s.Inv) (hcur : (s.regs.get .tape).curPage = 0#32)
    (htime : s.port.now.toNat + s.params.tape.blockSize * s.params.lat.tapeOut < 2 ^ 64) :
    ∃ t, exec .tapeOut s = .next t ∧ t.response = some (.done true none) ∧
      ∀ a, a < s.params.tape.blockSize → Memory.read t.tapeData a = Memory.read s.buf a := by
  obtain ⟨hsize, -⟩ := (Params.wellFormed_iff s.params).1 hi.params
  have hzero : (s.regs.get .tape).curPage.toNat = 0 := congrArg BitVec.toNat hcur
  obtain ⟨-, -, hrun⟩ := hi.tapeOut rfl
  obtain ⟨x, r, hexec, hx, -⟩ := hrun (hzero ▸ (hsize .tape).2) htime
  refine ⟨_, hexec, rfl, fun a ha => (hx a).trans ?_⟩
  rw [hzero, if_pos (by omega), Nat.zero_mul, Nat.sub_zero]

/-- `TAPE.IN` at page 0 puts the Words at the mirror's beginning in the caller buffer and moves on to page 1. -/
theorem State.Inv.exec_tapeIn_page_zero {s : State} (hi : s.Inv) (hcur : (s.regs.get .tape).curPage = 0#32)
    (htime : s.port.now.toNat + s.params.tape.blockSize * s.params.lat.tapeIn < 2 ^ 64) :
    ∃ t, exec .tapeIn s = .next t ∧ t.response = some (.done true none) ∧
      (∀ a, a < s.params.tape.blockSize → Memory.read t.buf a = Memory.read s.tapeData a) ∧
      (t.regs.get .tape).curPage = 1#32 := by
  obtain ⟨hsize, -⟩ := (Params.wellFormed_iff s.params).1 hi.params
  have hzero : (s.regs.get .tape).curPage.toNat = 0 := congrArg BitVec.toNat hcur
  obtain ⟨-, -, hrun⟩ := hi.tapeIn rfl
  obtain ⟨b, r, hexec, hb, hnext, -⟩ := hrun (hzero ▸ (hsize .tape).2) htime
  refine ⟨_, hexec, rfl, fun a ha => (hb a).trans ?_, BitVec.eq_of_toNat_eq (hnext.trans (by rw [hzero]; rfl))⟩
  simp only [if_pos ha, hzero, Nat.zero_mul, Nat.zero_add]

/-! ### The steps of the scenario: a command, a fresh instance, a buffer given -/

/-- A word that decodes to a command is the command's own step (R120). -/
theorem step_of_exec {s t : State} {c : Command} {rest : List Input} {i : Instr}
    (he : exec i (s.present c rest) = .next t) (hh : s.held = none) (hin : s.inputs = .command c :: rest)
    (hd : decode c.cmd = .ok i) : step s = .next t :=
  (stepRunsTheDecodedCommand s c rest i hh hin hd).trans he

/-- A successful `out` of a medium that is writable leaves a store that holds the mirror (R141, R145). -/
theorem exec_mediumOut_saves {m : Medium} {s t : State} (h : exec (mediumOut m) s = .next t)
    (hresp : t.response = some (.done true none)) (hw : s.port.writable = true) : t.store m = some (t.mirror m) := by
  obtain ⟨r, hp⟩ : ∃ r, PlainTransfer s.params (mediumOut m) r (pageOut m) := by
    cases m
    · exact ⟨_, .tapeOut⟩
    · exact ⟨_, .diskOut⟩
  cases hf : r.fault s with
  | some c =>
    cases (exec_plain_fault hp hf).symm.trans h
    cases hresp
  | none =>
    cases (exec_plain_ok hp hf).symm.trans h
    cases m
    · rw [pageOut_tape_eq, hw]; rfl
    · rw [pageOut_disk_eq, hw]; rfl

/-- A medium constructed anew on a readable store that holds its mirror loads that mirror, so that only its registers
change (R261, R151). -/
theorem step_resetMedium_of_saved {m : Medium} {t : State} {rest : List Input} (hh : t.held = none)
    (hin : t.inputs = .host (.resetDevice m.device true) :: rest) (hst : t.store m = some (t.mirror m)) :
    step t = .next { t with inputs := rest, regs := t.regs.set m.device DevRegs.reset } := by
  refine (step_of_other (fetch_host hh hin)).trans (congrArg Host.Outcome.next ?_)
  rw [resetDevice_eq]
  cases m with
  | tape =>
    have hload : t.tapeStore.getD [] = t.tapeData := congrArg (Option.getD · []) hst
    simp [State.storeLoad, hload]
  | disk =>
    have hload : t.diskStore.getD [] = t.diskData := congrArg (Option.getD · []) hst
    simp [State.storeLoad, hload]

/-- A buffer given that fits is the whole effect of the step (R52). -/
theorem step_supply_of_fit {s : State} {cells : Memory} {rest : List Input} (hh : s.held = none)
    (hin : s.inputs = .supplyBuffer cells :: rest) (hfit : ∀ x ∈ cells, x.1 < bufWords s.params) :
    step s = .next { s with inputs := rest, buf := memOfCells cells } :=
  (step_of_other (fetch_supply hh hin)).trans (supply_of_fit { s with inputs := rest } hfit)

/-! ### The command words of `BUSY` -/

/-- The command word of `BUSY` has `OP` = 3 and the number of its device in `DEV` (R82, R83). -/
theorem encode_of_mem_busyCommands : ∀ j ∈ busyCommands, encode j.1 = BitVec.ofNat 8 (4 * j.2.code.toNat + 3) := by
  decide

/-! ### The statements of 42_tape_disk.md -/

/-- Settles O23: the page's Words go to the buffer, and R8's defaults are computed. -/
theorem tapeInCopiesThePageAndAdvances : Obligations.TapeInCopiesThePageAndAdvances :=
  fun _ hi => ⟨hi.tapeIn rfl, hi.tapeIn⟩

/-- Settles O24: the buffer's Words go to the page, and R8's defaults are computed. -/
theorem tapeOutWritesPageAndStoreAndAdvances : Obligations.TapeOutWritesPageAndStoreAndAdvances :=
  fun _ hi => ⟨hi.tapeOut rfl, hi.tapeOut⟩

/-- Settles O25: as the Tape's, by a transfer that does not advance. -/
theorem diskInCopiesThePageAndStays : Obligations.DiskInCopiesThePageAndStays :=
  fun _ hi => ⟨hi.diskIn rfl, hi.diskIn⟩

/-- Settles O26: as the Tape's, by a transfer that does not advance. -/
theorem diskOutWritesPageAndStoreAndStays : Obligations.DiskOutWritesPageAndStoreAndStays :=
  fun _ hi => ⟨hi.diskOut rfl, hi.diskOut⟩

/-- Settles O27: the `out` saves its mirror, and the reset loads what is saved. -/
theorem freshInstanceHasTheOldMirror : Obligations.FreshInstanceHasTheOldMirror := by
  intro m s t rest h hresp hw hh hin
  exact ⟨_, step_resetMedium_of_saved hh hin (exec_mediumOut_saves h hresp hw), by cases m <;> rfl,
    by cases m <;> rfl, RegFile.get_set_same _ _ _⟩

/-- Settles O28: `TAPE.OUT` saves page 0, the reset loads what is saved, and `TAPE.IN` reads page 0. -/
theorem tapeScenarioReturnsTheOriginalWords : Obligations.TapeScenarioReturnsTheOriginalWords := by
  intro s c c' cells rest hi hh hin hc hc' hw hcur htime htime' hfit
  have hdecode : decode c.cmd = .ok .tapeOut := hc ▸ decode_encode .tapeOut
  have hdecode' : decode c'.cmd = .ok .tapeIn := hc' ▸ decode_encode .tapeIn
  obtain ⟨t, hout, hresp, hpage⟩ := (hi.present hh c _).exec_tapeOut_page_zero hcur htime
  have hframe := exec_touchesOnly hout
  have hheld : t.held = none := (hframe.source nofun).2.trans hh
  have hparams : t.params = s.params := hframe.params
  have h₁ := step_of_exec hout hh hin hdecode
  have h₂ := step_resetMedium_of_saved (m := .tape) hheld hframe.inputs (exec_mediumOut_saves (m := .tape) hout hresp hw)
  have hi₂ := everyStepKeepsTheInvariant _ _ (everyStepKeepsTheInvariant _ _ hi h₁) h₂
  have h₃ := step_supply_of_fit (rest := .command c' :: rest)
    (s := { t with inputs := .supplyBuffer cells :: .command c' :: rest, regs := t.regs.set .tape DevRegs.reset })
    hheld rfl (hparams ▸ hfit)
  have hi₃ := everyStepKeepsTheInvariant _ _ hi₂ h₃
  obtain ⟨u, hread, hresp', hbuf, hcur'⟩ := (hi₃.present hheld c' rest).exec_tapeIn_page_zero rfl (hparams ▸ htime')
  have h₄ := step_of_exec hread hheld rfl hdecode'
  refine ⟨u, ?_, fun a ha => ?_, hcur', hresp', (exec_touchesOnly hread).inputs⟩
  · exact (run_step core h₁).trans <| (run_step core h₂).trans <| (run_step core h₃).trans (run_step core h₄)
  · exact (hbuf a (hparams ▸ ha)).trans (hpage a ha)

/-- Settles O20: the word is the command's own, and the command answers whether its device is busy. -/
theorem busyComparesNowWithBusyUntil : Obligations.BusyComparesNowWithBusyUntil := by
  intro j hj
  exact ⟨encode_of_mem_busyCommands j hj ▸ decode_encode j.1, exec_answer (answer_of_busyCommand hj)⟩

end Sys2Proof.Machine
end

section
/-! SUPPORT. How a transfer without a page check faults, what `CR.IN` leaves in the caller buffer and what `CW.OUT`
leaves in the record stores: the layer under the proofs of 43_card.md's statements, and these proofs. -/

namespace Sys2Proof.Machine

open Sys2Proof.Claims

/-! ### The preconditions of a transfer without a page check -/

/-- A precondition that fails is its fault, with the value for an unset latch written as a number (R224). -/
theorem PlainTransfer.exec_of_fault {s : State} {i : Instr} {r : Transfer} {body : State → State} {c : FaultCause}
    (h : PlainTransfer s.params i r body) (hf : r.fault s = some c) :
    exec i s = .next (faulted s (BitVec.ofNat 8 (r.dev.code.toNat * 8 + (causeCode c).toNat)) c) := by
  rw [exec_plain h, Transfer.run_of_some body hf, raiseFault_eq_faulted]

section

variable {r : Transfer} {s : State} (hcheck : r.pageCheck = false)
include hcheck

/-- A cursor that cannot advance is the fault `CursorOverflow` (R226). -/
theorem Transfer.fault_cursorOverflow_unchecked (ha : r.advances = true)
    (hcur : (s.regs.get r.dev).curPage.toNat = 2 ^ 32 - 1) : r.fault s = some .cursorOverflow :=
  Transfer.fault_cursorOverflow (fun h => absurd (hcheck.symm.trans h) nofun) ha
    (by rw [State.curPage_eq, hcur]; decide)

variable (hadv : r.advances = true → (s.regs.get r.dev).curPage.toNat < 2 ^ 32 - 1)
include hadv

/-- A busy time that does not fit is the fault `TimeOverflow` where the cursor can advance (R227). -/
theorem Transfer.fault_timeOverflow_unchecked (htime : 2 ^ 64 ≤ s.port.now.toNat + r.product) :
    r.fault s = some .timeOverflow :=
  Transfer.fault_timeOverflow (fun h => absurd (hcheck.symm.trans h) nofun) (fun h => Nat.add_lt_of_lt_sub (hadv h))
    htime

/-- A cursor that can advance and a busy time that fits are all a transfer without a page check asks. -/
theorem Transfer.fault_eq_none_unchecked (htime : s.port.now.toNat + r.product < 2 ^ 64) : r.fault s = none :=
  (Transfer.fault_eq_none_iff r s).2
    ⟨fun h => absurd (hcheck.symm.trans h) nofun, fun h => Nat.add_lt_of_lt_sub (hadv h), htime⟩

end

/-! ### The card read -/

/-- No record is read where it is absent or unreadable (R222). -/
theorem State.recRead_eq_none {s : State} {p : PageNo} {readable : Bool}
    (h : readable = false ∨ RecMap.find s.cards.reader p.toNat = none) : s.recRead p readable = none := by
  rcases h with rfl | h
  · rfl
  · rw [State.recRead, h, ite_self]

/-- Without a record `CR.IN` leaves the caller buffer (R160, D15). -/
theorem readCard_buf_of_absent {s : State}
    (h : s.port.readable = false ∨ RecMap.find s.cards.reader (s.regs.get .cardReader).curPage.toNat = none) :
    (readCard s).buf = s.buf :=
  congrArg State.buf (readCard_of_none (State.recRead_eq_none h))

/-- With a record `CR.IN` puts its Words in the caller buffer (R160). -/
theorem read_readCard {s : State} {rec : List Char8} (hbuf : Memory.wf (bufWords s.params) s.buf)
    (hr : s.port.readable = true)
    (hrec : RecMap.find s.cards.reader (s.regs.get .cardReader).curPage.toNat = some rec) (j : Nat) :
    Memory.read (readCard s).buf j =
      if j < s.params.cardReader.blockSize then cardWord s.codec rec (5 * j + j / 4) else Memory.read s.buf j := by
  have hread : s.recRead (s.curPage .cardReader) s.readable = some rec := (if_pos hr).trans hrec
  rw [readCard_of_some hread]
  exact read_card hbuf (blockSize_le_bufWords s.params (d := .cardReader) nofun) s.codec rec j

/-- `CR.IN` with the sizes and constants the machine has (R160). -/
theorem cardIn_of_wf {s : State} (hwf : s.params.wellFormed = true) (hbuf : Memory.wf (bufWords s.params) s.buf)
    {p : Params} (hp : s.params = p) : CardIn s p.cardReader.blockSize (p.cardReader.blockSize * p.lat.cardIn) := by
  subst hp
  have h : PlainTransfer s.params .crIn (cardInRule s.params) readCard := .crIn
  refine ⟨fun hcur => h.exec_of_fault (Transfer.fault_cursorOverflow_unchecked rfl rfl hcur),
    fun hcur htime => h.exec_of_fault (Transfer.fault_timeOverflow_unchecked rfl (fun _ => hcur) htime),
    fun hcur htime => ?_⟩
  have hf : (cardInRule s.params).fault s = none := Transfer.fault_eq_none_unchecked rfl (fun _ => hcur) htime
  refine ⟨_, _, exec_ok_of_buf h hf (readCard_eq s), readCard_buf_of_absent,
    fun rec hr hrec => ⟨fun j hj => ?_, fun a ha => ?_⟩,
    Transfer.regsAfter_curPage_advances hf rfl, Transfer.regsAfter_timing hf (h.product_pos hwf)⟩
  · rw [read_readCard hbuf hr hrec, if_pos hj]
    exact ⟨rfl, cardWord_field s.codec rec (5 * j + j / 4)⟩
  · rw [read_readCard hbuf hr hrec, if_neg (Nat.not_lt.2 ha)]

/-! ### The card punched -/

/-- `CW.OUT` changes the record stores at most. -/
theorem punchCard_eq_cards (s : State) : punchCard s = { s with cards := (punchCard s).cards } := by
  rw [punchCard_eq]

theorem punchCard_cards_of_not_writable {s : State} (hw : s.port.writable = false) : (punchCard s).cards = s.cards := by
  rw [punchCard_eq, hw]
  rfl

theorem punchCard_cards_of_writable {s : State} (hw : s.port.writable = true) :
    (punchCard s).cards = s.cards.setWriter
      (RecMap.put s.cards.writer (s.curPage .cardWriter).toNat (cardRecord s.params s.codec s.buf)) := by
  rw [punchCard_eq, hw]
  rfl

/-- `CW.OUT` replaces the writer's map at most: the reader's own map stays, and one map for both stays one (R56). -/
theorem punchCard_cards_eq_setWriter (s : State) :
    (punchCard s).cards = s.cards.setWriter (punchCard s).cards.writer := by
  cases hw : s.port.writable with
  | false => rw [punchCard_cards_of_not_writable hw]; cases s.cards <;> rfl
  | true => rw [punchCard_cards_of_writable hw, CardStores.writer_setWriter]

/-- The writer's map holds the record punched at the cursor and every other record as before (R165). -/
theorem find_punchCard {s : State} (hw : s.port.writable = true) (p : Nat) :
    RecMap.find (punchCard s).cards.writer p =
      if p = (s.regs.get .cardWriter).curPage.toNat then some (cardRecord s.params s.codec s.buf)
      else RecMap.find s.cards.writer p := by
  rw [punchCard_cards_of_writable hw, CardStores.writer_setWriter, RecMap.find_put]
  rfl

/-- `CW.OUT` with the sizes and constants the machine has (R165, R168). -/
theorem cardOut_of_wf {s : State} (hwf : s.params.wellFormed = true) {p : Params} (hp : s.params = p) :
    CardOut s p.cardWriter.blockSize (5 * p.cardWriter.blockSize + (p.cardWriter.blockSize - 1) / 4)
      (p.cardWriter.blockSize * p.lat.cardOut) := by
  subst hp
  have h : PlainTransfer s.params .cwOut (cardOutRule s.params) punchCard := .cwOut
  obtain ⟨-, -, -, -, hone⟩ := (Params.wellFormed_iff s.params).1 hwf
  have himage := cardRecord_eq hone s.codec s.buf
  refine ⟨fun htime => h.exec_of_fault (Transfer.fault_timeOverflow_unchecked rfl nofun htime), fun htime => ?_⟩
  have hf : (cardOutRule s.params).fault s = none := Transfer.fault_eq_none_unchecked rfl nofun htime
  refine ⟨_, _, cardRecord s.params s.codec s.buf, exec_ok_of_cards h hf (punchCard_eq_cards s), ?_,
    fun j h0 hj h4 => ?_, fun j hj k => ?_, punchCard_cards_of_not_writable, find_punchCard,
    fun _ _ hc => (punchCard_cards_eq_setWriter s).trans (congrArg (CardStores.setWriter · _) hc),
    fun _ hc => (punchCard_cards_eq_setWriter s).trans (congrArg (CardStores.setWriter · _) hc),
    Transfer.regsAfter_curPage_stays s rfl, Transfer.regsAfter_timing hf (h.product_pos hwf)⟩
  · rw [himage, cardImage_length]
  · rw [himage, cardImage_newline s.codec s.buf hj h4 h0]
  · rw [himage, cardImage_char s.codec s.buf hj k]

/-! ### The statements of 43_card.md -/

/-- Settles O29: the record's Words go to the buffer, and R8's defaults are computed. -/
theorem cardReaderDecodesTheRecord : Obligations.CardReaderDecodesTheRecord :=
  fun _ hi => ⟨cardIn_of_wf hi.params hi.buf rfl, cardIn_of_wf hi.params hi.buf⟩

/-- Settles O30: the buffer's characters go to the record, and R8's defaults are computed. -/
theorem cardWriterPunchesTheRecord : Obligations.CardWriterPunchesTheRecord :=
  fun _ hwf => ⟨cardOut_of_wf hwf rfl, cardOut_of_wf hwf⟩

/-- Settles O31: the record `CW.OUT` leaves at the common cursor is the one `CR.IN` finds there, and character
`c(j, k)` stands where the reader looks for field `k` of Word `j`. -/
theorem cardRoundTrip : Obligations.CardRoundTrip := by
  intro s recs hwf hshared hcursors hcur hw htime
  obtain ⟨-, hout⟩ := cardOut_of_wf hwf rfl
  obtain ⟨cards, r, bs, hexec, -, -, hchar, -, hfind, -, hone, -, -, -, honly⟩ := hout htime
  refine ⟨_, hexec, fun b c hb hr htime' => ?_⟩
  have hreader : r.get .cardReader = s.regs.get .cardReader := honly .cardReader nofun
  have hrec : RecMap.find cards.reader (r.get .cardReader).curPage.toNat = some bs := by
    rw [hone recs hshared, hreader, hcursors]
    exact (hfind hw _).trans (if_pos rfl)
  obtain ⟨-, -, hin⟩ := cardIn_of_wf
    (s := { s with cards := cards, regs := r, response := some (.done true none), buf := b, port := c }) hwf hb rfl
  obtain ⟨b', r', hexec', -, hwords, -⟩ := hin (by rw [hreader, hcursors]; exact hcur) htime'
  obtain ⟨hdecoded, -⟩ := hwords bs hr hrec
  refine ⟨_, hexec', rfl, fun j hj hj' => ?_⟩
  obtain ⟨hsign, hfield⟩ := hdecoded j hj
  have hback : ∀ k : Fin 5, field (Memory.read b' j) k =
      (toVal s.codec (toChar s.codec (field (Memory.read s.buf j) k))).getD s.codec.space := fun k => by
    rw [hfield k, hchar j hj' k]
  refine ⟨hsign, hback, fun hinv hpos => word_ext_fields (hsign.trans hpos.symm) fun k => ?_⟩
  rw [hback k, hinv, Option.getD_some]

end Sys2Proof.Machine
end

section
/-! SUPPORT. How the typewriter's loop ends on a source that holds enough, and what its Words are then: the layer
under the proofs of 44_console.md's statements, and these proofs. -/

namespace Sys2Proof.Machine

open Sys2Proof.Claims

/-! ### The print line -/

/-- `LP.OUT` with the sizes and constants the machine has (R181, R184). -/
theorem print_of_wf {s : State} (hwf : s.params.wellFormed = true) {p : Params} (hp : s.params = p) :
    Print s p.linePrinter.blockSize (5 * p.linePrinter.blockSize) (p.linePrinter.blockSize * p.lat.print) := by
  subst hp
  have h : PlainTransfer s.params .lpOut (printRule s.params) printBuf := .lpOut
  refine ⟨fun htime => h.exec_of_fault (Transfer.fault_timeOverflow_unchecked rfl nofun htime), fun htime => ?_⟩
  have hf : (printRule s.params).fault s = none := Transfer.fault_eq_none_unchecked rfl nofun htime
  exact ⟨_, _, exec_ok_of_sink h hf (printBuf_eq s), printLine_length s.params s.codec s.buf,
    printLine_last s.params s.codec s.buf, fun _ hj => printLine_char s.params s.codec s.buf hj,
    Transfer.regsAfter_curPage_stays s rfl, Transfer.regsAfter_timing hf (h.product_pos hwf)⟩

/-! ### The typewriter's loop on a source that holds enough -/

section

variable {n : Nat} {c : Codec} {pre : List Char8} {vals : List Code6} (h : pre.map (toVal c) = vals.map some)
include h

/-- As many bytes with codes as a block takes end the loop with these codes (R186). -/
theorem twScan_full_of_codes (hn : pre.length = n) (post : List Char8) :
    twScan n c [] (pre ++ post) = .full vals post := by
  have hlen : pre.length = vals.length := by simpa using congrArg List.length h
  exact (twScan_append h [] post (by simp [hn])).trans (twScan_full c vals post (by omega))

/-- A byte without a code after fewer ends the loop as an escape (R186). -/
theorem twScan_escape_of_codes (hn : pre.length < n) {esc : Char8} (hesc : toVal c esc = none) (post : List Char8) :
    twScan n c [] (pre ++ esc :: post) = .escape vals post := by
  have hlen : pre.length = vals.length := by simpa using congrArg List.length h
  exact (twScan_append h [] (esc :: post) (by simp [hn.le])).trans (twScan_escape vals post hesc (by omega))

end

/-- A Word made of its codes is the one `TW.IN` assembles from them (R107, R186). -/
theorem read_of_packedWord {b : Memory} {codes : List Code6} {j : Nat} (h : PackedWord b codes j) :
    Memory.read b j = twWord codes j := by
  obtain ⟨hsign, hfield⟩ := h
  exact word_ext_fields hsign fun k => (hfield k).trans (twWord_field codes j k).symm

/-- On a source that holds enough the loop completes the command on either exit: with the codes of a whole block, or
with those before an escape and `SPACE` (R186, D12). -/
theorem twAdvance_of_source {s : State} {pre post : List Char8} {vals codes : List Code6}
    (hmap : pre.map (toVal s.codec) = vals.map some)
    (hsource : (pre.length = twChars s.params ∧ s.source = pre ++ post ∧ codes = vals) ∨
      (pre.length < twChars s.params ∧ ∃ esc, toVal s.codec esc = none ∧ s.source = pre ++ esc :: post ∧
        codes = vals ++ [s.codec.space])) : twAdvance [] s = twFinish codes post s := by
  rcases hsource with ⟨hlen, hsrc, rfl⟩ | ⟨hlen, esc, hesc, hsrc, rfl⟩
  · exact twAdvance_of_full (hsrc ▸ twScan_full_of_codes hmap hlen post)
  · exact twAdvance_of_escape (hsrc ▸ twScan_escape_of_codes hmap hlen hesc post)

/-- `TW.IN` with the sizes the machine has and its `LAT_TW` (R186). -/
theorem State.Inv.typeIn {s : State} (hi : s.Inv) {p : Params} (hp : s.params = p) :
    TypeIn s p.typeWriter.blockSize (5 * p.typeWriter.blockSize) (p.typeWriter.blockSize * s.latTw) := by
  subst hp
  refine ⟨fun htime => (twIn_of_le htime).trans (raiseFault_eq_faulted 5#3 .timeOverflow s),
    fun htime pre post vals codes hmap hsource => ?_⟩
  have hf := (typeRule_fault_eq_none_iff s).2 htime
  have hfit := typeWords_le_bufWords s.params
  obtain ⟨hsize, -⟩ := (Params.wellFormed_iff s.params).1 hi.params
  have hpos : 0 < s.params.typeWriter.blockSize * s.latTw := Nat.mul_pos (hsize .typeWriter).1 hi.latTw
  refine ⟨memWrite s.buf 0 (twWords codes s.params.typeWriter.blockSize), (typeRule s.params s.latTw).regsAfter s, ?_,
    fun _ => packedWord_twWords hi.buf hfit codes, fun a ha => ?_, Transfer.regsAfter_curPage_stays s rfl,
    Transfer.regsAfter_timing hf hpos⟩
  · rw [← twChars_eq] at hsource
    rw [twIn_of_lt htime, twAdvance_of_source hmap hsource, twFinish_eq]
    rfl
  · rw [read_twWords hi.buf hfit, if_neg (Nat.not_lt.2 ha)]

/-! ### The statements of 44_console.md -/

/-- Settles O32: the buffer's characters go to the sink, and R8's defaults are computed. -/
theorem linePrinterAppendsOneLine : Obligations.LinePrinterAppendsOneLine :=
  fun _ hwf => ⟨print_of_wf hwf rfl, print_of_wf hwf⟩

/-- Settles O33: the loop ends on either exit with its codes, and R8's defaults are computed. -/
theorem typewriterReadsABlock : Obligations.TypewriterReadsABlock :=
  fun _ hi => ⟨hi.typeIn rfl, hi.typeIn⟩

/-- Settles O34: the codes read end with the escape's `SPACE`, so the fields and Words after it have no code. -/
theorem typewriterEscapeZeroFills : Obligations.TypewriterEscapeZeroFills := by
  intro s pre post vals esc j k hi htime hmap hesc hsource hlen hj
  have hvals : vals.length = 5 * j + k.val := by simpa [hlen] using (congrArg List.length hmap).symm
  obtain ⟨-, hrun⟩ := hi.typeIn rfl
  obtain ⟨b, r, hexec, hword, -⟩ := hrun htime pre post vals (vals ++ [s.codec.space]) hmap
    (Or.inr ⟨by omega, esc, hesc, hsource, rfl⟩)
  have hcodes : (vals ++ [s.codec.space]).length = 5 * j + k.val + 1 := by simp [hvals]
  obtain ⟨-, hfield⟩ := hword j hj
  refine ⟨_, hexec, rfl, ?_, fun l hl => ?_, fun jj hjj hlt => ?_⟩
  · rw [hfield k, ← hvals, List.getD_append_right _ _ _ _ le_rfl, Nat.sub_self, List.getD_cons_zero]
  · exact (hfield l).trans (List.getD_eq_default _ _ (by omega))
  · exact (read_of_packedWord (hword jj hlt)).trans (twWord_beyond _ (by omega))

end Sys2Proof.Machine
end

section
/-! SUPPORT. The paper tape punched with the machine's sizes and constants, and the proof of 45_papertape.md's
statement. -/

namespace Sys2Proof.Machine

open Sys2Proof.Claims

/-! ### The paper tape -/

/-- `PT.OUT` with the sizes and constants the machine has (R201, R204). -/
theorem punch_of_wf {s : State} (hwf : s.params.wellFormed = true) {p : Params} (hp : s.params = p) :
    Punch s p.paperTape.blockSize p.paperTape.numBlocks (p.paperTape.numBlocks * (p.paperTape.blockSize * 5))
      (p.paperTape.blockSize * p.lat.paperTape) := by
  subst hp
  have h : PlainTransfer s.params .ptOut (paperTapeRule s.params) punchBuf := .ptOut
  refine ⟨fun htime => h.exec_of_fault (Transfer.fault_timeOverflow_unchecked rfl nofun htime), fun htime => ?_⟩
  have hf : (paperTapeRule s.params).fault s = none := Transfer.fault_eq_none_unchecked rfl nofun htime
  refine ⟨punchTape s.params s.codec s.buf, _, exec_ok_of_file h hf (punchBuf_eq s),
    punchTape_length s.params s.codec s.buf, fun i hi j hj k => ?_,
    Transfer.regsAfter_curPage_stays s rfl, Transfer.regsAfter_timing hf (h.product_pos hwf)⟩
  rw [Nat.mul_comm s.params.paperTape.blockSize i]
  exact punchTape_char s.params s.codec s.buf hi hj k

/-! ### The statement of 45_papertape.md -/

/-- Settles O38: the buffer's characters become the file, and R8's defaults are computed. -/
theorem paperTapePunchesTheWholeBuffer : Obligations.PaperTapePunchesTheWholeBuffer :=
  fun _ hwf => ⟨punch_of_wf hwf rfl, punch_of_wf hwf⟩

end Sys2Proof.Machine
end

section
/-! SUPPORT. What a supported transfer answers when a precondition fails and when none does, and that no command reads
the latch: the layer under the proofs of 60_exceptions.md's statements, and these proofs. -/

namespace Sys2Proof.Machine

open Sys2Proof.Claims

/-! ### The nine supported transfers as one kind of command -/

/-- `TransferRule p latTw i r`: the command `i` is a supported transfer with the rule `r` (R88, R128): one of the eight
plain ones, or `TW.IN`. -/
inductive TransferRule (p : Params) (latTw : Nat) : Instr → Transfer → Prop where
  | plain {i : Instr} {r : Transfer} {body : State → State} (h : PlainTransfer p i r body) : TransferRule p latTw i r
  | twIn : TransferRule p latTw .twIn (typeRule p latTw)

/-- R122's table lists the device and the product of every supported transfer. -/
theorem mem_transferTable_iff {p : Params} {latTw : Nat} {i : Instr} {d : Device} {n : Nat} :
    (i, d, n) ∈ transferTable p latTw ↔ ∃ r, TransferRule p latTw i r ∧ d = r.dev ∧ n = r.product := by
  constructor
  · intro h
    rcases transferTable_cases h with ⟨r, body, hp, hd, hn⟩ | ⟨rfl, hd, hn⟩
    · exact ⟨r, .plain hp, hd, hn⟩
    · exact ⟨_, .twIn, hd, hn⟩
  · rintro ⟨r, hr, rfl, rfl⟩
    cases hr with
    | plain hp => exact hp.mem_transferTable latTw
    | twIn => simp [transferTable, typeRule]

/-- A command only answers, or sets a cursor, or is a supported transfer. -/
theorem instr_cases (i : Instr) (s : State) :
    (∃ f, answer i = some f) ∨ (∃ d, i = .setPage d) ∨ ∃ r, TransferRule s.params s.latTw i r := by
  rcases exec_cases i s with ⟨f, hf, -⟩ | ⟨d, hd, -⟩ | ⟨r, body, hp, -⟩ | ⟨rfl, -⟩
  · exact Or.inl ⟨f, hf⟩
  · exact Or.inr (Or.inl ⟨d, hd⟩)
  · exact Or.inr (Or.inr ⟨r, .plain hp⟩)
  · exact Or.inr (Or.inr ⟨_, .twIn⟩)

theorem TransferRule.dev_eq {p : Params} {latTw : Nat} {i : Instr} {r : Transfer} (h : TransferRule p latTw i r) :
    r.dev = deviceOf i := by
  cases h with
  | plain hp => exact hp.dev_eq
  | twIn => rfl

/-- The transfers of Tape and Disk check their page, and no other does (R147). -/
theorem TransferRule.pageCheck_iff {p : Params} {latTw : Nat} {i : Instr} {r : Transfer}
    (h : TransferRule p latTw i r) : r.pageCheck = true ↔ r.dev = .tape ∨ r.dev = .disk := by
  cases h with
  | plain hp =>
    cases hp with
    | tapeIn | tapeOut => exact iff_of_true rfl (Or.inl rfl)
    | diskIn | diskOut => exact iff_of_true rfl (Or.inr rfl)
    | _ => exact iff_of_false nofun (Or.rec nofun nofun)
  | twIn => exact iff_of_false nofun (Or.rec nofun nofun)

/-! ### What a supported transfer answers -/

section

variable {s t : State} {i : Instr} {r : Transfer} (hr : TransferRule s.params s.latTw i r)
include hr

/-- A supported transfer with a precondition that fails takes that fault and does nothing else (R128 (3), R224). -/
theorem TransferRule.exec_of_fault {c : FaultCause} (hf : r.fault s = some c) :
    exec i s = raiseFault r.dev.code c s := by
  cases hr with
  | plain hp => exact exec_plain_fault hp hf
  | twIn =>
    obtain ⟨rfl, hle⟩ := typeRule_fault_some hf
    exact twIn_of_le hle

/-- A supported transfer whose preconditions hold answers no fault. -/
theorem TransferRule.response_ne_fault (h : exec i s = .next t) (hf : r.fault s = none) (c : FaultCause) :
    t.response ≠ some (.fault c) := by
  cases hr with
  | plain hp =>
    cases (exec_plain_ok hp hf).symm.trans h
    exact nofun
  | twIn =>
    cases (twIn_of_lt ((typeRule_fault_eq_none_iff s).1 hf)).symm.trans h
    rcases twAdvance_cases [] s with ⟨cs, rest, e⟩ | ⟨cs, -, e⟩
    · rw [e, twFinish_eq]
      exact nofun
    · rw [e, twHold_eq]
      exact nofun

/-- The fault a supported transfer answers is the precondition that fails. -/
theorem TransferRule.response_fault_iff (h : exec i s = .next t) (c : FaultCause) :
    t.response = some (.fault c) ↔ r.fault s = some c := by
  cases hf : r.fault s with
  | none => exact iff_of_false (hr.response_ne_fault h hf c) nofun
  | some c' =>
    cases (hr.exec_of_fault hf).symm.trans h
    simp

end

/-- Only a supported transfer answers a fault. -/
theorem exists_transferRule_of_response_fault {i : Instr} {s t : State} {c : FaultCause} (h : exec i s = .next t)
    (hc : t.response = some (.fault c)) : ∃ r, TransferRule s.params s.latTw i r := by
  rcases instr_cases i s with ⟨f, hf⟩ | ⟨d, rfl⟩ | hr
  · cases (exec_answer hf s).symm.trans h
    obtain ⟨flag, v, e⟩ := answer_done hf s.regs s.port.now
    simp [e] at hc
  · cases h
    cases hc
  · exact hr

/-! ### Which precondition fails -/

/-- `PageRange` is found first (R229). -/
theorem Transfer.fault_eq_pageRange_iff (r : Transfer) (s : State) :
    r.fault s = some .pageRange ↔
      r.pageCheck = true ∧ s.params.numBlocks r.dev ≤ (s.regs.get r.dev).curPage.toNat := by
  constructor
  · intro hf
    obtain ⟨-, hrange⟩ | ⟨hc, -⟩ | ⟨hc, -⟩ := Transfer.fault_some_cases hf
    · exact hrange
    · cases hc
    · cases hc
  · rintro ⟨hcheck, hle⟩
    exact Transfer.fault_pageRange hcheck hle

/-- `TimeOverflow` is found last (R229). -/
theorem Transfer.fault_eq_timeOverflow_iff (r : Transfer) (s : State) :
    r.fault s = some .timeOverflow ↔
      2 ^ 64 ≤ s.port.now.toNat + r.product ∧ r.fault s ≠ some .pageRange ∧ r.fault s ≠ some .cursorOverflow := by
  constructor
  · intro hf
    obtain ⟨hc, -⟩ | ⟨hc, -⟩ | ⟨-, -, -, hle⟩ := Transfer.fault_some_cases hf
    · cases hc
    · cases hc
    · exact ⟨hle, by simp [hf], by simp [hf]⟩
  · rintro ⟨hle, hpage, hcursor⟩
    cases hf : r.fault s with
    | none =>
      obtain ⟨-, -, hlt⟩ := (Transfer.fault_eq_none_iff r s).1 hf
      exact absurd hle (Nat.not_le.2 hlt)
    | some c =>
      obtain ⟨rfl, -⟩ | ⟨rfl, -⟩ | ⟨rfl, -⟩ := Transfer.fault_some_cases hf
      · exact absurd hf hpage
      · exact absurd hf hcursor
      · rfl

/-- Only `CR.IN` can find its cursor at the end: on Tape and Disk a cursor in range is below that (R226, R147). -/
theorem TransferRule.fault_eq_cursorOverflow_iff {s : State} {i : Instr} {r : Transfer}
    (hr : TransferRule s.params s.latTw i r) (hwf : s.params.wellFormed = true) :
    r.fault s = some .cursorOverflow ↔ i = .crIn ∧ (s.regs.get r.dev).curPage.toNat = 2 ^ 32 - 1 := by
  constructor
  · intro hf
    obtain ⟨hc, -⟩ | ⟨-, hpage, hadv, hend⟩ | ⟨hc, -⟩ := Transfer.fault_some_cases hf
    · cases hc
    · cases hr with
      | twIn => cases hadv
      | plain hp =>
        have hcheck : r.pageCheck ≠ true := fun hcheck =>
          absurd (hp.cursor_advances hcheck hwf (hpage hcheck)) (Nat.not_lt.2 hend)
        rw [State.curPage_eq] at hend
        cases hp with
        | crIn => exact ⟨rfl, by omega⟩
        | tapeIn | tapeOut => exact absurd rfl hcheck
        | _ => cases hadv
    · cases hc
  · rintro ⟨rfl, hend⟩
    cases hr with
    | plain hp =>
      cases hp
      exact Transfer.fault_cursorOverflow_unchecked rfl rfl hend

/-! ### The latch is not read -/

/-- The state with another value in the `FAULT` latch. -/
def State.withFault (s : State) (f : BitVec 8) : State := { s with fault := f }

/-- The data movement of a plain transfer neither reads nor writes the latch. -/
theorem PlainTransfer.body_withFault {p : Params} {i : Instr} {r : Transfer} {body : State → State}
    (h : PlainTransfer p i r body) (s : State) (f : BitVec 8) : body (s.withFault f) = (body s).withFault f := by
  obtain ⟨hregs, hport, -⟩ := h.body_frame s
  calc body (s.withFault f)
      = { body s with regs := s.regs, fault := f, port := s.port } := h.body_reads s (fun _ => rfl) f s.port.mode
    _ = (body s).withFault f := by rw [← hregs, ← hport]; rfl

/-- `TW.IN` ends the same whatever the latch holds. -/
theorem twFinish_withFault (cs : List Code6) (rest : List Char8) (s : State) (f : BitVec 8) :
    twFinish cs rest (s.withFault f) = (twFinish cs rest s).withFault f := by
  rw [twFinish_eq, twFinish_eq]
  rfl

/-- The typewriter's loop neither reads nor writes the latch. -/
theorem twAdvance_withFault (codes : List Code6) (s : State) (f : BitVec 8) :
    twAdvance codes (s.withFault f) = (twAdvance codes s).withFault f := by
  cases h : twScan (twChars s.params) s.codec codes s.source with
  | full cs rest =>
    rw [twAdvance_of_full h, twAdvance_of_full (s := s.withFault f) h]
    exact twFinish_withFault cs rest s f
  | escape cs rest =>
    rw [twAdvance_of_escape h, twAdvance_of_escape (s := s.withFault f) h]
    exact twFinish_withFault _ rest s f
  | wait cs =>
    rw [twAdvance_of_wait h, twAdvance_of_wait (s := s.withFault f) h]
    rfl

/-- A supported transfer whose preconditions hold moves and answers the same whatever the latch holds, and leaves it. -/
theorem TransferRule.exec_withFault_of_none {s t : State} {i : Instr} {r : Transfer}
    (hr : TransferRule s.params s.latTw i r) (hf : r.fault s = none) (h : exec i s = .next t) (f : BitVec 8) :
    exec i (s.withFault f) = .next (t.withFault f) := by
  cases hr with
  | plain hp =>
    cases (exec_plain_ok hp hf).symm.trans h
    rw [exec_plain_ok (s := s.withFault f) hp hf, hp.body_withFault]
    rfl
  | twIn =>
    have hlt := (typeRule_fault_eq_none_iff s).1 hf
    cases (twIn_of_lt hlt).symm.trans h
    rw [twIn_of_lt (s := s.withFault f) hlt, twAdvance_withFault]

/-- A command answers the same next state whatever the latch holds, up to the latch (R228). -/
theorem exec_withFault {i : Instr} {s t : State} (h : exec i s = .next t) (f : BitVec 8) :
    ∃ g, exec i (s.withFault f) = .next (t.withFault g) := by
  rcases instr_cases i s with ⟨a, ha⟩ | ⟨d, rfl⟩ | ⟨r, hr⟩
  · cases (exec_answer ha s).symm.trans h
    exact ⟨f, exec_answer ha (s.withFault f)⟩
  · cases h
    exact ⟨f, rfl⟩
  · cases hf : r.fault s with
    | some c =>
      cases (hr.exec_of_fault hf).symm.trans h
      exact ⟨latchFault f r.dev.code c, hr.exec_of_fault (s := s.withFault f) hf⟩
    | none => exact ⟨f, hr.exec_withFault_of_none hf h f⟩

/-! ### The statements of 60_exceptions.md -/

/-- Settles O39: a command that answers a fault is a supported transfer that took it. -/
theorem aFaultChangesOnlyTheLatch : Obligations.AFaultChangesOnlyTheLatch := by
  intro i s t c h hc
  obtain ⟨r, hr⟩ := exists_transferRule_of_response_fault h hc
  have hraise := hr.exec_of_fault ((hr.response_fault_iff h c).1 hc)
  rw [raiseFault_eq_faulted, hr.dev_eq] at hraise
  exact Host.Outcome.next.inj (h.symm.trans hraise)

/-- Settles O40: a fault sets the other latch by its own rule, and nothing else reads or writes it. -/
theorem theLatchHoldsNothingBack : Obligations.TheLatchHoldsNothingBack :=
  fun _ _ _ f h => exec_withFault h f

/-- Settles O41: the response is the first precondition that fails, and what is no row of the table has none. -/
theorem outcomesHaveAnOrder : Obligations.OutcomesHaveAnOrder := by
  intro i s t hwf h
  refine ⟨fun d n hrow => ?_, fun hrow c hc => ?_⟩
  · obtain ⟨r, hr, rfl, rfl⟩ := mem_transferTable_iff.1 hrow
    have hresp := hr.response_fault_iff h
    simp only [ne_eq, hresp]
    exact ⟨(r.fault_eq_pageRange_iff s).trans (and_congr_left' hr.pageCheck_iff), hr.fault_eq_cursorOverflow_iff hwf,
      r.fault_eq_timeOverflow_iff s⟩
  · obtain ⟨r, hr⟩ := exists_transferRule_of_response_fault h hc
    exact hrow r.dev r.product (mem_transferTable_iff.2 ⟨r, hr, rfl, rfl⟩)

end Sys2Proof.Machine
end

section
/-! SUPPORT. What the host's next action makes of a step: the registers, mirrors and record maps a reset, a construction
and a change from outside leave, and the proofs of 70_reset_and_hazards.md's statements. -/

namespace Sys2Proof.Machine

open Sys2Proof.Claims

/-! ### Steps in which the host acts -/

section

variable {s : State} {rest : List Input} (hh : s.held = none)
include hh

/-- With nothing held the host's next action is the whole step (R279). -/
theorem step_host {a : HostAction} (hin : s.inputs = .host a :: rest) : step s = hostAct a { s with inputs := rest } :=
  step_of_other (fetch_host hh hin)

/-- The reset of one device writes its registers and, for Tape and Disk, the mirror (R260 to R264). -/
theorem step_resetDevice {d : Device} {r : Bool} (hin : s.inputs = .host (.resetDevice d r) :: rest) :
    step s = .next { s with
      inputs := rest
      regs := s.regs.set d DevRegs.reset
      tapeData := if d = .tape then (s.storeLoad .tape r).getD [] else s.tapeData
      diskData := if d = .disk then (s.storeLoad .disk r).getD [] else s.diskData } :=
  (step_host hh hin).trans (congrArg Host.Outcome.next (resetDevice_eq d r _))

/-- The reset of the block writes all registers, both mirrors and the latch (R265). -/
theorem step_resetBlock {rt rd : Bool} (hin : s.inputs = .host (.resetBlock rt rd) :: rest) :
    step s = .next { s with
      inputs := rest
      regs := RegFile.reset
      tapeData := (s.storeLoad .tape rt).getD []
      diskData := (s.storeLoad .disk rd).getD []
      fault := 0#8 } :=
  step_host hh hin

/-- A card device constructed alone has its registers reset and stands on its directory (R262). -/
theorem step_constructReader {dir : CardDirectory} (hin : s.inputs = .host (.constructReader dir) :: rest) :
    step s = .next { s with
      inputs := rest
      regs := s.regs.set .cardReader DevRegs.reset
      cards := s.cards.readerOn dir } :=
  (step_host hh hin).trans (congrArg Host.Outcome.next (constructReader_eq dir _))

theorem step_constructWriter {dir : CardDirectory} (hin : s.inputs = .host (.constructWriter dir) :: rest) :
    step s = .next { s with
      inputs := rest
      regs := s.regs.set .cardWriter DevRegs.reset
      cards := s.cards.writerOn dir } :=
  (step_host hh hin).trans (congrArg Host.Outcome.next (constructWriter_eq dir _))

/-- Both card devices constructed together have their registers reset and the directories given (R267 (2)). -/
theorem step_attachCards {stores : CardStores} (hin : s.inputs = .host (.attachCards stores) :: rest) :
    step s = .next { s with
      inputs := rest
      regs := (s.regs.set .cardReader DevRegs.reset).set .cardWriter DevRegs.reset
      cards := cardStoresOf stores } :=
  step_host hh hin

end

/-! ### The mirror that a reset loads -/

/-- A store that is present and readable is loaded as it is (R261). -/
theorem State.getD_storeLoad_of_present {s : State} {m : Medium} {r : Bool} {x : Memory} (hst : s.store m = some x)
    (hr : r = true) : (s.storeLoad m r).getD [] = x := by
  simp [State.storeLoad, hr, hst]

/-- With the store absent or unreadable the mirror reads `ZERO` everywhere (R261). -/
theorem State.read_storeLoad_of_missing {s : State} {m : Medium} {r : Bool} (h : s.store m = none ∨ r = false) (a : Nat) :
    Memory.read ((s.storeLoad m r).getD []) a = Word.zero := by
  have hload : s.storeLoad m r = none := by
    rcases h with hst | hr
    · simp [State.storeLoad, hst]
    · simp [State.storeLoad, hr]
  rw [hload]
  rfl

/-! ### The record maps that the host gives -/

/-- Maps given together keep their records (R56). -/
theorem find_reader_cardStoresOf (c : CardStores) (p : Nat) :
    RecMap.find (cardStoresOf c).reader p = RecMap.find c.reader p := by
  cases c <;> exact find_recMapOfList _ p

theorem find_writer_cardStoresOf (c : CardStores) (p : Nat) :
    RecMap.find (cardStoresOf c).writer p = RecMap.find c.writer p := by
  cases c <;> exact find_recMapOfList _ p

/-- Maps given together are one map exactly when one is given (R56). -/
theorem exists_shared_cardStoresOf_iff (c : CardStores) :
    (∃ x, c = .shared x) ↔ ∃ x, cardStoresOf c = .shared x := by
  cases c <;> simp [cardStoresOf]

/-! ### The statements of 70_reset_and_hazards.md -/

/-- Settles O44: of the two mirrors only the reset device's is loaded. -/
theorem mediumResetLoadsTheMirror : Obligations.MediumResetLoadsTheMirror := by
  intro s r rest hh
  refine ⟨fun hin => ?_, fun hin => ?_⟩
  · exact ⟨_, _, step_resetDevice hh hin, RegFile.get_set_same _ _ _, onlyDevice_set _ _ _,
      fun _ => State.getD_storeLoad_of_present (m := .tape), State.read_storeLoad_of_missing (m := .tape)⟩
  · exact ⟨_, _, step_resetDevice hh hin, RegFile.get_set_same _ _ _, onlyDevice_set _ _ _,
      fun _ => State.getD_storeLoad_of_present (m := .disk), State.read_storeLoad_of_missing (m := .disk)⟩

/-- Settles O45: a device that is neither Tape nor Disk has no mirror to load. -/
theorem otherDeviceResetOnlyClearsRegisters : Obligations.OtherDeviceResetOnlyClearsRegisters := by
  intro s d r rest hh htape hdisk hin
  have hstep := step_resetDevice hh hin
  rw [if_neg htape, if_neg hdisk] at hstep
  exact ⟨_, hstep, RegFile.get_set_same _ _ _, onlyDevice_set _ _ _⟩

/-- Settles O46: both mirrors are loaded, and every device's registers are those of reset. -/
theorem blockResetClearsFaultAndDevices : Obligations.BlockResetClearsFaultAndDevices := by
  intro s rt rd rest hh hin
  exact ⟨_, _, _, step_resetBlock hh hin, RegFile.reset_get,
    fun _ => State.getD_storeLoad_of_present (m := .tape), State.read_storeLoad_of_missing (m := .tape),
    fun _ => State.getD_storeLoad_of_present (m := .disk), State.read_storeLoad_of_missing (m := .disk)⟩

/-- Settles O50: one clause for each input; records and buffer are made canonical, which no read sees. -/
theorem outsideChangesReachOneResource : Obligations.OutsideChangesReachOneResource := by
  intro s rest hh
  refine ⟨fun hin => step_of_other (fetch_idle hh hin), fun bytes hin => step_host hh hin,
    fun file hin => step_host hh hin, fun recs hin => ?_, fun recs hin => ?_, fun cells hin hfit => ?_⟩
  · refine ⟨_, step_host hh hin, fun p => ?_, fun x y hc => ?_, fun x hc => ?_⟩
    · rw [CardStores.reader_setReader, find_recMapOfList]
    · rw [CardStores.reader_setReader, hc, CardStores.setReader_separate]
    · rw [CardStores.reader_setReader, hc, CardStores.setReader_shared]
  · refine ⟨_, step_host hh hin, fun p => ?_, fun x y hc => ?_, fun x hc => ?_⟩
    · rw [CardStores.writer_setWriter, find_recMapOfList]
    · rw [CardStores.writer_setWriter, hc, CardStores.setWriter_separate]
    · rw [CardStores.writer_setWriter, hc, CardStores.setWriter_shared]
  · exact ⟨_, step_supply_of_fit hh hin hfit, wf_memOfCells hfit, read_memOfCells cells⟩

/-- Settles O53: a card device constructed alone leaves the other's registers and records; both constructed together
take the directories given. -/
theorem cardDevicesAreConstructedOnDirectories : Obligations.CardDevicesAreConstructedOnDirectories := by
  intro s rest hh
  refine ⟨fun dir hin => ?_, fun dir hin => ?_, fun stores hin => ?_⟩
  · refine ⟨_, _, step_constructReader hh hin, RegFile.get_set_same _ _ _, onlyDevice_set _ _ _, ?_, ?_⟩
    · rintro rfl
      rfl
    · rintro recs rfl
      exact ⟨_, rfl, find_recMapOfList recs⟩
  · refine ⟨_, _, step_constructWriter hh hin, RegFile.get_set_same _ _ _, onlyDevice_set _ _ _, ?_, ?_⟩
    · rintro rfl
      rfl
    · rintro recs rfl
      exact ⟨_, rfl, find_recMapOfList recs⟩
  · refine ⟨_, _, step_attachCards hh hin, ?_, RegFile.get_set_same _ _ _, fun d hr hw => ?_,
      fun p => ⟨find_reader_cardStoresOf stores p, find_writer_cardStoresOf stores p⟩,
      exists_shared_cardStoresOf_iff stores⟩
    · exact (RegFile.get_set_ne _ _ (by decide)).trans (RegFile.get_set_same _ _ _)
    · exact (RegFile.get_set_ne _ _ hw).trans (RegFile.get_set_ne _ _ hr)

end Sys2Proof.Machine
end
